-- ==== Sys2Proof/Word.lean ====
section
/-! DEFINITION. The word types of the HSB: fixed widths, no arithmetic of their own.
Rules R7, R8 of spec/00_scope.md and R61, R90 of spec/20_memory.md and spec/30_encoding.md. -/

namespace Sys2Proof

/-- A command word or a 32-bit register (R90, R52). -/
abbrev Word := BitVec 32

/-- A byte of the frame buffer (R39). -/
abbrev Byte := BitVec 8

/-- The 64-bit value that crosses the host port (R61). -/
abbrev PortWord := BitVec 64

/-- An IEEE 754 binary64 datum as its 64-bit pattern (R8): finite, infinite or NaN. -/
abbrev F64 := BitVec 64

/-- A location number: region 23:20, channel 19:16, index 15:0 (R61). -/
abbrev Loc := BitVec 24

/-- A channel operand, 0 to 15 (R91); `NCH_MAX` = 16 slots (R6). -/
abbrev ChanIx := BitVec 4

end Sys2Proof
end

