-- ==== Sys2Proof/Config.lean ====
section
/-! DEFINITION. The parameters of an HSB instance (R6 of spec/00_scope.md, list P of
spec/93_implementation_defined.md) as one record of plain data, and the free values: constants without a
body, so that nothing can be proved about what they are. -/

namespace Sys2Proof

/-- One row `(w, v)` of a code table `CODE[r]` (R28): a bit string, first bit first, and its value. -/
structure CodeRow where
  word  : List Bool
  value : Int
deriving DecidableEq, Repr

/-- The OPEN parameter `CODE` (P5): the reference rows of R99 and R100, or fifteen given tables, the entry at
position `r - 1` being `CODE[r]`. -/
inductive CodeTable where
  | reference
  | given (tables : List (List CodeRow))
deriving DecidableEq, Repr

/-- The OPEN parameter `NUM` (P8): `NUM_REF` of R163, or another conforming numerics record, known only by a number. -/
inductive Numerics where
  | reference
  | other (id : Nat)
deriving DecidableEq, Repr

/-- The OPEN parameter `ISENC_CHOICE` (P9): `ISENC_CHOICE_REF` of R152, or another function, known only by a number. -/
inductive IsencChoice where
  | reference
  | other (id : Nat)
deriving DecidableEq, Repr

/-- The OPEN parameters of an instance (R6). The fixed tables (R21 to R26) are definitions in
`Machine/Tables.lean`. No step changes a field of it (R20, R31). -/
structure Cfg where
  /-- `B` (P1): even, 2 to 2048. -/
  blockSize : Nat
  /-- `FB_CAP` (P2): 1 to 2^20 bytes. -/
  fbCap     : Nat
  /-- `TABLES_OK` (P3, R31). -/
  tablesOk  : Bool
  /-- `DEQ_NORM[0..15]` (P4, R27). -/
  deqNorm   : List F64
  /-- `CODE[1..15]` (P5, R28). -/
  code      : CodeTable
  /-- `WINDOW[0..2B-1]` (P6, R29). -/
  window    : List F64
  /-- `S_INV` (P7, R161). -/
  sInv      : F64
  /-- `S_FWD` (P7, R162). -/
  sFwd      : F64
  /-- `NUM` (P8, R163). -/
  numerics  : Numerics
  /-- `ISENC_CHOICE` (P9, R152). -/
  isenc     : IsencChoice
deriving DecidableEq, Repr

/-- The three F64 buffers of a channel (R36 to R38), to tell their free draws apart. -/
inductive F64Buf where
  | x
  | t
  | ov
deriving DecidableEq, Repr

/-! ### Free values
The first argument is the number of the draw (`State.draws`), so two draws have nothing in common; the others
say which element is drawn. Assumption log 4 to 9. -/

/-- A drawn element of `SF[c]` (R56, U1). -/
opaque Config.freeSf (draw c b : Nat) : BitVec 6

/-- A drawn element of `RES[c]` (R56, U1). -/
opaque Config.freeRes (draw c b : Nat) : BitVec 4

/-- A drawn element of `Q[c]` (R56, R132; U1, U2). -/
opaque Config.freeQ (draw c b : Nat) : BitVec 16

/-- A drawn element of `X[c]`, `T[c]` or `OV[c]` (R56, R153, R163; U1, U3, U4): any pattern, NaN included. -/
opaque Config.freeF64 (draw : Nat) (buf : F64Buf) (c k : Nat) : F64

/-- A drawn byte of `FB` (R56, U1). -/
opaque Config.freeByte (draw i : Nat) : Byte

/-! ### What an instance other than the reference computes (R163 N1: functions). Log 10, 11. -/

/-- `NUM.mul(|a|, b)` of numerics record `id`, for non-zero operands. -/
opaque Config.otherMul (id : Nat) (absA b : F64) : F64

/-- Whether a zero product, or a zero sum, of numerics record `id` is -0 (U5), but for a zero times a positive number. -/
opaque Config.otherZeroNeg (id : Nat) (a b : F64) : Bool

/-- Whether numerics record `id` gives +0 times a positive number the value -0 (U5, R133). -/
opaque Config.otherZeroFlip (id : Nat) : Bool

/-- `NUM.add(a, b)` of numerics record `id`, for non-zero operands with a non-zero sum. -/
opaque Config.otherAdd (id : Nat) (a b : F64) : F64

/-- Element `n` of `NUM.imdct(xs)` of numerics record `id`. -/
opaque Config.otherImdct (id : Nat) (xs : List F64) (n : Nat) : F64

/-- Element `k` of `NUM.mdct(zw)` of numerics record `id`. -/
opaque Config.otherMdct (id : Nat) (zw : List F64) (k : Nat) : F64

/-- `ISENC_CHOICE(P, S)` of selection function `id` (R152: total, result 0 to 15). -/
opaque Config.otherIsenc (id : Nat) (p s : List F64) : BitVec 4

/-- Binary32 pattern of window entry `n` of the instance `State.reset` stands on (P6: no value given). Log 14. -/
opaque Config.windowWord (n : Nat) : BitVec 32

end Sys2Proof
end

