-- ==== Sys2Proof/Machine/Float.lean ====
section
/-! DEFINITION. Binary64 data and the reference arithmetic (R8 of spec/00_scope.md, `NUM_REF` of R163 of
spec/43_transform.md). A finite F64 is an integer multiple of 2^-1074, so its value is held exactly as that
integer; results are computed exactly and rounded once, to nearest, ties to even. -/

namespace Sys2Proof.F64

/-- The sign bit: true for negative patterns, -0 among them. -/
def sign (x : F64) : Bool := decide (2 ^ 63 ≤ x.toNat)

/-- The pattern without its sign bit, as a number. -/
def magBits (x : F64) : Nat := x.toNat % 2 ^ 63

/-- The pattern of infinity without its sign: exponent field 2047, fraction 0. -/
def infBits : Nat := 0x7FF * 2 ^ 52

/-- `finite(x)`: neither infinite nor NaN (R8). -/
def finite (x : F64) : Bool := decide (magBits x < infBits)

/-- `iszero(x)`: +0 or -0 (R8). -/
def isZero (x : F64) : Bool := magBits x == 0

/-- `|val(x)| · 2^1074` for a finite x. -/
def scaledMag (x : F64) : Nat :=
  let e := magBits x / 2 ^ 52
  let f := magBits x % 2 ^ 52
  if e = 0 then f else (2 ^ 52 + f) * 2 ^ (e - 1)

/-- `val(x) · 2^1074` for a finite x (R8). -/
def scaled (x : F64) : Int := if sign x then -(scaledMag x : Int) else (scaledMag x : Int)

/-- `FMAX · 2^1074` (R8). -/
def maxScaled : Nat := (2 ^ 53 - 1) * 2 ^ 2045

/-- The pattern with the given sign and magnitude bits. -/
def ofSignMag (neg : Bool) (m : Nat) : F64 :=
  BitVec.ofNat 64 ((if neg then 2 ^ 63 else 0) + m % 2 ^ 63)

/-- A zero of the given sign. -/
def zeroOf (neg : Bool) : F64 := ofSignMag neg 0

/-- `|x|` as a pattern. -/
def abs (x : F64) : F64 := ofSignMag false (magBits x)

/-- `-x` as a pattern: the sign bit flipped. -/
def neg (x : F64) : F64 := ofSignMag (!sign x) (magBits x)

/-- `num / den` as the nearest integer with at most `p` significant bits, ties to even, written as a pair
`(m, sh)` that stands for `m · 2^sh`; `m` may be `2^p`. -/
def roundSig (p num den : Nat) : Nat × Nat :=
  let sh := (num / den).log2 + 1 - p
  let d := den * 2 ^ sh
  let m := num / d
  let r := num % d
  (if d < 2 * r ∨ (2 * r = d ∧ m % 2 = 1) then m + 1 else m, sh)

/-- Magnitude bits of the binary64 nearest to `(num / den) · 2^-1074`, ties to even, subnormals kept. At most
`infBits` when the exact value does not exceed `FMAX`. -/
def roundBits (num den : Nat) : Nat :=
  let r := roundSig 53 num den
  r.2 * 2 ^ 52 + r.1

/-- `rnd64` of the rational `± num / den` (R8), for values within ±FMAX. -/
def ofRat (isNeg : Bool) (num den : Nat) : F64 := ofSignMag isNeg (roundBits (num * 2 ^ 1074) den)

/-- `rnd32` of the rational `num / den` as the F64 of the same value (R8), for values in the normal range of binary32. -/
def ofRat32 (num den : Nat) : F64 :=
  let r := roundSig 24 (num * 2 ^ 1074) den
  ofSignMag false (roundBits (r.1 * 2 ^ r.2) 1)

/-- `F64(q)`: the conversion of an integer, exact for `|q| ≤ 2^53` (R133). -/
def ofInt (q : Int) : F64 := ofRat (decide (q < 0)) q.natAbs 1

/-- A NaN (R8). -/
def isNaN (x : F64) : Bool := decide (infBits < magBits x)

/-- The IEEE 754 product, to nearest even, overflow to infinity (R163, `NUM_REF`). `none` where the product is a NaN,
whose pattern IEEE 754 leaves open. -/
def ieeeMul (a b : F64) : Option F64 :=
  if finite a && finite b then
    some (ofSignMag (sign a != sign b) (min infBits (roundBits (scaledMag a * scaledMag b) (2 ^ 1074))))
  else if isNaN a || isNaN b || isZero a || isZero b then none
  else some (ofSignMag (sign a != sign b) infBits)

/-- The IEEE 754 sum, to nearest even, overflow to infinity (R163, `NUM_REF`). A zero sum is -0 only if both operands
are -0. `none` where the sum is a NaN. -/
def ieeeAdd (a b : F64) : Option F64 :=
  if finite a && finite b then
    let t := scaled a + scaled b
    some (ofSignMag (if t = 0 then sign a && sign b else decide (t < 0)) (min infBits (roundBits t.natAbs 1)))
  else if isNaN a || isNaN b then none
  else if finite b then some a
  else if finite a then some b
  else if sign a = sign b then some a
  else none

/-- `NUM_REF.mul` (R163): the IEEE 754 product; `none` where the exact product of two finite operands lies outside ±FMAX
(U4), or the product is a NaN. -/
def refMul (a b : F64) : Option F64 :=
  if finite a && finite b && decide (maxScaled * 2 ^ 1074 < scaledMag a * scaledMag b) then none else ieeeMul a b

/-- `NUM_REF.add` (R163): the IEEE 754 sum; `none` where the exact sum of two finite operands lies outside ±FMAX (U4), or
the sum is a NaN. -/
def refAdd (a b : F64) : Option F64 :=
  if finite a && finite b && decide (maxScaled < (scaled a + scaled b).natAbs) then none else ieeeAdd a b

/-- The F64 of a binary32 pattern ("stored as floating point, promoted", R29): same value. A binary32 infinity
or NaN, which R29 excludes, becomes +0. -/
def ofBinary32 (w : BitVec 32) : F64 :=
  let e := w.toNat / 2 ^ 23 % 2 ^ 8
  let f := w.toNat % 2 ^ 23
  if e = 255 then zeroOf false
  else
    -- |value| · 2^149 = f (e = 0) or (2^23 + f) · 2^(e-1)
    ofRat (decide (2 ^ 31 ≤ w.toNat)) (if e = 0 then f else (2 ^ 23 + f) * 2 ^ (e - 1)) (2 ^ 149)

/-- Whether a finite F64 is exactly representable in binary32 (R29). -/
def isBinary32 (x : F64) : Bool :=
  -- an integer multiple of 2^-149, with at most 24 significant bits, at most (2 - 2^-23) · 2^127
  decide (scaledMag x % 2 ^ 925 = 0) &&
  decide (scaledMag x % 2 ^ ((scaledMag x).log2 + 1 - 24) = 0) &&
  decide (scaledMag x ≤ (2 ^ 24 - 1) * 2 ^ (104 + 1074))

/-! ### Cosines of rational multiples of π (R163: `COS[n][k] = rnd64(cos(...))`). Log 12. -/

/-- Fixed-point precision of the cosine table and of `√(2/b)`. -/
def fixBits : Nat := 160

/-- `⌊π · 2^160⌋`. -/
def piFix : Nat := 0x3243f6a8885a308d313198a2e03707344a4093822

/-- Taylor sum of `cos` in fixed point with `p` fraction bits: `t` is the current term, `x2` the square of the angle, `j`
the index of the next term, with alternating sign. -/
def cosSeries (p : Nat) : Nat → Nat → Nat → Nat → Bool → Int → Int
  | 0, _, _, _, _, acc => acc
  | fuel + 1, t, x2, j, isNeg, acc =>
    if t = 0 then acc
    else
      let acc' := if isNeg then acc - (t : Int) else acc + (t : Int)
      cosSeries p fuel (t * x2 / (2 ^ (2 * p) * ((2 * j + 1) * (2 * j + 2)))) x2 (j + 1) (!isNeg) acc'

/-- `cos(π · a / d) · 2^p`, for `0 ≤ a / d ≤ 1/2`, from `pi` = `π · 2^p`; a cosine is at most 1. -/
def cosFixed (p pi a d : Nat) : Nat :=
  let x := pi * a / d
  min (cosSeries p (p + 1) (2 ^ p) (x * x) 0 false 0).toNat (2 ^ p)

/-- `⌊cos(π · a / d) · 2^160⌉` up to a few units, for `0 ≤ a / d ≤ 1/2`. -/
def cosQuarter (a d : Nat) : Nat := cosFixed fixBits piFix a d

/-- The multiple of π, over `d`, in the first quadrant with the same cosine but for the sign, and whether the sign is
negative: the reduction of `cos(π · m / d)`. -/
def reduceAngle (m d : Nat) : Nat × Bool :=
  let a := m % (2 * d)
  let b := if d < a then 2 * d - a else a
  if d < 2 * b then (d - b, true) else (b, false)

/-- `rnd64(cos(π · m / d))`. -/
def cosPi (m d : Nat) : F64 :=
  let r := reduceAngle m d
  ofRat r.2 (cosQuarter r.1 d) (2 ^ fixBits)

/-- `arctan(1/q) · 2^p`: `w` is the current power of `1/q`, `j` the index of the next term. -/
def arctanSeries (q : Nat) : Nat → Nat → Nat → Bool → Int → Int
  | 0, _, _, _, acc => acc
  | fuel + 1, w, j, isNeg, acc =>
    if w = 0 then acc
    else
      let t : Int := (w / (2 * j + 1) : Nat)
      arctanSeries q fuel (w / (q * q)) (j + 1) (!isNeg) (if isNeg then acc - t else acc + t)

/-- `π · 2^p` within 40 p units: 16 arctan(1/5) - 4 arctan(1/239). -/
def piFixed (p : Nat) : Nat :=
  (16 * arctanSeries 5 (p + 1) (2 ^ p / 5) 0 false 0 - 4 * arctanSeries 239 (p + 1) (2 ^ p / 239) 0 false 0).toNat

/-- `cos(π · m / d) · 2^p` within `64 p` units, for `p ≥ 64`, from `pi` = `piFixed p` (log 9). -/
def cosAt (p pi m d : Nat) : Int :=
  let r := reduceAngle m d
  if r.2 then -(cosFixed p pi r.1 d : Int) else (cosFixed p pi r.1 d : Int)

/-- `⌊√n⌋` for `n < 2^(2k)`, bit by bit. -/
def sqrtFloor : Nat → Nat → Nat → Nat
  | 0, _, acc => acc
  | k + 1, n, acc => sqrtFloor k n (if (acc + 2 ^ k) * (acc + 2 ^ k) ≤ n then acc + 2 ^ k else acc)

/-- `rnd64(√(2/b))`, the reference scale of the kernels (R161, R162). -/
def sqrtTwoOver (b : Nat) : F64 :=
  let n := 2 * 2 ^ (2 * fixBits) / b
  let r := sqrtFloor (fixBits + 1) n 0
  -- a sticky bit keeps an inexact root off a rounding boundary
  if r * r * b = 2 * 2 ^ (2 * fixBits) then ofRat false r (2 ^ fixBits)
  else ofRat false (2 * r + 1) (2 ^ (fixBits + 1))

end Sys2Proof.F64
end

