-- ==== Sys2Proof/Machine/Tables.lean ====
section
/-! DEFINITION. The fixed closed-form tables (R21 to R26 of spec/10_state.md) and the reference `DEQ_NORM` (R27).
The entries of the three tables with irrational values are the correctly rounded values of their formulas
(log 13), as the obligation `ClosedFormTablesMeetTheirFormulas` states. -/

namespace Sys2Proof.Tables

/-- `LEVELS[r]` (R21). -/
def levels (r : Nat) : Nat := if r < 8 then 2 * r + 1 else 2 ^ (r - 3) - 1

/-- `QRANGE[r] = ⌊LEVELS[r] / 2⌋` (R22). -/
def qRange (r : Nat) : Nat := levels r / 2

/-- `IRATIO[x]` (R25): `rnd64((14 - x) / 7)` for x ≤ 14, +0 for 15. -/
def iRatio (x : BitVec 4) : F64 :=
  if x.toNat ≤ 14 then F64.ofRat false (14 - x.toNat) 7 else F64.zeroOf false

/-- The reference `DEQ_NORM[r]` (R27): `rnd64(2 / LEVELS[r])`, and +0 for r = 0. -/
def deqNormReference : List F64 :=
  F64.zeroOf false :: (List.range 15).map fun i => F64.ofRat false 2 (levels (i + 1))

/-- `DEQ_SCALE` (R23): entry x is `rnd64(√128 · 2^(53(x-63)/128))`. -/
def deqScaleTable : List F64 :=
  [0x3e8551a4ca5d920f, 0x3e8c67f12e57d14b, 0x3e92ecafa93e2f56, 0x3e993737b0cdc5e5,
   0x3ea0cc922b7247f7, 0x3ea6623882552225, 0x3eadd321f301b460, 0x3eb3dea64c123422] ++
  [0x3eba799e1330b358, 0x3ec1a35beb6fcb75, 0x3ec780694fde5d3f, 0x3ecf50765b6e4540,
   0x3ed4dcb299fddd0d, 0x3edbcc1e904bc1d2, 0x3ee284dfe1f56381, 0x3ee8ace5422aa0db] ++
  [0x3ef0706b29ddf6de, 0x3ef5e76f15ad2148, 0x3efd2f87080d89f2, 0x3f0371a7373aa9cb,
   0x3f09e86319e32323, 0x3f11429aaea92de0, 0x3f16ff7df9519484, 0x3f1ea4afa2a490da] ++
  [0x3f246a41ed1d0057, 0x3f2b33a2b84f15fb, 0x3f321f49917ddc96, 0x3f382589994cce13,
   0x3f40163da9fb3335, 0x3f456f4736b527da, 0x3f4c8f6d9406e7b5, 0x3f5306fe0a31b715] ++
  [0x3f595a44cbc8520f, 0x3f60e3ec32d3d1a2, 0x3f668155d44ca973, 0x3f6dfc97337b9b5f,
   0x3f73fa4504ac801c, 0x3f7a9e6b5579fdbf, 0x3f81bbe084045cd4, 0x3f87a11473eb0187] ++
  [0x3f8f7bfdad9cbe14, 0x3f94f9b2769d2ca7, 0x3f9bf2c25bd71e09, 0x3fa29e9df51fdee1,
   0x3fa8cf3216b5448c, 0x3fb0874518759bc8, 0x3fb605e1b976dc09, 0x3fbd5818dcfba487] ++
  [0x3fc38cae6d05d866, 0x3fca0c667b5de565, 0x3fd15a98c8a58e51, 0x3fd71f75e8ec5f74,
   0x3fdecf482d8e67f1, 0x3fe486a2b5c13cd0, 0x3feb59728de5593a, 0x3ff2387a6e756238] ++
  [0x3ff8471a4623c7ad, 0x40002c9a3e778061, 0x40058d12d497c7fd, 0x400cb720dcef9069,
   0x40132170fc4cd831, 0x40197d829fde4e50, 0x4020fb66affed31b, 0x4026a09e667f3bcd]

/-- `QUANT_SCALE` (R24): entry x is `rnd64(1 / (√128 · 2^(53(x-63)/128)))`. No rule reads it (D47). -/
def quantScaleTable : List F64 :=
  [0x41580427543e1a12, 0x4152063b88628cd6, 0x414b0e07298db666, 0x41444e086061892d,
   0x413e7a51fbc74c83, 0x4136dfb23c651a2f, 0x41312abdc06c31cc, 0x4129c49182a3f090] ++
  [0x412356c55f929ff1, 0x411d072d4a07897c, 0x4115c9268a5946b7, 0x411059b0d3158574,
   0x41088ac7d98a6699, 0x41026b4565e27cdd, 0x40fba5b030a1064a, 0x40f4bfdad5362a27] ++
  [0x40ef252b376bba97, 0x40e75feb564267c9, 0x40e18af9388c8dea, 0x40da5503b23e255d,
   0x40d3c32dc313a8e5, 0x40cda9e603db3285, 0x40c6434634ccc320, 0x40c0b5586cf9890f] ++
  [0x40b9145b0b91ffc6, 0x40b2d285a6e4030b, 0x40ac40ab5fffd07a, 0x40a5342b569d4f82,
   0x409fd3c22b8f71f1, 0x4097e2f336cf4e62, 0x4091ed5022fcd91d, 0x408ae89f995ad3ad] ++
  [0x408431f5d950a897, 0x407e502ee78b3ff6, 0x4076c012750bdabf, 0x40711301d0125b51,
   0x4069a0f170ca07ba, 0x40633c08b26416ff, 0x405cdf0b555dc3fa, 0x4055ab07dd485429] ++
  [0x40504315e86e7f85, 0x404868d99b4492ed, 0x404251ce4fb2a63f, 0x403b7f76f2fb5e47,
   0x4034a32af0d7d3de, 0x402efa1bee615a27, 0x40273f9a48a58174, 0x402172b83c7d517b] ++
  [0x401a309bec4a2d33, 0x4013a7db34e59ff7, 0x400d80e316c98398, 0x4006247eb03a5585,
   0x40009e3ecac6f383, 0x3ff8f1ae99157736, 0x3ff2b87fd0dad990, 0x3fec199bdd85529c] ++
  [0x3fe516daa2cf6642, 0x3fdfa7c1819e90d8, 0x3fd7c1ed0130c132, 0x3fd1d4873168b9aa,
   0x3fcac36bbfd3f37a, 0x3fc4160a21f72e2a, 0x3fbe264614f5a129, 0x3fb6a09e667f3bcd]

/-- `SCALE_CONV` (R26): entry x is `rnd64(2^(53(x-64)/128))` for 1 < x < 127, else 0. No rule reads it (D47). -/
def scaleConvTable : List F64 :=
  [0x0000000000000000, 0x0000000000000000, 0x3e54160a21f72e2a, 0x3e5ac36bbfd3f37a,
   0x3e61d4873168b9aa, 0x3e67c1ed0130c132, 0x3e6fa7c1819e90d8, 0x3e7516daa2cf6642] ++
  [0x3e7c199bdd85529c, 0x3e82b87fd0dad990, 0x3e88f1ae99157736, 0x3e909e3ecac6f383,
   0x3e96247eb03a5585, 0x3e9d80e316c98398, 0x3ea3a7db34e59ff7, 0x3eaa309bec4a2d33] ++
  [0x3eb172b83c7d517b, 0x3eb73f9a48a58174, 0x3ebefa1bee615a27, 0x3ec4a32af0d7d3de,
   0x3ecb7f76f2fb5e47, 0x3ed251ce4fb2a63f, 0x3ed868d99b4492ed, 0x3ee04315e86e7f85] ++
  [0x3ee5ab07dd485429, 0x3eecdf0b555dc3fa, 0x3ef33c08b26416ff, 0x3ef9a0f170ca07ba,
   0x3f011301d0125b51, 0x3f06c012750bdabf, 0x3f0e502ee78b3ff6, 0x3f1431f5d950a897] ++
  [0x3f1ae89f995ad3ad, 0x3f21ed5022fcd91d, 0x3f27e2f336cf4e62, 0x3f2fd3c22b8f71f1,
   0x3f35342b569d4f82, 0x3f3c40ab5fffd07a, 0x3f42d285a6e4030b, 0x3f49145b0b91ffc6] ++
  [0x3f50b5586cf9890f, 0x3f56434634ccc320, 0x3f5da9e603db3285, 0x3f63c32dc313a8e5,
   0x3f6a5503b23e255d, 0x3f718af9388c8dea, 0x3f775feb564267c9, 0x3f7f252b376bba97] ++
  [0x3f84bfdad5362a27, 0x3f8ba5b030a1064a, 0x3f926b4565e27cdd, 0x3f988ac7d98a6699,
   0x3fa059b0d3158574, 0x3fa5c9268a5946b7, 0x3fad072d4a07897c, 0x3fb356c55f929ff1] ++
  [0x3fb9c49182a3f090, 0x3fc12abdc06c31cc, 0x3fc6dfb23c651a2f, 0x3fce7a51fbc74c83,
   0x3fd44e086061892d, 0x3fdb0e07298db666, 0x3fe2063b88628cd6, 0x3fe80427543e1a12] ++
  [0x3ff0000000000000, 0x3ff551a4ca5d920f, 0x3ffc67f12e57d14b, 0x4002ecafa93e2f56,
   0x40093737b0cdc5e5, 0x4010cc922b7247f7, 0x4016623882552225, 0x401dd321f301b460] ++
  [0x4023dea64c123422, 0x402a799e1330b358, 0x4031a35beb6fcb75, 0x403780694fde5d3f,
   0x403f50765b6e4540, 0x4044dcb299fddd0d, 0x404bcc1e904bc1d2, 0x405284dfe1f56381] ++
  [0x4058ace5422aa0db, 0x4060706b29ddf6de, 0x4065e76f15ad2148, 0x406d2f87080d89f2,
   0x407371a7373aa9cb, 0x4079e86319e32323, 0x4081429aaea92de0, 0x4086ff7df9519484] ++
  [0x408ea4afa2a490da, 0x40946a41ed1d0057, 0x409b33a2b84f15fb, 0x40a21f49917ddc96,
   0x40a82589994cce13, 0x40b0163da9fb3335, 0x40b56f4736b527da, 0x40bc8f6d9406e7b5] ++
  [0x40c306fe0a31b715, 0x40c95a44cbc8520f, 0x40d0e3ec32d3d1a2, 0x40d68155d44ca973,
   0x40ddfc97337b9b5f, 0x40e3fa4504ac801c, 0x40ea9e6b5579fdbf, 0x40f1bbe084045cd4] ++
  [0x40f7a11473eb0187, 0x40ff7bfdad9cbe14, 0x4104f9b2769d2ca7, 0x410bf2c25bd71e09,
   0x41129e9df51fdee1, 0x4118cf3216b5448c, 0x4120874518759bc8, 0x412605e1b976dc09] ++
  [0x412d5818dcfba487, 0x41338cae6d05d866, 0x413a0c667b5de565, 0x41415a98c8a58e51,
   0x41471f75e8ec5f74, 0x414ecf482d8e67f1, 0x415486a2b5c13cd0, 0x415b59728de5593a] ++
  [0x4162387a6e756238, 0x4168471a4623c7ad, 0x41702c9a3e778061, 0x41758d12d497c7fd,
   0x417cb720dcef9069, 0x41832170fc4cd831, 0x41897d829fde4e50, 0x0000000000000000]

/-- `DEQ_SCALE[x]` (R23). -/
def deqScale (x : BitVec 6) : F64 := deqScaleTable.getD x.toNat 0

/-- `QUANT_SCALE[x]` (R24). -/
def quantScale (x : BitVec 6) : F64 := quantScaleTable.getD x.toNat 0

/-- `SCALE_CONV[x]` (R26). -/
def scaleConv (x : BitVec 7) : F64 := scaleConvTable.getD x.toNat 0

/-- `f` is the binary64 nearest to `2^(p/128)`: the real number lies strictly between the midpoints to the
neighbours, said of 128th powers (R8 `rnd64`, R23, R24, R26). For normal `f` that is no power of two below. -/
def isNearestPow (f : F64) (p : Int) : Bool :=
  -- with f = s · 2^-1074 and u half a unit in the last place of f: s ± u, everything times 2
  let u := 2 ^ (F64.magBits f / 2 ^ 52 - 1)
  let lo := 2 * F64.scaledMag f - u
  let hi := 2 * F64.scaledMag f + u
  let t := 2 ^ (p + 1075 * 128).toNat
  !F64.sign f && decide (lo ^ 128 < t) && decide (t < hi ^ 128)

end Sys2Proof.Tables
end

