-- ==== Sys2Proof/Machine/Code.lean ====
section
/-! DEFINITION. The variable-length code of the quantized coefficients (R97 to R101 of spec/30_encoding.md) and
its decoding and encoding (R131, R137 of spec/41_quantizer.md). -/

namespace Sys2Proof.Code

/-- The `n` low bits of `v`, most significant first. -/
def bitsOf (n v : Nat) : List Bool := (List.range n).map fun i => v.testBit (n - 1 - i)

/-- A bit string as an unsigned number, first bit most significant (R68, R138). -/
def natOf (w : List Bool) : Nat := w.foldl (fun acc b => 2 * acc + b.toNat) 0

/-- The integers `-q .. q` in ascending order (R22, R98 W3, R135). -/
def interval (q : Nat) : List Int := (List.range (2 * q + 1)).map fun (i : Nat) => (i : Int) - q

/-- A row of R99: a word of `n` bits, written as a binary number, and its value. -/
def row (n w : Nat) (v : Int) : CodeRow := ⟨bitsOf n w, v⟩

/-- The reference `CODE[r]`, r = 1 to 7 (R99). -/
def referenceSmall : Nat → List CodeRow
  | 1 => [row 1 0b0 0, row 2 0b10 1, row 2 0b11 (-1)]
  | 2 => [row 2 0b00 0, row 2 0b01 1, row 2 0b10 (-1), row 3 0b110 2, row 3 0b111 (-2)]
  | 3 => [row 2 0b00 0, row 3 0b010 1, row 3 0b011 (-1), row 3 0b100 2, row 3 0b101 (-2), row 3 0b110 3, row 3 0b111 (-3)]
  | 4 => [row 3 0b000 0, row 3 0b001 1, row 3 0b010 (-1), row 3 0b011 2, row 3 0b100 (-2), row 3 0b101 3,
      row 3 0b110 (-3), row 4 0b1110 4, row 4 0b1111 (-4)]
  | 5 => [row 3 0b000 0, row 3 0b001 1, row 3 0b010 (-1), row 3 0b011 2, row 3 0b100 (-2), row 4 0b1010 3,
      row 4 0b1011 (-3), row 4 0b1100 4, row 4 0b1101 (-4), row 4 0b1110 5, row 4 0b1111 (-5)]
  | 6 => [row 3 0b000 0, row 3 0b001 1, row 3 0b010 (-1), row 4 0b0110 2, row 4 0b0111 (-2), row 4 0b1000 3,
      row 4 0b1001 (-3), row 4 0b1010 4, row 4 0b1011 (-4), row 4 0b1100 5, row 4 0b1101 (-5), row 4 0b1110 6,
      row 4 0b1111 (-6)]
  | 7 => [row 3 0b000 0, row 4 0b0010 1, row 4 0b0011 (-1), row 4 0b0100 2, row 4 0b0101 (-2), row 4 0b0110 3,
      row 4 0b0111 (-3), row 4 0b1000 4, row 4 0b1001 (-4), row 4 0b1010 5, row 4 0b1011 (-5), row 4 0b1100 6,
      row 4 0b1101 (-6), row 4 0b1110 7, row 4 0b1111 (-7)]
  | _ => []

/-- The two rows of magnitude `v > 0` in `m` bits: the magnitude in m - 1 bits, then the sign (R100). -/
def signedRows (m v : Nat) : List CodeRow := [row m (2 * v) v, row m (2 * v + 1) (-v)]

/-- The reference `CODE[r]` for `m` = `MAXBITS[r]` and range `q`, r = 8 to 15 (R100). -/
def referenceLarge (m q : Nat) : List CodeRow :=
  row (m - 1) 0 0 :: (List.range q).flatMap fun i => signedRows m (i + 1)

/-- The reference instance of `CODE[r]` (R99, R100); `MAXBITS[r]` = r - 3 for r = 8 to 15. -/
def reference (r : Nat) : List CodeRow :=
  if r < 8 then referenceSmall r else if r < 16 then referenceLarge (r - 3) (Tables.qRange r) else []

/-- The rows of `CODE[r]` of an instance; no row for r = 0 (R28). -/
def rows (code : CodeTable) (r : Nat) : List CodeRow :=
  match code with
  | .reference => reference r
  | .given tables => if r = 0 then [] else tables.getD (r - 1) []

/-- `MAXBITS[r]`: the greatest length in `CODE[r]`, 0 for r = 0 (R28, W4 of R98). -/
def maxBits (code : CodeTable) (r : Nat) : Nat := ((rows code r).map (·.word.length)).foldl max 0

/-- The outcome of reading one code word (R131). -/
inductive VlcResult where
  | found (value : Int) (length : Nat)
  | overrun
deriving DecidableEq, Repr

/-- The row of `table` whose word is `w`, if any (R131). -/
def wordRow (table : List CodeRow) (w : List Bool) : Option CodeRow := table.find? fun x => x.word == w

/-- The loop of `VlcDecode` with `rem` bits left before the limit and the bits `w` read so far (R131). -/
def vlcLoop (table : List CodeRow) (bit : Nat → Bool) (p : Nat) : Nat → List Bool → VlcResult
  | 0, w =>
    match wordRow table w with
    | some x => .found x.value w.length
    | none => .overrun
  | rem + 1, w =>
    match wordRow table w with
    | some x => .found x.value w.length
    | none => vlcLoop table bit p rem (w ++ [bit (p + w.length)])

/-- `VlcDecode(r, p, lim)`: reads one code word from bit `p` without passing bit `lim` (R131). -/
def vlcDecode (table : List CodeRow) (bit : Nat → Bool) (p lim : Nat) : VlcResult :=
  vlcLoop table bit p (lim - p) []

/-- `VlcEncode(r, v)`: the word of the row with value `v` (R137). W3 makes it exist and be unique for
`|v| ≤ QRANGE[r]`; without a row the answer is the empty word (log 19). -/
def vlcEncode (table : List CodeRow) (v : Int) : List Bool :=
  match table.find? fun x => x.value == v with
  | some x => x.word
  | none => []

end Sys2Proof.Code
end

