-- ==== Sys2Proof/Syntax.lean ====
section
/-! DEFINITION. The fourteen commands (R92 of spec/30_encoding.md, spec/opcode_table.json), one constructor each. -/

namespace Sys2Proof

/-- A decoded command (R90, R91). Format C commands carry the channel operand. -/
inductive Instr where
  /-- R121. -/
  | nop
  /-- R122. -/
  | start
  /-- R123. -/
  | stop
  /-- R124. -/
  | abort
  /-- R132. -/
  | unpack (c : ChanIx)
  /-- R134. -/
  | deq (c : ChanIx)
  /-- R136. -/
  | quant (c : ChanIx)
  /-- R138. -/
  | pack (c : ChanIx)
  /-- R151; the operand is the secondary channel. -/
  | isdec (s : ChanIx)
  /-- R153; the operand is the secondary channel. -/
  | isenc (s : ChanIx)
  /-- R164. -/
  | load (c : ChanIx)
  /-- R165. -/
  | imdct (c : ChanIx)
  /-- R166. -/
  | mdct (c : ChanIx)
  /-- R167. -/
  | rel (c : ChanIx)
deriving DecidableEq, Repr

/-- The mnemonic as spec/opcode_table.json writes it (R102). -/
def Instr.mnemonic : Instr → String
  | .nop => "NOP"
  | .start => "START"
  | .stop => "STOP"
  | .abort => "ABORT"
  | .unpack _ => "UNPACK"
  | .deq _ => "DEQ"
  | .quant _ => "QUANT"
  | .pack _ => "PACK"
  | .isdec _ => "ISDEC"
  | .isenc _ => "ISENC"
  | .load _ => "LOAD"
  | .imdct _ => "IMDCT"
  | .mdct _ => "MDCT"
  | .rel _ => "REL"

/-- The channel operand of a format C command; `none` for format N (R90). -/
def Instr.operand : Instr → Option ChanIx
  | .nop => none
  | .start => none
  | .stop => none
  | .abort => none
  | .unpack c => some c
  | .deq c => some c
  | .quant c => some c
  | .pack c => some c
  | .isdec s => some s
  | .isenc s => some s
  | .load c => some c
  | .imdct c => some c
  | .mdct c => some c
  | .rel c => some c

/-- The command as one line of the notation of R102: `MNEMONIC` or `MNEMONIC c`, c in decimal. -/
def Instr.asm (i : Instr) : String :=
  match i.operand with
  | none => i.mnemonic
  | some c => i.mnemonic ++ " " ++ toString c.toNat

end Sys2Proof
end

