-- ==== Sys2Proof/WellFormed.lean ====
section
/-! DEFINITION. Well-formedness: which command words are legal (R93 of spec/30_encoding.md), when a command's
operand fits its field (R91), and which instances of the OPEN parameters the spec admits (R6, R27, R29, R98, R161). -/

namespace Sys2Proof

/-- A row of spec/opcode_table.json: a word is of the row when `word and mask = pattern` (R93). -/
structure OpRow where
  mnemonic : String
  mask     : Word
  pattern  : Word
deriving DecidableEq, Repr

/-- spec/opcode_table.json, R92. -/
def opRows : List OpRow :=
  [⟨"NOP", 0xFFFFFFFF, 0x00000000⟩, ⟨"START", 0xFFFFFFFF, 0x01000000⟩, ⟨"STOP", 0xFFFFFFFF, 0x02000000⟩,
   ⟨"ABORT", 0xFFFFFFFF, 0x03000000⟩] ++
  [⟨"UNPACK", 0xFFFFFFF0, 0x10000000⟩, ⟨"DEQ", 0xFFFFFFF0, 0x11000000⟩, ⟨"QUANT", 0xFFFFFFF0, 0x12000000⟩,
   ⟨"PACK", 0xFFFFFFF0, 0x13000000⟩] ++
  [⟨"ISDEC", 0xFFFFFFF0, 0x20000000⟩, ⟨"ISENC", 0xFFFFFFF0, 0x21000000⟩] ++
  [⟨"LOAD", 0xFFFFFFF0, 0x30000000⟩, ⟨"IMDCT", 0xFFFFFFF0, 0x31000000⟩, ⟨"MDCT", 0xFFFFFFF0, 0x32000000⟩,
   ⟨"REL", 0xFFFFFFF0, 0x33000000⟩]

/-- "a word is legal exactly when `word and mask` equals the match value of one row" (R93). -/
def legalWord (w : Word) : Bool := opRows.any fun r => w &&& r.mask == r.pattern

/-- The operand fits its 4-bit field (R91). The type of the operand carries the bound, so no term fails it. -/
def Instr.wf (i : Instr) : Bool :=
  match i.operand with
  | none => true
  | some c => decide (c.toNat < 16)

/-! ### Code tables (R98) -/

/-- W1: no word is empty and none is a prefix of another row's word. -/
abbrev Code.W1 (table : List CodeRow) : Prop :=
  (∀ x ∈ table, x.word ≠ []) ∧ table.Pairwise fun x y => ¬ x.word <+: y.word ∧ ¬ y.word <+: x.word

/-- W2 (complete): the sum of `2^(-length)` is 1, said of `2^m` times it for the greatest length `m`. -/
abbrev Code.W2 (table : List CodeRow) (m : Nat) : Prop :=
  (table.map fun x => 2 ^ (m - x.word.length)).sum = 2 ^ m

/-- W3: the values are exactly `-q .. q`, each on one row. -/
abbrev Code.W3 (table : List CodeRow) (q : Nat) : Prop := (table.map (·.value)).Perm (Code.interval q)

/-- W5: no word is longer than 32 bits. -/
abbrev Code.W5 (table : List CodeRow) : Prop := ∀ x ∈ table, x.word.length ≤ 32

/-- W1, W2, W3 and W5 of `CODE[r]`; W4 is how `Code.maxBits` is defined. -/
abbrev Code.WfTable (code : CodeTable) (r : Nat) : Prop :=
  Code.W1 (Code.rows code r) ∧ Code.W2 (Code.rows code r) (Code.maxBits code r) ∧
  Code.W3 (Code.rows code r) (Tables.qRange r) ∧ Code.W5 (Code.rows code r)

/-- `CODE` satisfies W1 to W5 for every r in 1..15 (R98). -/
abbrev Code.Wf (code : CodeTable) : Prop := ∀ r ∈ List.range' 1 15, Code.WfTable code r

/-! ### Instances (R6) -/

/-- `B` is even and lies in 2..2048 (R6). -/
abbrev Cfg.BlockSizeOk (cfg : Cfg) : Prop := cfg.blockSize % 2 = 0 ∧ 2 ≤ cfg.blockSize ∧ cfg.blockSize ≤ 2048

/-- `FB_CAP` lies in 1..2^20 (R6). -/
abbrev Cfg.FbCapOk (cfg : Cfg) : Prop := 1 ≤ cfg.fbCap ∧ cfg.fbCap ≤ 2 ^ 20

/-- `S_INV` and `S_FWD` are finite and not zero (R161, R162). -/
abbrev Cfg.ScalesOk (cfg : Cfg) : Prop :=
  F64.finite cfg.sInv = true ∧ F64.isZero cfg.sInv = false ∧
  F64.finite cfg.sFwd = true ∧ F64.isZero cfg.sFwd = false

/-- Sixteen entries, finite and positive for r ≥ 1 (R27). -/
abbrev Cfg.DeqNormOk (cfg : Cfg) : Prop :=
  cfg.deqNorm.length = 16 ∧
  (cfg.deqNorm.drop 1).all (fun x => F64.finite x && !F64.sign x && !F64.isZero x) = true

/-- 2B entries, symmetric, each finite and a binary32 value (R29). -/
abbrev Cfg.WindowOk (cfg : Cfg) : Prop :=
  cfg.window.length = 2 * cfg.blockSize ∧ cfg.window.reverse = cfg.window ∧
  cfg.window.all (fun x => F64.finite x && F64.isBinary32 x) = true

/-- The constraints of R6 on an instance. The tables are constrained when `TABLES_OK` is true (R31). -/
abbrev Cfg.Wf (cfg : Cfg) : Prop :=
  cfg.BlockSizeOk ∧ cfg.FbCapOk ∧ cfg.ScalesOk ∧
  (cfg.tablesOk = true → cfg.DeqNormOk ∧ cfg.WindowOk ∧ Code.Wf cfg.code)

end Sys2Proof
end

