-- ==== Sys2Proof/Decode.lean ====
section
/-! DEFINITION. Decoding a command word (R90 to R95 of spec/30_encoding.md), and the encoder. -/

namespace Sys2Proof

/-- Why a word is illegal (R93). -/
inductive DecodeError where
  /-- The opcode byte is not in the map of R92. -/
  | reservedOpcode
  /-- Bits 23:0 of format N or 23:4 of format C are not all 0. -/
  | mustBeZero
deriving DecidableEq, Repr

/-- `opcode` = word[31:24] (R91). -/
def opcodeOf (w : Word) : BitVec 8 := w.extractLsb' 24 8

/-- Format N: word[23:0] must be zero (R90). -/
def decodeN (w : Word) (i : Instr) : Except DecodeError Instr :=
  if w.extractLsb' 0 24 = 0 then .ok i else .error .mustBeZero

/-- Format C: word[23:4] must be zero, c = word[3:0] (R90). -/
def decodeC (w : Word) (f : ChanIx → Instr) : Except DecodeError Instr :=
  if w.extractLsb' 4 20 = 0 then .ok (f (w.extractLsb' 0 4)) else .error .mustBeZero

/-- `Decode(word)` (R95): total, and every word it does not know is rejected by name. -/
def decode (w : Word) : Except DecodeError Instr :=
  match (opcodeOf w).toNat with
  | 0x00 => decodeN w .nop
  | 0x01 => decodeN w .start
  | 0x02 => decodeN w .stop
  | 0x03 => decodeN w .abort
  | 0x10 => decodeC w .unpack
  | 0x11 => decodeC w .deq
  | 0x12 => decodeC w .quant
  | 0x13 => decodeC w .pack
  | 0x20 => decodeC w .isdec
  | 0x21 => decodeC w .isenc
  | 0x30 => decodeC w .load
  | 0x31 => decodeC w .imdct
  | 0x32 => decodeC w .mdct
  | 0x33 => decodeC w .rel
  | _ => .error .reservedOpcode

/-- The opcode byte of a command (R92). -/
def opcode : Instr → BitVec 8
  | .nop => 0x00
  | .start => 0x01
  | .stop => 0x02
  | .abort => 0x03
  | .unpack _ => 0x10
  | .deq _ => 0x11
  | .quant _ => 0x12
  | .pack _ => 0x13
  | .isdec _ => 0x20
  | .isenc _ => 0x21
  | .load _ => 0x30
  | .imdct _ => 0x31
  | .mdct _ => 0x32
  | .rel _ => 0x33

/-- The command word (R90, R92): opcode in 31:24, the channel, if any, in 3:0, zeros between. -/
def encode (i : Instr) : Word :=
  match i.operand with
  | none => opcode i ++ (0 : BitVec 24)
  | some c => opcode i ++ (0 : BitVec 20) ++ c

/-- The instruction the decoder reads from the first `nbits` bits of `w`, bit 0 least significant, the bits
above them 0. -/
def decodeTableWord (nbits w : Nat) : Option Instr :=
  match decode (BitVec.ofNat 32 (w % 2 ^ nbits)) with
  | .ok i => some i
  | .error _ => none

end Sys2Proof
end

