-- ==== Sys2Proof/Machine/Numerics.lean ====
section
/-! DEFINITION. The numerics record `NUM` = (`mul`, `add`, `imdct`, `mdct`) and `ISENC_CHOICE` (R161 to R163 of
spec/43_transform.md, R152 of spec/42_stereo.md). `none` is an element the spec leaves unspecified: its exact
value lies outside ±FMAX (R163, U4), or it is a NaN or computed from such an element. -/

namespace Sys2Proof.Arith

/-- Whether a zero product of another instance, with the sign of `a` flipped off, is -0 (U5, log 10). A zero times a positive
number has one sign in all of an instance, so that `Deq(0, sf, r)` = +0 for every `DEQ_NORM` (R133). -/
def zeroProductNeg (id : Nat) (a b : F64) : Bool :=
  if F64.isZero a && !F64.isZero b && !F64.sign b then Config.otherZeroFlip id
  else Config.otherZeroNeg id (F64.abs a) b

/-- `NUM.mul` (R163). For an instance other than the reference, N2, the sign part of N4 and R133's `Deq(0, sf, r)` = +0 hold
by construction (log 10). -/
def mul (num : Numerics) (a b : F64) : Option F64 :=
  match num with
  | .reference => F64.refMul a b
  | .other id =>
    if F64.finite a && F64.finite b &&
        decide (F64.scaledMag a * F64.scaledMag b ≤ F64.maxScaled * 2 ^ 1074) then
      if F64.isZero a || F64.isZero b then some (F64.zeroOf (F64.sign a != zeroProductNeg id a b))
      else if F64.sign a then some (F64.neg (Config.otherMul id (F64.abs a) b))
      else some (Config.otherMul id (F64.abs a) b)
    else none

/-- `NUM.add` (R163). For an instance other than the reference, N2 holds by construction (log 10). -/
def add (num : Numerics) (a b : F64) : Option F64 :=
  match num with
  | .reference => F64.refAdd a b
  | .other id =>
    if F64.finite a && F64.finite b && decide ((F64.scaled a + F64.scaled b).natAbs ≤ F64.maxScaled) then
      if F64.isZero a && F64.isZero b then
        some (F64.zeroOf (F64.sign a && F64.sign b && Config.otherZeroNeg id a b))
      else if F64.isZero a then some b
      else if F64.isZero b then some a
      else if F64.scaled a + F64.scaled b = 0 then some (F64.zeroOf (Config.otherZeroNeg id a b))
      else some (Config.otherAdd id a b)
    else none

/-- The elements of a list, when every one is specified. -/
def allSome : List (Option F64) → Option (List F64)
  | [] => some []
  | none :: _ => none
  | some x :: rest => (allSome rest).map (x :: ·)

/-- The multiple of π in the kernels, over 4B (R161, R162). -/
def kernelAngle (b n k : Nat) : Nat := (2 * n + 1 + b) * (2 * k + 1)

/-- `COS[n][k]` for block size `b` (R163). -/
def cosEntry (b n k : Nat) : F64 := F64.cosPi (kernelAngle b n k) (4 * b)

/-- The sequential sum of the rounded products, from `acc`, ascending (R163, `NUM_REF`). -/
def dotAcc : List F64 → List F64 → F64 → Option F64
  | [], _, acc => some acc
  | _, [], acc => some acc
  | x :: xs, y :: ys, acc => (F64.ieeeMul x y).bind fun p => (F64.ieeeAdd acc p).bind fun a => dotAcc xs ys a

/-! ### Whether the exact value of a kernel element lies within ±FMAX (R163, U4). Log 9. -/

/-- `Σ |val(x)| · 2^1074`. -/
def absSum (xs : List F64) : Nat := (xs.map F64.scaledMag).sum

/-- `Σ val(x) · cos(π · angle / d)` in fixed point with `p` fraction bits, times 2^1074. -/
def fixedDot (p pi d : Nat) (xs : List F64) (angles : List Nat) : Int :=
  ((List.zip xs angles).map fun xa => F64.scaled xa.1 * F64.cosAt p pi xa.2 d).sum

/-- Whether `|scale · Σ val(x) · cos(π · angle / d)|` is at most FMAX, as far as `p` fraction bits can tell. -/
def rangeAt (p d : Nat) (scale : F64) (xs : List F64) (angles : List Nat) : Option Bool :=
  let value := (F64.scaled scale * fixedDot p (F64.piFixed p) d xs angles).natAbs
  let slack := F64.scaledMag scale * absSum xs * (64 * p)
  let bound := F64.maxScaled * 2 ^ 1074 * 2 ^ p
  if value + slack ≤ bound then some true
  else if bound + slack < value then some false
  else none

/-- A precision at which `rangeAt` always tells. The exact sum minus ±FMAX, times 2^2149, is an algebraic integer of degree
at most 2B that is never 0 and whose conjugates are at most `m`, so it is at least `m^(1 - 2B)`. -/
def rangePrecision (b : Nat) (scale : F64) (xs : List F64) : Nat :=
  let m := 2 * (F64.maxScaled * 2 ^ 1074 + F64.scaledMag scale * absSum xs)
  2 * b * (m.log2 + 1) + 64

/-- Whether the exact value of a kernel element for block size `b` lies within ±FMAX (R163). As `|cos| ≤ 1`, a small
`|scale| · Σ|x|`, which ordinary data have, settles it; else 256 fraction bits do, or `rangePrecision`. -/
def withinRange (b : Nat) (scale : F64) (xs : List F64) (angles : List Nat) : Bool :=
  if F64.scaledMag scale * absSum xs ≤ F64.maxScaled * 2 ^ 1074 then true
  else
    match rangeAt 256 (4 * b) scale xs angles with
    | some known => known
    | none => (rangeAt (rangePrecision b scale xs) (4 * b) scale xs angles).getD true

/-- One element of a kernel (R163): unspecified where its exact value lies outside ±FMAX, else `value`. -/
def element (b : Nat) (scale : F64) (xs : List F64) (angles : List Nat) (value : Option F64) : Option F64 :=
  if xs.all F64.finite && withinRange b scale xs angles then value else none

/-- The computation of one element by `NUM_REF.imdct` or `NUM_REF.mdct`: the scale times the sequential sum (R163). -/
def refElement (scale : F64) (xs cosines : List F64) : Option F64 :=
  (dotAcc xs cosines 0).bind fun acc => F64.ieeeMul scale acc

/-- One element of another instance's kernel: +0 for a vector of zeros (N2), else the instance's function (log 10). -/
def otherElement (xs : List F64) (value : F64) : Option F64 :=
  if xs.all F64.isZero then some 0 else some value

/-- `NUM.imdct(X)`: 2B elements (R161, R163). -/
def imdct (cfg : Cfg) (xs : List F64) : List (Option F64) :=
  (List.range (2 * cfg.blockSize)).map fun n =>
    let lines := List.range cfg.blockSize
    element cfg.blockSize cfg.sInv xs (lines.map (kernelAngle cfg.blockSize n)) <|
      match cfg.numerics with
      | .reference => refElement cfg.sInv xs (lines.map (cosEntry cfg.blockSize n))
      | .other id => otherElement xs (Config.otherImdct id xs n)

/-- `NUM.mdct(zw)`: B elements (R162, R163). -/
def mdct (cfg : Cfg) (zw : List F64) : List (Option F64) :=
  (List.range cfg.blockSize).map fun k =>
    let samples := List.range (2 * cfg.blockSize)
    element cfg.blockSize cfg.sFwd zw (samples.map fun n => kernelAngle cfg.blockSize n k) <|
      match cfg.numerics with
      | .reference => refElement cfg.sFwd zw (samples.map fun n => cosEntry cfg.blockSize n k)
      | .other id => otherElement zw (Config.otherMdct id zw k)

/-- `d[i]` of `ISENC_CHOICE_REF`, exact, times 2^4296 (R152). -/
def isencDistance (p s : List F64) (i : Nat) : Nat :=
  ((List.zip p s).map fun ps =>
    ((F64.scaledMag ps.2 * 2 ^ 1074 : Int)
      - (F64.scaledMag (Tables.iRatio (BitVec.ofNat 4 i)) * F64.scaledMag ps.1 : Int)).natAbs ^ 2).sum

/-- The smallest index of 0..15 that minimises `d` (R152). -/
def argMin (d : Nat → Nat) : Nat :=
  (List.range 16).foldl (fun best i => if d i < d best then i else best) 0

/-- `ISENC_CHOICE(P, S)` (R152). -/
def isencChoice (choice : IsencChoice) (p s : List F64) : BitVec 4 :=
  match choice with
  | .reference => BitVec.ofNat 4 (argMin (isencDistance p s))
  | .other id => Config.otherIsenc id p s

end Sys2Proof.Arith
end

