-- ==== Sys2Proof/Machine/Reference.lean ====
section
/-! DEFINITION. Instances of the OPEN parameters: the reference instance of R6 of spec/00_scope.md that
`State.reset` stands on, and the test instance of section 1 of spec/95_test_vectors.md. -/

namespace Sys2Proof

/-- Entry `n` of the window of the reference instance: symmetric, finite and binary32 as R29 asks, otherwise
free, since the source gives no value (log 14). -/
def Cfg.freeWindow (b : Nat) : List F64 :=
  (List.range (2 * b)).map fun n => F64.ofBinary32 (Config.windowWord (min n (2 * b - 1 - n)))

/-- The reference instance (R6): B = 128, tables good, the reference tables, scales and numerics. `FB_CAP` has
no reference value; the largest legal one is taken (log 14). -/
def Cfg.reference : Cfg where
  blockSize := 128
  fbCap := 2 ^ 20
  tablesOk := true
  deqNorm := Tables.deqNormReference
  code := .reference
  window := Cfg.freeWindow 128
  sInv := F64.sqrtTwoOver 128
  sFwd := F64.sqrtTwoOver 128
  numerics := .reference
  isenc := .reference

/-- The labelled sine test window, `rnd32(sin(π (n + 1/2) / (2B)))` (section 1 of spec/95_test_vectors.md); it
is not the HCA window. The sine is the cosine of the complement. -/
def Cfg.testWindow (b : Nat) : List F64 :=
  (List.range (2 * b)).map fun n =>
    let m := min n (2 * b - 1 - n)
    F64.ofRat32 (F64.cosQuarter (2 * b - (2 * m + 1)) (4 * b)) (2 ^ F64.fixBits)

/-- The test instance for block size `b` and frame buffer capacity `cap`. -/
def Cfg.test (b cap : Nat) : Cfg where
  blockSize := b
  fbCap := cap
  tablesOk := true
  deqNorm := Tables.deqNormReference
  code := .reference
  window := Cfg.testWindow b
  sInv := F64.sqrtTwoOver b
  sFwd := F64.sqrtTwoOver b
  numerics := .reference
  isenc := .reference

end Sys2Proof
end

