-- ==== Sys2Proof/Machine/State.lean ====
section
/-! DEFINITION. The state of one HSB instance (spec/10_state.md), as plain data, and its value after hard reset. -/

namespace Sys2Proof.Machine

/-- `FSM[c]` (R48, R160). The value 3 of `CHSTAT` bits 1:0 never occurs (R55), so it has no name. -/
inductive Fsm where
  | idle
  | loaded
  | transformed
deriving DecidableEq, Repr

/-- The causes of R180, in the order of their codes 0 to 8. Codes 9 to 255 never occur. -/
inductive Cause where
  | success
  | initializationError
  | illegalCommand
  | sequenceError
  | invalidConfiguration
  | unsupportedMode
  | bitstreamOverrun
  | rangeError
  | nonFinite
deriving DecidableEq, Repr

/-- The contents of `RESP` (R53): `CODE` as a cause, and `INFO`. Bits 15:8 are not stored: they read 0. -/
structure Resp where
  cause : Cause
  info  : BitVec 16
deriving DecidableEq, Repr

/-- One channel slot: the buffers of R33 to R38, each of B elements, and the channel's registers. -/
structure Chan where
  /-- `SF[c]` (R33). -/
  sf     : List (BitVec 6)
  /-- `RES[c]` (R34). -/
  res    : List (BitVec 4)
  /-- `Q[c]` (R35), two's complement. -/
  q      : List (BitVec 16)
  /-- `X[c]` (R36). -/
  x      : List F64
  /-- `T[c]` (R37). -/
  t      : List F64
  /-- `OV[c]` (R38). -/
  ov     : List F64
  /-- `CPL[c]` (R43). -/
  cpl    : BitVec 8
  /-- `INTENS[c]` (R46). -/
  intens : BitVec 4
  /-- `FSM[c]` (R48). -/
  fsm    : Fsm
  /-- `QVALID[c]` (R49). -/
  qvalid : Bool
deriving DecidableEq, Repr

/-- What can happen at the instance from outside (R63, R64, R200): a host access, or a hard reset. -/
inductive HostAccess where
  | read (loc : Loc)
  | write (loc : Loc) (data : PortWord)
  | hardReset
deriving DecidableEq, Repr

/-- The frame buffer's memory: the bytes written since hard reset, addresses strictly rising (log 5). -/
abbrev Memory := List Host.Cell

/-- The state of an instance. -/
structure State where
  /-- The parameters of the instance (R6, R20): no step changes them (log 1). -/
  cfg      : Cfg
  /-- The sixteen channel slots (R32). -/
  chans    : Vector Chan 16
  /-- `FB` (R39). -/
  fb       : Memory
  /-- The draw that unwritten bytes of `FB` come from (R56; the model's own field, log 5). -/
  fbDraw   : Nat
  /-- `CFG_NCH` (R40). -/
  cfgNch   : BitVec 5
  /-- `CFG_BANDS` (R41). -/
  cfgBands : BitVec 12
  /-- `CFG_DIR` (R42): 0 decode, 1 encode. -/
  cfgDir   : BitVec 1
  /-- `CPLMODE` (R45). -/
  cplMode  : BitVec 4
  /-- `BC_POS` (R47). -/
  bcPos    : BitVec 24
  /-- `BC_LIMIT` (R47). -/
  bcLimit  : BitVec 24
  /-- `RUN` (R50). -/
  run      : Bool
  /-- `CMD` (R52). -/
  cmd      : Word
  /-- `RESP` (R53). -/
  resp     : Resp
  /-- `STATUS` (R54). -/
  status   : BitVec 16
  /-- The value the last host read returned (R63; the model's own field, log 3). -/
  portData : PortWord
  /-- The host accesses still to come, the next one first (R73, R209; the model's own field, log 2). -/
  pending  : List HostAccess
  /-- The number of the next free draw (R9; the model's own field, log 6). -/
  draws    : Nat
deriving DecidableEq, Repr

/-- Reasons for which the machine stops: none. No command and no access stops an HSB ("There is no double-fault
state, no lock-up state, no halt", R189); a faulting command answers in `RESP` and the machine goes on (R183). -/
inductive Fault where
deriving DecidableEq, Repr

/-- Reasons for which the model gives a step no meaning. -/
inductive Refusal where
  /-- Raised by an arm of `exec` whose instruction has no meaning yet. Safe: the run stops. No arm raises it. -/
  | notModelled (mnemonic : String)
deriving DecidableEq, Repr

/-- A channel slot after hard reset (R56, R200): registers 0, Idle, and every buffer element a free draw (log 4). -/
def Chan.powerOn (b draw c : Nat) : Chan where
  sf := (List.range b).map fun i => Config.freeSf draw c i
  res := (List.range b).map fun i => Config.freeRes draw c i
  q := (List.range b).map fun i => Config.freeQ draw c i
  x := (List.range b).map fun k => Config.freeF64 draw .x c k
  t := (List.range b).map fun n => Config.freeF64 draw .t c n
  ov := (List.range b).map fun n => Config.freeF64 draw .ov c n
  cpl := 0
  intens := 0
  fsm := .idle
  qvalid := false

/-- An instance with parameters `cfg` after hard reset (R56, R200), its free values being draw number `draw`, with
the host accesses `pending` still to come. -/
def State.powerOn (cfg : Cfg) (draw : Nat) (pending : List HostAccess) : State where
  cfg := cfg
  chans := Vector.ofFn fun c => Chan.powerOn cfg.blockSize draw c.val
  fb := []
  fbDraw := draw
  cfgNch := 0
  cfgBands := 0
  cfgDir := 0
  cplMode := 0
  bcPos := 0
  bcLimit := 0
  run := false
  cmd := 0
  resp := ⟨.success, 0⟩
  status := 0
  portData := 0
  pending := pending
  draws := draw + 1

/-- The machine right after hard reset (R56, R200), no host access pending: the reference instance (log 14). -/
def State.reset : State := State.powerOn Cfg.reference 0 []

end Sys2Proof.Machine
end

