-- ==== Sys2Proof/Machine/Ops.lean ====
section
/-! DEFINITION. The named operations over channel slots and the frame buffer, ending a command, and taking a
fault. There is no return from a fault (R185 of spec/60_exceptions.md): nothing is saved, so nothing is restored. -/

namespace Sys2Proof.Machine

/-! ### Channel slots -/

/-- Slot `c` (R32). -/
def State.chan (s : State) (c : ChanIx) : Chan := s.chans[c.toNat]'c.isLt

/-- The state with slot `c` replaced. -/
def State.setChan (s : State) (c : ChanIx) (k : Chan) : State := { s with chans := s.chans.set c.toNat k c.isLt }

/-- The state with every slot changed by `f` (for "for c in 0 .. 15", R122 to R124). -/
def State.mapChans (s : State) (f : Chan → Chan) : State :=
  { s with chans := Vector.ofFn fun i => f s.chans[i] }

/-- `B` (R6). -/
def State.blockSize (s : State) : Nat := s.cfg.blockSize

/-! ### Registers -/

/-- `RUN <- b` (R50). -/
def State.setRun (s : State) (b : Bool) : State := { s with run := b }

/-- `BC_POS <- p` (R47). -/
def State.setBcPos (s : State) (p : Nat) : State := { s with bcPos := BitVec.ofNat 24 p }

/-- `CMD <- w` (R52). -/
def State.setCmd (s : State) (w : Word) : State := { s with cmd := w }

/-- The value a host read returns (R63; log 3). -/
def State.setPortData (s : State) (d : PortWord) : State := { s with portData := d }

/-- The host accesses still to come (R73; log 2). -/
def State.setPending (s : State) (rest : List HostAccess) : State := { s with pending := rest }

/-! ### The frame buffer -/

/-- The byte written last at an address since hard reset, if any. -/
def Memory.find (m : Memory) (a : Nat) : Option Byte :=
  match m with
  | [] => none
  | (k, b) :: rest => if k = a then some b else Memory.find rest a

/-- The memory with one byte written: one cell per address, addresses strictly rising. -/
def Memory.write (m : Memory) (a : Nat) (b : Byte) : Memory :=
  match m with
  | [] => [(a, b)]
  | (k, v) :: rest =>
    if a < k then (a, b) :: (k, v) :: rest
    else if a = k then (a, b) :: rest
    else (k, v) :: Memory.write rest a b

/-- The canonical form: addresses strictly rising. An unlisted address reads as no written byte at all, which no
entry equals. -/
def Memory.wf (m : Memory) : Bool := decide (m.Pairwise fun x y => x.1 < y.1)

/-- Every listed address exists in a frame buffer of `cap` bytes (R39). -/
def Memory.within (m : Memory) (cap : Nat) : Bool := m.all fun x => decide (x.1 < cap)

/-- `FB[i]` (R39): the byte last written, else the byte hard reset left there, a free draw (R56, U1). -/
def State.fbByte (s : State) (i : Nat) : Byte := (s.fb.find i).getD (Config.freeByte s.fbDraw i)

/-- `FB[i] <- b` (R39). -/
def State.setFbByte (s : State) (i : Nat) (b : Byte) : State := { s with fb := s.fb.write i b }

/-! ### The end of a command -/

/-- Success: `RESP.CODE <- 0 ; RESP.INFO <- 0` (R120). -/
def State.complete (s : State) : State := { s with resp := ⟨.success, 0⟩ }

/-- The code of a cause (R180). -/
def Cause.code : Cause → BitVec 8
  | .success => 0
  | .initializationError => 1
  | .illegalCommand => 2
  | .sequenceError => 3
  | .invalidConfiguration => 4
  | .unsupportedMode => 5
  | .bitstreamOverrun => 6
  | .rangeError => 7
  | .nonFinite => 8

/-- The sticky bit `STATUS[code]` of a cause (R54, R180). -/
def Cause.statusBit (k : Cause) : BitVec 16 := 1#16 <<< k.code.toNat

/-- TAKING A FAULT, `raise(code, info)` (R120, R183): `RESP` gets the cause and the information value, the sticky bit
of the cause is set in `STATUS`, and the command ends. Nothing is saved and nothing else changes (R184). -/
def State.raise (s : State) (r : Resp) : State :=
  { s with resp := r, status := s.status ||| r.cause.statusBit }

/-- A refused host access sets `STATUS.ACCERR`, bit 15, and nothing else (R65). -/
def State.accessError (s : State) : State := { s with status := s.status ||| 0x8000#16 }

/-- One free draw made: the next one has another number (log 6). -/
def State.drawn (s : State) : State := { s with draws := s.draws + 1 }

/-- Hard reset (R56, R200): the parameters stay, the host's further accesses still come, everything else is as after
power-on, with a new draw. -/
def State.hardReset (s : State) : State := State.powerOn s.cfg s.draws s.pending

end Sys2Proof.Machine
end

