-- ==== Sys2Proof/Machine/Flags.lean ====
section
/-! DEFINITION. The status words of R53 to R55 as the host reads them, the writing of `STATUS`, and the checks
that precede every command's effect, in the order of R182 of spec/60_exceptions.md. -/

namespace Sys2Proof.Machine

/-! ### Status words -/

/-- `FSM[c]` as `CHSTAT` shows it (R55). -/
def Fsm.bits : Fsm → BitVec 2
  | .idle => 0
  | .loaded => 1
  | .transformed => 2

/-- `RESP` as a word: INFO in 31:16, 0 in 15:8, CODE in 7:0 (R53). -/
def Resp.word (r : Resp) : Word := r.info ++ (0 : BitVec 8) ++ r.cause.code

/-- The bits of `STATUS` that exist: 1 to 8 and 15 (R54). -/
def statusMask : BitVec 16 := 0x81FE

/-- `STATE`: bit 0 `RUN`, bit 1 `TABLES_OK` (R55). -/
def State.stateWord (s : State) : BitVec 2 := BitVec.ofBool s.cfg.tablesOk ++ BitVec.ofBool s.run

/-- `CHSTAT[c]`: bits 1:0 `FSM[c]`, bit 2 `QVALID[c]` (R55). -/
def Chan.chstat (k : Chan) : BitVec 3 := BitVec.ofBool k.qvalid ++ k.fsm.bits

/-- The write to `STATUS`: one clears, zero leaves (R54, R64). -/
def State.clearStatus (s : State) (d : BitVec 16) : State := { s with status := s.status &&& ~~~d }

/-! ### Checks -/

/-- A check that raises `r` unless `ok`. -/
def require (ok : Bool) (r : Resp) : Option Resp := if ok then none else some r

/-- `SequenceError` with a sub-reason (R181). -/
def sequenceError (subReason : Nat) : Resp := ⟨.sequenceError, BitVec.ofNat 16 subReason⟩

/-- The lowest index below `n` at which `bad` holds: one scan in ascending order (R182 item 10). -/
def firstIndex (n : Nat) (bad : Nat → Bool) : Option Nat := (List.range n).find? bad

/-- A data check: raises `cause` with `INFO` = `offset` + the lowest index at which `bad` holds (R182 item 10). -/
def scan (n : Nat) (bad : Nat → Bool) (cause : Cause) (offset : Nat) : Option Resp :=
  (firstIndex n bad).map fun i => ⟨cause, BitVec.ofNat 16 (offset + i)⟩

/-- The first check that raises decides (R182). -/
def firstFault : List (Option Resp) → Option Resp
  | [] => none
  | some r :: _ => some r
  | none :: rest => firstFault rest

/-- `SequenceError` 1 of every command but `NOP` and `START`: needs `RUN` = 1 (R181). -/
def State.needRun (s : State) : Option Resp := require s.run (sequenceError 1)

/-- `SequenceError` 2: needs `CFG_DIR` = `dir` (R181). -/
def State.needDir (s : State) (dir : BitVec 1) : Option Resp := require (s.cfgDir == dir) (sequenceError 2)

/-- `SequenceError` 3: needs c < `CFG_NCH` (R181). -/
def State.needChan (s : State) (c : ChanIx) : Option Resp :=
  require (decide (c.toNat < s.cfgNch.toNat)) (sequenceError 3)

/-- A command (R120): `InitializationError` when the tables are bad (R190), else the first of its checks that raises,
else its effect `body`, which reads the state before the command. -/
def State.guarded (s : State) (checks : List (Option Resp)) (body : State → State) : State :=
  match firstFault (require s.cfg.tablesOk ⟨.initializationError, 0⟩ :: checks) with
  | some r => s.raise r
  | none => body s

/-- A command that succeeds when no check raises: its effect, then `RESP <- 0` (R120). -/
def State.command (s : State) (checks : List (Option Resp)) (body : State → State) :
    Host.Outcome State Fault Refusal :=
  .next (s.guarded checks fun s => (body s).complete)

end Sys2Proof.Machine
end

