-- ==== Sys2Proof/Machine/Operands.lean ====
section
/-! DEFINITION. What a command reads through its channel operand: coupling fields, effective resolutions, buffer
elements; the bit cursor (R68 to R71 of spec/20_memory.md); and the location map (R62). -/

namespace Sys2Proof.Machine

/-! ### Channel fields and elements -/

/-- `CPL[c].ROLE` = bits 1:0 (R43). -/
def Chan.role (k : Chan) : BitVec 2 := k.cpl.extractLsb' 0 2

/-- `CPL[c].PARTNER` = bits 7:4 (R43). -/
def Chan.partner (k : Chan) : ChanIx := k.cpl.extractLsb' 4 4

/-- `SF[c][b]` (R33). Beyond the buffer's end, which no command reaches, 0 (log 22). -/
def Chan.sfAt (k : Chan) (b : Nat) : BitVec 6 := k.sf.getD b 0

/-- `RES[c][b]` (R34). -/
def Chan.resAt (k : Chan) (b : Nat) : BitVec 4 := k.res.getD b 0

/-- `Q[c][b]` as a signed integer (R35). -/
def Chan.qAt (k : Chan) (b : Nat) : Int := (k.q.getD b 0).toInt

/-- `X[c][k]` (R36). -/
def Chan.xAt (k : Chan) (b : Nat) : F64 := k.x.getD b 0

/-- `T[c][n]` (R37). -/
def Chan.tAt (k : Chan) (n : Nat) : F64 := k.t.getD n 0

/-- `OV[c][n]` (R38). -/
def Chan.ovAt (k : Chan) (n : Nat) : F64 := k.ov.getD n 0

/-- `reff(c, b)` = 0 if `SF[c][b]` = 0, else `RES[c][b]` (R58). -/
def Chan.reff (k : Chan) (b : Nat) : Nat := if k.sfAt b = 0 then 0 else (k.resAt b).toNat

/-- `CFG_BANDS` as a number (R41). -/
def State.bands (s : State) : Nat := s.cfgBands.toNat

/-- `WINDOW[n]` (R29). -/
def State.windowAt (s : State) (n : Nat) : F64 := s.cfg.window.getD n 0

/-- `CODE[r]` (R28). -/
def State.codeRows (s : State) (r : Nat) : List CodeRow := Code.rows s.cfg.code r

/-- `SequenceError` 4: the operand must not be a secondary (R181). -/
def State.needNotSecondary (s : State) (c : ChanIx) : Option Resp :=
  require ((s.chan c).role != 2) (sequenceError 4)

/-- `SequenceError` 4: the operand must be a secondary (R181). -/
def State.needSecondary (s : State) (c : ChanIx) : Option Resp :=
  require ((s.chan c).role == 2) (sequenceError 4)

/-! ### The bit cursor -/

/-- `lim = min(BC_LIMIT, 8 · FB_CAP)` (R47, R71). -/
def State.bitLimit (s : State) : Nat := min s.bcLimit.toNat (8 * s.cfg.fbCap)

/-- Frame bit `p` (R68, R69): bit `7 - p mod 8` of byte `p div 8`. -/
def State.frameBit (s : State) (p : Nat) : Bool := (s.fbByte (p / 8)).getLsbD (7 - p % 8)

/-- `BitRead(p, n)` (R69). -/
def State.bitRead (s : State) (p n : Nat) : Nat := Code.natOf ((List.range n).map fun i => s.frameBit (p + i))

/-- One step of the loop of `BitWrite`: frame bit `j` becomes `b`, the byte's other bits stay (R70). -/
def State.setFrameBit (s : State) (j : Nat) (b : Bool) : State :=
  let bit := 1#8 <<< (7 - j % 8)
  s.setFbByte (j / 8) ((s.fbByte (j / 8) &&& ~~~bit) ||| (if b then bit else 0))

/-- The bits `w` stored from frame bit `p` on, first bit first. -/
def State.writeBits (s : State) (p : Nat) : List Bool → State
  | [] => s
  | b :: rest => State.writeBits (s.setFrameBit p b) (p + 1) rest

/-- `BitWrite(p, n, v)` (R70). -/
def State.bitWrite (s : State) (p n v : Nat) : State := s.writeBits p (Code.bitsOf n v)

/-! ### The location map -/

/-- An item of the location map (R62). -/
inductive Item where
  | id
  | paramB
  | cmd
  | resp
  | status
  | state
  | cfgNch
  | cfgBands
  | cfgDir
  | cplMode
  | bcPos
  | bcLimit
  | cpl (c : ChanIx)
  | intens (c : ChanIx)
  | chstat (c : ChanIx)
  | sf (c : ChanIx) (b : Nat)
  | res (c : ChanIx) (b : Nat)
  | q (c : ChanIx) (b : Nat)
  | x (c : ChanIx) (k : Nat)
  | t (c : ChanIx) (n : Nat)
  | ov (c : ChanIx) (n : Nat)
  | fb (i : Nat)
deriving DecidableEq, Repr

/-- Region 0 by index (R62). -/
def itemGlobal : Nat → Option Item
  | 0 => some .id
  | 1 => some .paramB
  | 2 => some .cmd
  | 3 => some .resp
  | 4 => some .status
  | 5 => some .state
  | 8 => some .cfgNch
  | 9 => some .cfgBands
  | 10 => some .cfgDir
  | 11 => some .cplMode
  | 12 => some .bcPos
  | 13 => some .bcLimit
  | _ => none

/-- Region 1 by index (R62). -/
def itemChannel (c : ChanIx) : Nat → Option Item
  | 0 => some (.cpl c)
  | 1 => some (.intens c)
  | 2 => some (.chstat c)
  | _ => none

/-- The item at a location number; `none` where it is unmapped (R61, R62). -/
def itemAt (cfg : Cfg) (loc : Loc) : Option Item :=
  let c : ChanIx := loc.extractLsb' 16 4
  let index := (loc.extractLsb' 0 16).toNat
  match (loc.extractLsb' 20 4).toNat with
  | 0 => if c = 0 then itemGlobal index else none
  | 1 => itemChannel c index
  | 2 => if index < cfg.blockSize then some (.sf c index) else none
  | 3 => if index < cfg.blockSize then some (.res c index) else none
  | 4 => if index < cfg.blockSize then some (.q c index) else none
  | 5 => if index < cfg.blockSize then some (.x c index) else none
  | 6 => if index < cfg.blockSize then some (.t c index) else none
  | 7 => if index < cfg.blockSize then some (.ov c index) else none
  | 8 => if (loc.extractLsb' 0 20).toNat < cfg.fbCap then some (.fb (loc.extractLsb' 0 20).toNat) else none
  | _ => none

/-- The location number of `CMD` (R62). -/
def cmdLoc : Loc := 0x000002

end Sys2Proof.Machine
end

