-- ==== Sys2Proof/Machine/Quantizer.lean ====
section
/-! DEFINITION. The quantizer commands `UNPACK`, `DEQ`, `QUANT`, `PACK` (spec/41_quantizer.md). -/

namespace Sys2Proof.Machine

/-! ### UNPACK -/

/-- The band loop of `UNPACK` from frame bit `p` on (R132): the integers of the bands in order and the bit after the
last code word, or the band whose code word is incomplete. Silent bands give 0 and take no bits. -/
def State.unpackBands (s : State) (k : Chan) : List Nat → Nat → Except Nat (List Int × Nat)
  | [], p => .ok ([], p)
  | b :: rest, p =>
    if k.reff b = 0 then
      match State.unpackBands s k rest p with
      | .ok (q, p') => .ok (0 :: q, p')
      | .error e => .error e
    else
      match Code.vlcDecode (s.codeRows (k.reff b)) s.frameBit p s.bitLimit with
      | .overrun => .error b
      | .found v len =>
        match State.unpackBands s k rest (p + len) with
        | .ok (q, p') => .ok (v :: q, p')
        | .error e => .error e

/-- The row `Q[c]` that holds the integers `q` from band 0 on and 0 above (R132). -/
def qRow (b : Nat) (q : List Int) : List (BitVec 16) := (List.range b).map fun i => BitVec.ofInt 16 (q.getD i 0)

/-- A row of `Q[c]` of free values (R132, U2). -/
def freeQRow (b draw c : Nat) : List (BitVec 16) := (List.range b).map fun i => Config.freeQ draw c i

/-- The checks of `UNPACK c` (R132), in order. -/
def State.unpackChecks (s : State) (c : ChanIx) : List (Option Resp) :=
  [s.needRun, s.needDir 0, s.needChan c, s.needNotSecondary c, require ((s.chan c).fsm == .idle) (sequenceError 5)]

/-- The end of an `UNPACK c` that found a code word for every band: the integers `q`, the cursor at `p` (R132). -/
def State.unpackSuccess (s : State) (c : ChanIx) (q : List Int) (p : Nat) : State :=
  ((s.setChan c { s.chan c with q := qRow s.blockSize q, qvalid := true }).setBcPos p).complete

/-- The end of an `UNPACK c` that ran into the limit at band `b`: the one fault that changes more than `CMD`, `RESP` and
`STATUS`. `Q[c]` becomes unspecified and `QVALID[c]` 0 (R132, R184). -/
def State.unpackOverrun (s : State) (c : ChanIx) (b : Nat) : State :=
  (s.setChan c { s.chan c with q := freeQRow s.blockSize s.draws c.toNat, qvalid := false }).drawn.raise
    ⟨.bitstreamOverrun, BitVec.ofNat 16 b⟩

/-- The effect of `UNPACK c` (R132). -/
def State.unpackBody (c : ChanIx) (s : State) : State :=
  match s.unpackBands (s.chan c) (List.range s.bands) s.bcPos.toNat with
  | .ok (q, p) => s.unpackSuccess c q p
  | .error b => s.unpackOverrun c b

/-- `UNPACK c` (R132). -/
def execUnpack (c : ChanIx) (s : State) : Host.Outcome State Fault Refusal :=
  .next (s.guarded (s.unpackChecks c) (State.unpackBody c))

/-! ### DEQ -/

/-- `Deq(q, sf, r)` (R133): first the scale, then the normalizer; `none` where it is unspecified (R163, U4). -/
def deqValue (cfg : Cfg) (q : Int) (sf : BitVec 6) (r : Nat) : Option F64 :=
  (Arith.mul cfg.numerics (F64.ofInt q) (Tables.deqScale sf)).bind fun y =>
    Arith.mul cfg.numerics y (cfg.deqNorm.getD r 0)

/-- A non-silent band whose integer lies outside its resolution's range (R134, R138). -/
def Chan.outOfRange (k : Chan) (b : Nat) : Bool :=
  decide (k.reff b ≠ 0) && decide (Tables.qRange (k.reff b) < (k.qAt b).natAbs)

/-- The new `X[c][b]` of `DEQ` (R134): +0 in silent bands and at or above `CFG_BANDS`. -/
def State.deqElement (s : State) (c : ChanIx) (b : Nat) : F64 :=
  let k := s.chan c
  if b < s.bands ∧ k.reff b ≠ 0 then
    (deqValue s.cfg (k.qAt b) (k.sfAt b) (k.reff b)).getD (Config.freeF64 s.draws .x c.toNat b)
  else 0

/-- The checks of `DEQ c` (R134), in order. -/
def State.deqChecks (s : State) (c : ChanIx) : List (Option Resp) :=
  [s.needRun, s.needDir 0, s.needChan c,
   require ((s.chan c).fsm == .idle && (s.chan c).qvalid) (sequenceError 5),
   scan s.bands (s.chan c).outOfRange .rangeError 0]

/-- The effect of `DEQ c` (R134). -/
def State.deqBody (c : ChanIx) (s : State) : State :=
  (s.setChan c { s.chan c with
    x := (List.range s.blockSize).map (s.deqElement c), fsm := .loaded, qvalid := false }).drawn

/-- `DEQ c` (R134). -/
def execDeq (c : ChanIx) (s : State) : Host.Outcome State Fault Refusal := s.command (s.deqChecks c) (State.deqBody c)

/-! ### QUANT -/

/-- `val(Deq(q, sf, r)) · 2^1074`, where it is specified. -/
def levelOf (cfg : Cfg) (sf : BitVec 6) (r : Nat) (q : Int) : Option Int :=
  match deqValue cfg q sf r with
  | some y => if F64.finite y then some (F64.scaled y) else none
  | none => none

/-- The search of `Quant`: among `best` with its distance and the candidates, the nearest level to `x`, of equally
near ones the one of larger magnitude (R135). `none` if a level is unspecified (log 16). -/
def quantSearch (level : Int → Option Int) (x : Int) : List Int → Int → Nat → Option Int
  | [], best, _ => some best
  | q :: rest, best, dist =>
    match level q with
    | none => none
    | some y =>
      if (x - y).natAbs < dist ∨ ((x - y).natAbs = dist ∧ best.natAbs < q.natAbs) then
        quantSearch level x rest q (x - y).natAbs
      else quantSearch level x rest best dist

/-- `Quant(x, sf, r)` (R135): differences in exact arithmetic, ties to the larger magnitude, clamping to ±`QRANGE[r]`. -/
def quantValue (cfg : Cfg) (x : F64) (sf : BitVec 6) (r : Nat) : Option Int :=
  match Code.interval (Tables.qRange r) with
  | [] => none
  | q :: rest =>
    match levelOf cfg sf r q with
    | none => none
    | some y => quantSearch (levelOf cfg sf r) (F64.scaled x) rest q (F64.scaled x - y).natAbs

/-- The new `Q[c][b]` of `QUANT` (R136): 0 in silent bands and at or above `CFG_BANDS`. -/
def State.quantElement (s : State) (c : ChanIx) (b : Nat) : BitVec 16 :=
  let k := s.chan c
  if b < s.bands ∧ k.reff b ≠ 0 then
    match quantValue s.cfg (k.xAt b) (k.sfAt b) (k.reff b) with
    | some q => BitVec.ofInt 16 q
    | none => Config.freeQ s.draws c.toNat b
  else 0

/-- The checks of `QUANT c` (R136), in order. Silent bands below `CFG_BANDS` are scanned too; bands at or above it are not. -/
def State.quantChecks (s : State) (c : ChanIx) : List (Option Resp) :=
  [s.needRun, s.needDir 1, s.needChan c, s.needNotSecondary c,
   require ((s.chan c).fsm == .transformed) (sequenceError 5),
   scan s.bands (fun b => !F64.finite ((s.chan c).xAt b)) .nonFinite 0]

/-- The effect of `QUANT c` (R136). -/
def State.quantBody (c : ChanIx) (s : State) : State :=
  (s.setChan c { s.chan c with q := (List.range s.blockSize).map (s.quantElement c), qvalid := true }).drawn

/-- `QUANT c` (R136). -/
def execQuant (c : ChanIx) (s : State) : Host.Outcome State Fault Refusal :=
  s.command (s.quantChecks c) (State.quantBody c)

/-! ### PACK -/

/-- The code word of band `b` (R137, R138); no bits for a silent band (R97). -/
def State.bandWord (s : State) (k : Chan) (b : Nat) : List Bool :=
  if k.reff b = 0 then [] else Code.vlcEncode (s.codeRows (k.reff b)) (k.qAt b)

/-- The dry run of `PACK` (R138), `p` being `BC_POS` plus the bits of the bands before: at each band first the range,
then the running bit total. -/
def State.packFault (s : State) (k : Chan) : List Nat → Nat → Option Resp
  | [], _ => none
  | b :: rest, p =>
    if k.reff b = 0 then State.packFault s k rest p
    else if k.outOfRange b then some ⟨.rangeError, BitVec.ofNat 16 b⟩
    else if s.bitLimit < p + (s.bandWord k b).length then some ⟨.bitstreamOverrun, BitVec.ofNat 16 b⟩
    else State.packFault s k rest (p + (s.bandWord k b).length)

/-- The write loop of `PACK` (R138): the words of the bands, one after another, from frame bit `p` on; the state
with the new `FB`, and the bit after the last word. `words` are the code words of the bands. -/
def State.packWords (s : State) (p : Nat) : List (List Bool) → State × Nat
  | [] => (s, p)
  | w :: rest => State.packWords (s.bitWrite p w.length (Code.natOf w)) (p + w.length) rest

/-- The checks of `PACK c` (R138), in order; the dry run writes nothing. -/
def State.packChecks (s : State) (c : ChanIx) : List (Option Resp) :=
  [s.needRun, s.needDir 1, s.needChan c, s.needNotSecondary c,
   require ((s.chan c).fsm == .transformed && (s.chan c).qvalid) (sequenceError 5),
   s.packFault (s.chan c) (List.range s.bands) s.bcPos.toNat]

/-- The effect of `PACK c` (R138). -/
def State.packBody (c : ChanIx) (s : State) : State :=
  let written := s.packWords s.bcPos.toNat ((List.range s.bands).map (s.bandWord (s.chan c)))
  (written.1.setChan c { s.chan c with qvalid := false }).setBcPos written.2

/-- `PACK c` (R138): all or nothing. -/
def execPack (c : ChanIx) (s : State) : Host.Outcome State Fault Refusal :=
  s.command (s.packChecks c) (State.packBody c)

end Sys2Proof.Machine
end

