-- ==== Sys2Proof/Machine/Stereo.lean ====
section
/-! DEFINITION. The intensity-stereo commands `ISDEC`, `ISENC` (spec/42_stereo.md). -/

namespace Sys2Proof.Machine

/-- Only `CPLMODE` 0 is defined; another value raises `UnsupportedMode` with it (R150). -/
def State.needMode (s : State) : Option Resp :=
  require (s.cplMode == 0) ⟨.unsupportedMode, s.cplMode.setWidth 16⟩

/-- The new `X[s][k]` of `ISDEC`: the primary's line times the ratio (R151). -/
def State.isdecElement (s : State) (sec : ChanIx) (k : Nat) : F64 :=
  (Arith.mul s.cfg.numerics ((s.chan (s.chan sec).partner).xAt k) (Tables.iRatio (s.chan sec).intens)).getD
    (Config.freeF64 s.draws .x sec.toNat k)

/-- The checks of `ISDEC s` (R151), in order. -/
def State.isdecChecks (s : State) (sec : ChanIx) : List (Option Resp) :=
  [s.needRun, s.needDir 0, s.needChan sec, s.needSecondary sec,
   require ((s.chan (s.chan sec).partner).fsm == .loaded && (s.chan sec).fsm == .idle) (sequenceError 5),
   s.needMode,
   scan s.blockSize (fun k => !F64.finite ((s.chan (s.chan sec).partner).xAt k)) .nonFinite 0]

/-- The effect of `ISDEC s` (R151). -/
def State.isdecBody (sec : ChanIx) (s : State) : State :=
  (s.setChan sec { s.chan sec with
    x := (List.range s.blockSize).map (s.isdecElement sec), fsm := .loaded, qvalid := false }).drawn

/-- `ISDEC s` (R151): the secondary's spectrum from the primary's, on all B lines. -/
def execIsdec (sec : ChanIx) (s : State) : Host.Outcome State Fault Refusal :=
  s.command (s.isdecChecks sec) (State.isdecBody sec)

/-- A row of `X[s]` of free values (R153, U3). -/
def freeXRow (b draw c : Nat) : List F64 := (List.range b).map fun k => Config.freeF64 draw .x c k

/-- The B lines of `X[c]`. -/
def State.spectrum (s : State) (c : ChanIx) : List F64 := (List.range s.blockSize).map (s.chan c).xAt

/-- The checks of `ISENC s` (R153), in order. -/
def State.isencChecks (s : State) (sec : ChanIx) : List (Option Resp) :=
  [s.needRun, s.needDir 1, s.needChan sec, s.needSecondary sec,
   require ((s.chan (s.chan sec).partner).fsm == .transformed && (s.chan sec).fsm == .transformed) (sequenceError 5),
   s.needMode,
   scan s.blockSize
     (fun k => !F64.finite ((s.chan (s.chan sec).partner).xAt k) || !F64.finite ((s.chan sec).xAt k)) .nonFinite 0]

/-- The effect of `ISENC s` (R153). -/
def State.isencBody (sec : ChanIx) (s : State) : State :=
  (s.setChan sec { s.chan sec with
    intens := Arith.isencChoice s.cfg.isenc (s.spectrum (s.chan sec).partner) (s.spectrum sec)
    x := freeXRow s.blockSize s.draws sec.toNat
    fsm := .idle
    qvalid := false }).drawn

/-- `ISENC s` (R153): chooses the intensity index and discards the secondary's spectrum. -/
def execIsenc (sec : ChanIx) (s : State) : Host.Outcome State Fault Refusal :=
  s.command (s.isencChecks sec) (State.isencBody sec)

end Sys2Proof.Machine
end

