-- ==== Sys2Proof/Machine/System.lean ====
section
/-! DEFINITION. The system commands `NOP`, `START`, `STOP`, `ABORT` (spec/40_system.md). -/

namespace Sys2Proof.Machine

/-- A slot made Idle with `QVALID` 0 (R122 to R124). -/
def Chan.toIdle (k : Chan) : Chan := { k with fsm := .idle, qvalid := false }

/-- `NOP` (R121): no check of its own, no state change. -/
def execNop (s : State) : Host.Outcome State Fault Refusal := s.command [] id

/-- Whether channel `c`'s pairing is consistent (R43, R122): independent, or primary or secondary with a partner in
the session, other than itself, of the opposite role, that points back. -/
def State.pairingOk (s : State) (c : ChanIx) : Bool :=
  let k := s.chan c
  let p := k.partner
  k.role == 0 ||
    ((k.role == 1 || k.role == 2) && decide (p.toNat < s.cfgNch.toNat) && p != c &&
      (s.chan p).role == 3 - k.role && (s.chan p).partner == c)

/-- The pairing check of `START`: the lowest channel below `CFG_NCH` whose pairing is wrong (R122). -/
def State.pairingFault (s : State) : Option Resp :=
  (firstIndex s.cfgNch.toNat fun c => !s.pairingOk (BitVec.ofNat 4 c)).map fun c =>
    ⟨.invalidConfiguration, BitVec.ofNat 16 (3 + 256 * c)⟩

/-- The checks of `START` (R122), in order. -/
def State.startChecks (s : State) : List (Option Resp) :=
  [require (!s.run) (sequenceError 1),
   require (decide (1 ≤ s.cfgNch.toNat ∧ s.cfgNch.toNat ≤ 16)) ⟨.invalidConfiguration, 1⟩,
   require (decide (1 ≤ s.bands ∧ s.bands ≤ s.blockSize)) ⟨.invalidConfiguration, 2⟩,
   s.pairingFault]

/-- A slot at the start of a session: Idle, `QVALID` 0, the overlap buffer +0 (R122). -/
def Chan.opened (b : Nat) (k : Chan) : Chan := { k.toIdle with ov := List.replicate b 0 }

/-- The effect of `START` (R122): the session is open, every slot Idle, every overlap buffer +0. -/
def State.startBody (s : State) : State :=
  (s.mapChans (Chan.opened s.blockSize)).setRun true

/-- `START` (R122): opens a session. -/
def execStart (s : State) : Host.Outcome State Fault Refusal := s.command s.startChecks State.startBody

/-- The effect of `STOP` (R123): the session is closed, every slot Idle. -/
def State.stopBody (s : State) : State := (s.mapChans Chan.toIdle).setRun false

/-- `STOP` (R123): closes the session; no buffer changes. -/
def execStop (s : State) : Host.Outcome State Fault Refusal := s.command [s.needRun] State.stopBody

/-- `ABORT` (R124): every slot Idle, the session stays open, no buffer changes. -/
def execAbort (s : State) : Host.Outcome State Fault Refusal :=
  s.command [s.needRun] fun s => s.mapChans Chan.toIdle

end Sys2Proof.Machine
end

