-- ==== Sys2Proof/Machine/Transform.lean ====
section
/-! DEFINITION. The transform commands `LOAD`, `IMDCT`, `MDCT`, `REL` (spec/43_transform.md). -/

namespace Sys2Proof.Machine

/-- The checks of `LOAD c` (R164), in order. -/
def State.loadChecks (s : State) (c : ChanIx) : List (Option Resp) :=
  [s.needRun, s.needChan c, require ((s.chan c).fsm == .idle) (sequenceError 5)]

/-- `LOAD c` (R164): Idle → Loaded for data the host has put in place. -/
def execLoad (c : ChanIx) (s : State) : Host.Outcome State Fault Refusal :=
  s.command (s.loadChecks c) fun s => s.setChan c { s.chan c with fsm := .loaded, qvalid := false }

/-- `yw` of `IMDCT` (R165): the 2B values of the inverse transform of `X[c]`, each times its window entry. -/
def State.imdctWindowed (s : State) (c : ChanIx) : List (Option F64) :=
  let y := Arith.imdct s.cfg ((List.range s.blockSize).map (s.chan c).xAt)
  (List.range (2 * s.blockSize)).map fun n =>
    (y.getD n none).bind fun v => Arith.mul s.cfg.numerics v (s.windowAt n)

/-- The new `T[c][n]` of `IMDCT`: the first half overlap-added to the old tail (R165). -/
def State.imdctSample (s : State) (c : ChanIx) (yw : List (Option F64)) (n : Nat) : F64 :=
  ((yw.getD n none).bind fun v => Arith.add s.cfg.numerics v ((s.chan c).ovAt n)).getD
    (Config.freeF64 s.draws .t c.toNat n)

/-- The new `OV[c][n]` of `IMDCT`: the windowed second half (R165). -/
def State.imdctTail (s : State) (c : ChanIx) (yw : List (Option F64)) (n : Nat) : F64 :=
  (yw.getD (n + s.blockSize) none).getD (Config.freeF64 s.draws .ov c.toNat n)

/-- The checks of `IMDCT c` (R165), in order. -/
def State.imdctChecks (s : State) (c : ChanIx) : List (Option Resp) :=
  [s.needRun, s.needDir 0, s.needChan c, require ((s.chan c).fsm == .loaded) (sequenceError 5),
   scan s.blockSize (fun k => !F64.finite ((s.chan c).xAt k)) .nonFinite 0,
   scan s.blockSize (fun n => !F64.finite ((s.chan c).ovAt n)) .nonFinite s.blockSize]

/-- The effect of `IMDCT c` (R165). -/
def State.imdctBody (c : ChanIx) (s : State) : State :=
  let yw := s.imdctWindowed c
  (s.setChan c { s.chan c with
    t := (List.range s.blockSize).map (s.imdctSample c yw)
    ov := (List.range s.blockSize).map (s.imdctTail c yw)
    fsm := .transformed }).drawn

/-- `IMDCT c` (R165). -/
def execImdct (c : ChanIx) (s : State) : Host.Outcome State Fault Refusal :=
  s.command (s.imdctChecks c) (State.imdctBody c)

/-- `z` of `MDCT` (R166): the previous block, then the current one. -/
def State.mdctInput (s : State) (c : ChanIx) (n : Nat) : F64 :=
  if n < s.blockSize then (s.chan c).ovAt n else (s.chan c).tAt (n - s.blockSize)

/-- `zw` of `MDCT` (R166), or `none` if a product is unspecified. -/
def State.mdctWindowed (s : State) (c : ChanIx) : Option (List F64) :=
  Arith.allSome ((List.range (2 * s.blockSize)).map fun n =>
    Arith.mul s.cfg.numerics (s.mdctInput c n) (s.windowAt n))

/-- The new `X[c][k]` of `MDCT`, from the elements of the forward transform (R166). -/
def State.mdctLine (s : State) (c : ChanIx) (xs : List (Option F64)) (k : Nat) : F64 :=
  (xs.getD k none).getD (Config.freeF64 s.draws .x c.toNat k)

/-- The elements of the forward transform in `MDCT c` (R166); every one depends on every windowed sample. -/
def State.mdctElements (s : State) (c : ChanIx) : List (Option F64) :=
  match s.mdctWindowed c with
  | some zw => Arith.mdct s.cfg zw
  | none => []

/-- The checks of `MDCT c` (R166), in order. -/
def State.mdctChecks (s : State) (c : ChanIx) : List (Option Resp) :=
  [s.needRun, s.needDir 1, s.needChan c, require ((s.chan c).fsm == .loaded) (sequenceError 5),
   scan s.blockSize (fun n => !F64.finite ((s.chan c).ovAt n)) .nonFinite 0,
   scan s.blockSize (fun n => !F64.finite ((s.chan c).tAt n)) .nonFinite s.blockSize]

/-- The effect of `MDCT c` (R166): `OV[c] <- T[c]` bit for bit. -/
def State.mdctBody (c : ChanIx) (s : State) : State :=
  let xs := s.mdctElements c
  (s.setChan c { s.chan c with
    x := (List.range s.blockSize).map (s.mdctLine c xs)
    ov := (List.range s.blockSize).map (s.chan c).tAt
    fsm := .transformed }).drawn

/-- `MDCT c` (R166). -/
def execMdct (c : ChanIx) (s : State) : Host.Outcome State Fault Refusal :=
  s.command (s.mdctChecks c) (State.mdctBody c)

/-- The checks of `REL c` (R167), in order. -/
def State.relChecks (s : State) (c : ChanIx) : List (Option Resp) :=
  [s.needRun, s.needChan c, require ((s.chan c).fsm == .transformed) (sequenceError 5)]

/-- `REL c` (R167): Transformed → Idle, the frame's end for the channel. -/
def execRel (c : ChanIx) (s : State) : Host.Outcome State Fault Refusal :=
  s.command (s.relChecks c) fun s => s.setChan c { s.chan c with fsm := .idle, qvalid := false }

end Sys2Proof.Machine
end

