-- ==== Sys2Proof/Machine/Dispatch.lean ====
section
/-! DEFINITION. The dispatch of a decoded command to its meaning (`Body` of R120), one arm per constructor. -/

namespace Sys2Proof.Machine

def exec (i : Instr) (s : State) : Host.Outcome State Fault Refusal :=
  match i with
  | .nop => Sys2Proof.Machine.execNop s
  | .start => Sys2Proof.Machine.execStart s
  | .stop => Sys2Proof.Machine.execStop s
  | .abort => Sys2Proof.Machine.execAbort s
  | .unpack c => Sys2Proof.Machine.execUnpack c s
  | .deq c => Sys2Proof.Machine.execDeq c s
  | .quant c => Sys2Proof.Machine.execQuant c s
  | .pack c => Sys2Proof.Machine.execPack c s
  | .isdec c => Sys2Proof.Machine.execIsdec c s
  | .isenc c => Sys2Proof.Machine.execIsenc c s
  | .load c => Sys2Proof.Machine.execLoad c s
  | .imdct c => Sys2Proof.Machine.execImdct c s
  | .mdct c => Sys2Proof.Machine.execMdct c s
  | .rel c => Sys2Proof.Machine.execRel c s

end Sys2Proof.Machine
end

