-- ==== Sys2Proof/Machine/Port.lean ====
section
/-! DEFINITION. The host port: `Exec` (R120 of spec/40_system.md), `HostRead` and `HostWrite` (R63 to R66 of
spec/20_memory.md), and what one host access does. -/

namespace Sys2Proof.Machine

/-- `Exec(w)` (R120): bad tables, then an illegal word (R93, `INFO` = word[31:16]), then the command itself. -/
def execWord (w : Word) (s : State) : Host.Outcome State Fault Refusal :=
  if s.cfg.tablesOk then
    match decode w with
    | .ok i => exec i s
    | .error _ => .next (s.raise ⟨.illegalCommand, w.extractLsb' 16 16⟩)
  else .next (s.raise ⟨.initializationError, 0⟩)

/-- What a read of an item returns (R63): zero-extended, `Q` sign-extended, F64 elements bit for bit (R66);
reserved bits read 0. -/
def State.readItem (s : State) : Item → PortWord
  | .id => 0x48534231
  | .paramB => (BitVec.ofNat 12 s.blockSize).setWidth 64
  | .cmd => s.cmd.setWidth 64
  | .resp => s.resp.word.setWidth 64
  | .status => (s.status &&& statusMask).setWidth 64
  | .state => s.stateWord.setWidth 64
  | .cfgNch => s.cfgNch.setWidth 64
  | .cfgBands => s.cfgBands.setWidth 64
  | .cfgDir => s.cfgDir.setWidth 64
  | .cplMode => s.cplMode.setWidth 64
  | .bcPos => s.bcPos.setWidth 64
  | .bcLimit => s.bcLimit.setWidth 64
  | .cpl c => ((s.chan c).cpl &&& 0xF3).setWidth 64
  | .intens c => (s.chan c).intens.setWidth 64
  | .chstat c => (s.chan c).chstat.setWidth 64
  | .sf c b => ((s.chan c).sfAt b).setWidth 64
  | .res c b => ((s.chan c).resAt b).setWidth 64
  | .q c b => ((s.chan c).q.getD b 0).signExtend 64
  | .x c k => (s.chan c).xAt k
  | .t c n => (s.chan c).tAt n
  | .ov c n => (s.chan c).ovAt n
  | .fb i => (s.fbByte i).setWidth 64

/-- `HostRead(L)` (R63): the value, kept as the port's last datum, and `ACCERR` for an unmapped location. -/
def State.hostRead (s : State) (loc : Loc) : State :=
  match itemAt s.cfg loc with
  | none => s.accessError.setPortData 0
  | some item => s.setPortData (s.readItem item)

/-- A write to a register that is locked while `RUN` = 1 (R44, R64). -/
def State.writeLocked (s : State) (write : State → State) : State := if s.run then s.accessError else write s

/-- A write to an item other than `CMD` (R64): the low bits are kept, reserved bits of `CPL` are forced to 0,
read-only items refuse. -/
def State.writeItem (s : State) (d : PortWord) : Item → State
  | .id => s.accessError
  | .paramB => s.accessError
  | .cmd => s
  | .resp => s.accessError
  | .status => s.clearStatus (d.setWidth 16)
  | .state => s.accessError
  | .cfgNch => s.writeLocked fun s => { s with cfgNch := d.setWidth 5 }
  | .cfgBands => s.writeLocked fun s => { s with cfgBands := d.setWidth 12 }
  | .cfgDir => s.writeLocked fun s => { s with cfgDir := d.setWidth 1 }
  | .cplMode => { s with cplMode := d.setWidth 4 }
  | .bcPos => { s with bcPos := d.setWidth 24 }
  | .bcLimit => { s with bcLimit := d.setWidth 24 }
  | .cpl c => s.writeLocked fun s => s.setChan c { s.chan c with cpl := d.setWidth 8 &&& 0xF3 }
  | .intens c => s.setChan c { s.chan c with intens := d.setWidth 4 }
  | .chstat _ => s.accessError
  | .sf c b => s.setChan c { s.chan c with sf := (s.chan c).sf.set b (d.setWidth 6) }
  | .res c b => s.setChan c { s.chan c with res := (s.chan c).res.set b (d.setWidth 4) }
  | .q c b => s.setChan c { s.chan c with q := (s.chan c).q.set b (d.setWidth 16) }
  | .x c k => s.setChan c { s.chan c with x := (s.chan c).x.set k d }
  | .t c n => s.setChan c { s.chan c with t := (s.chan c).t.set n d }
  | .ov c n => s.setChan c { s.chan c with ov := (s.chan c).ov.set n d }
  | .fb i => s.setFbByte i (d.setWidth 8)

/-- `HostWrite(L, d)` (R64): a write to `CMD` stores the word and executes it; an unmapped location refuses. -/
def State.hostWrite (s : State) (loc : Loc) (d : PortWord) : Host.Outcome State Fault Refusal :=
  match itemAt s.cfg loc with
  | none => .next s.accessError
  | some .cmd => execWord (d.setWidth 32) (s.setCmd (d.setWidth 32))
  | some item => .next (s.writeItem d item)

/-- What one event at the instance does (R63, R64, R200). -/
def State.perform (s : State) : HostAccess → Host.Outcome State Fault Refusal
  | .read loc => .next (s.hostRead loc)
  | .write loc d => s.hostWrite loc d
  | .hardReset => .next s.hardReset

/-- One host access (R73, R209): the next pending one is taken and performed. With none pending nothing changes
(R207: "nothing changes until the host writes"). -/
def State.stepNext (s : State) : Host.Outcome State Fault Refusal :=
  match s.pending with
  | [] => .next s
  | a :: rest => (s.setPending rest).perform a

/-- The host write of a command word to `CMD` (R102: "`WR CMD, w` and the mnemonic form are the same thing"). -/
def commandWrite (w : Word) : HostAccess := .write cmdLoc (w.setWidth 64)

end Sys2Proof.Machine
end

