-- ==== Sys2Proof/Machine/Step.lean ====
section
/-! DEFINITION. One step of the machine: one host access (R11, R73, R209). -/

namespace Sys2Proof.Machine

/-- One step: the next host access with all its state changes, a command included (R73, R77). -/
def step (s : State) : Host.Outcome State Fault Refusal := s.stepNext

/-- `s` with the host about to write the command word `w` (its first `nbits` bits) to `CMD` before anything else:
there is no command memory (R51, R78), a command word arrives as the data of the write that executes it. -/
def State.withFetchWord (s : State) (nbits w : Nat) : State :=
  s.setPending (commandWrite (BitVec.ofNat 32 (w % 2 ^ nbits)) :: s.pending)

end Sys2Proof.Machine
end

