-- ==== Sys2Proof/Machine/Pseudo.lean ====
section
/-! DEFINITION. The pseudo-instructions `DECFRAME` and `ENCFRAME` (R103 of spec/30_encoding.md): what the host issues
for one frame. They are command sequences of the host, not commands; the host's own work between the parts (reading
`T`, deriving `SF` and `RES`) is not part of them. -/

namespace Sys2Proof.Machine

/-- The channels c < `CFG_NCH`, ascending. -/
def State.sessionChannels (s : State) : List ChanIx := (List.range (min s.cfgNch.toNat 16)).map (BitVec.ofNat 4)

/-- The channels with `ROLE` ≠ 2, ascending. -/
def State.coded (s : State) : List ChanIx := s.sessionChannels.filter fun c => (s.chan c).role != 2

/-- The channels with `ROLE` = 2, ascending. -/
def State.secondaries (s : State) : List ChanIx := s.sessionChannels.filter fun c => (s.chan c).role == 2

/-- `DECFRAME` up to the host's reading of `T` (R103). -/
def State.decFrame (s : State) : List Instr :=
  (s.coded.flatMap fun c => [.unpack c, .deq c]) ++ s.secondaries.map .isdec ++ s.sessionChannels.map .imdct

/-- The end of `DECFRAME`, after the host has read `T` (R103). -/
def State.decFrameEnd (s : State) : List Instr := s.sessionChannels.map .rel

/-- `ENCFRAME` up to the host's derivation of `SF` and `RES` (R103). -/
def State.encFrame (s : State) : List Instr :=
  (s.sessionChannels.flatMap fun c => [.load c, .mdct c]) ++ s.secondaries.map .isenc

/-- The end of `ENCFRAME`, after the host has written `SF` and `RES` (R103). -/
def State.encFrameEnd (s : State) : List Instr :=
  (s.coded.flatMap fun c => [.quant c, .pack c]) ++ s.coded.map .rel

/-- The host issues one command (R102). -/
def State.issue (s : State) (i : Instr) : Host.Outcome State Fault Refusal :=
  s.hostWrite cmdLoc ((encode i).setWidth 64)

/-- The host issues an expansion: "If any command of an expansion faults, the expansion stops there and the host
issues `ABORT`" (R103). -/
def State.issueAll (s : State) : List Instr → Host.Outcome State Fault Refusal
  | [] => .next s
  | i :: rest =>
    match s.issue i with
    | .next t => if t.resp.cause = .success then State.issueAll t rest else t.issue .abort
    | .fault r => .fault r
    | .refused r => .refused r

end Sys2Proof.Machine
end

