-- ==== Sys2Proof/Safety.lean ====
section
/-! DEFINITION. The terms the claims are stated in: the invariant of R57, frames (what a command leaves as it was),
the tables of R160 and R181, code words as they lie in the frame, and the exact kernels and the properties N2 to N4 of
R161 to R163 over the real numbers. -/

namespace Sys2Proof.Machine

/-! ### The invariant -/

/-- Every buffer of a slot has B elements (R32). -/
structure Chan.Sized (b : Nat) (k : Chan) : Prop where
  sf  : k.sf.length = b
  res : k.res.length = b
  q   : k.q.length = b
  x   : k.x.length = b
  t   : k.t.length = b
  ov  : k.ov.length = b

/-- The pairing of channel `c` is consistent (R57 I-c, R43). -/
def State.Paired (s : State) (c : ChanIx) : Prop :=
  ((s.chan c).role = 1 ∨ (s.chan c).role = 2) ∧
  (s.chan c).partner.toNat < s.cfgNch.toNat ∧
  (s.chan c).partner ≠ c ∧
  (s.chan (s.chan c).partner).role = 3 - (s.chan c).role ∧
  (s.chan (s.chan c).partner).partner = c

/-- What holds after hard reset and is kept by every step: the shape of the buffers, of `FB` and of the reserved bits
(R32, R39, R43, R54), and (I-a) to (I-d) of R57. -/
structure State.Inv (s : State) : Prop where
  sized    : ∀ c, (s.chan c).Sized s.blockSize
  fbForm   : s.fb.wf = true
  fbWithin : s.fb.within s.cfg.fbCap = true
  status   : s.status &&& ~~~statusMask = 0
  cpl      : ∀ c, (s.chan c).cpl &&& 0x0C = 0
  /-- (I-a) -/
  closed   : s.run = false → ∀ c, (s.chan c).fsm = .idle ∧ (s.chan c).qvalid = false
  /-- (I-b) -/
  qvalid   : ∀ c, (s.chan c).qvalid = true →
    (s.cfgDir = 0 ∧ (s.chan c).fsm = .idle) ∨ (s.cfgDir = 1 ∧ (s.chan c).fsm = .transformed)
  /-- (I-c), the counts -/
  counts   : s.run = true → 1 ≤ s.cfgNch.toNat ∧ s.cfgNch.toNat ≤ 16 ∧ 1 ≤ s.bands ∧ s.bands ≤ s.blockSize
  /-- (I-c), the pairing; a role is 0, 1 or 2 -/
  pairing  : s.run = true → ∀ c : ChanIx, c.toNat < s.cfgNch.toNat → (s.chan c).role = 0 ∨ s.Paired c
  /-- (I-d) -/
  active   : ∀ c : ChanIx, (s.chan c).fsm ≠ .idle → c.toNat < s.cfgNch.toNat

/-! ### Frames -/

/-- Everything outside the channel slots, `FB`, `BC_POS`, `RESP` and `STATUS` is as before. (`State.draws`, which only
numbers free values, is no part of the machine the spec describes.) -/
structure SameControl (s t : State) : Prop where
  cfg      : t.cfg = s.cfg
  cfgNch   : t.cfgNch = s.cfgNch
  cfgBands : t.cfgBands = s.cfgBands
  cfgDir   : t.cfgDir = s.cfgDir
  cplMode  : t.cplMode = s.cplMode
  bcLimit  : t.bcLimit = s.bcLimit
  run      : t.run = s.run
  cmd      : t.cmd = s.cmd
  portData : t.portData = s.portData
  pending  : t.pending = s.pending

/-- Every byte of `FB` reads as before. -/
def SameFrameBytes (s t : State) : Prop := ∀ i, t.fbByte i = s.fbByte i

/-- Every slot but `c` is as before. -/
def SameOtherChans (c : ChanIx) (s t : State) : Prop := ∀ d, d ≠ c → t.chan d = s.chan d

/-- The frame of a successful command on channel `c` that stores no frame bits and does not move the cursor: only slot
`c` may differ, and `RESP` is 0. -/
structure ChannelFrame (c : ChanIx) (s t : State) : Prop where
  control : SameControl s t
  others  : SameOtherChans c s t
  bytes   : SameFrameBytes s t
  bcPos   : t.bcPos = s.bcPos
  status  : t.status = s.status
  resp    : t.resp = ⟨.success, 0⟩

/-- The outcome of a command that raises: `RESP` and the sticky bit, all else as before (R183, R184). -/
def Raises (s : State) (r : Resp) (o : Host.Outcome State Fault Refusal) : Prop :=
  o = .next { s with resp := r, status := s.status ||| 1#16 <<< r.cause.code.toNat }

/-- The tables are good, a session is open, and channel `c` is in it: what every channel command needs first
(R181 items 1 and 3, R190). -/
structure State.Ready (s : State) (c : ChanIx) : Prop where
  tables  : s.cfg.tablesOk = true
  run     : s.run = true
  inRange : c.toNat < s.cfgNch.toNat

/-! ### The tables of R92, R160 and R181 -/

/-- The opcodes of format N (R92). -/
def formatN : List (BitVec 8) := [0x00, 0x01, 0x02, 0x03]

/-- The opcodes of format C (R92). -/
def formatC : List (BitVec 8) := [0x10, 0x11, 0x12, 0x13, 0x20, 0x21, 0x30, 0x31, 0x32, 0x33]

/-- The direction a command needs (R181 item 2): 0 decode, 1 encode; `none` where it looks at none. -/
def direction : Instr → Option (BitVec 1)
  | .nop => none
  | .start => none
  | .stop => none
  | .abort => none
  | .unpack _ => some 0
  | .deq _ => some 0
  | .quant _ => some 1
  | .pack _ => some 1
  | .isdec _ => some 0
  | .isenc _ => some 1
  | .load _ => none
  | .imdct _ => some 0
  | .mdct _ => some 1
  | .rel _ => none

/-- The role check of a command (R181 item 4): `UNPACK`, `QUANT`, `PACK` refuse a secondary, `ISDEC` and `ISENC` need one. -/
def State.RoleOk (s : State) : Instr → Prop
  | .unpack c => (s.chan c).role ≠ 2
  | .quant c => (s.chan c).role ≠ 2
  | .pack c => (s.chan c).role ≠ 2
  | .isdec c => (s.chan c).role = 2
  | .isenc c => (s.chan c).role = 2
  | _ => True

/-- The required state of a command (R181, second table). -/
def State.StateOk (s : State) : Instr → Prop
  | .unpack c => (s.chan c).fsm = .idle
  | .deq c => (s.chan c).fsm = .idle ∧ (s.chan c).qvalid = true
  | .quant c => (s.chan c).fsm = .transformed
  | .pack c => (s.chan c).fsm = .transformed ∧ (s.chan c).qvalid = true
  | .isdec c => (s.chan (s.chan c).partner).fsm = .loaded ∧ (s.chan c).fsm = .idle
  | .isenc c => (s.chan (s.chan c).partner).fsm = .transformed ∧ (s.chan c).fsm = .transformed
  | .load c => (s.chan c).fsm = .idle
  | .imdct c => (s.chan c).fsm = .loaded
  | .mdct c => (s.chan c).fsm = .loaded
  | .rel c => (s.chan c).fsm = .transformed
  | _ => True

/-- The transitions of R160: the successful command `i` may move the machine of channel `c` from `f` to `g`. -/
def FsmMove (i : Instr) (c : ChanIx) (f g : Fsm) : Prop :=
  match i with
  | .deq d => c = d ∧ f = .idle ∧ g = .loaded
  | .isdec d => c = d ∧ f = .idle ∧ g = .loaded
  | .load d => c = d ∧ f = .idle ∧ g = .loaded
  | .imdct d => c = d ∧ f = .loaded ∧ g = .transformed
  | .mdct d => c = d ∧ f = .loaded ∧ g = .transformed
  | .rel d => c = d ∧ f = .transformed ∧ g = .idle
  | .isenc d => c = d ∧ f = .transformed ∧ g = .idle
  | .start => g = .idle
  | .stop => g = .idle
  | .abort => g = .idle
  | _ => False

/-! ### Code words in the frame -/

/-- The bits `w` stand in the frame from bit `p` on (R68). -/
def State.BitsAt (s : State) (p : Nat) (w : List Bool) : Prop :=
  ∀ i, i < w.length → s.frameBit (p + i) = w.getD i false

/-- For each of the first `n` bands of a channel, `w b` is a code word of the band's resolution with value `v b`; a
silent band has no bits and value 0 (R97). -/
def State.CodeWords (s : State) (k : Chan) (n : Nat) (w : Nat → List Bool) (v : Nat → Int) : Prop :=
  ∀ b, b < n →
    (k.reff b = 0 → w b = [] ∧ v b = 0) ∧
    (k.reff b ≠ 0 → ∃ x ∈ s.codeRows (k.reff b), x.word = w b ∧ x.value = v b)

/-- The words of the first `n` bands, one after another (R97). -/
def wordsOf (w : Nat → List Bool) (n : Nat) : List Bool := (List.range n).flatMap w

/-- The code tables of the first `n` bands of a channel satisfy W1 (R98). -/
def State.PrefixFree (s : State) (k : Chan) (n : Nat) : Prop :=
  ∀ b, b < n → k.reff b ≠ 0 → Code.W1 (s.codeRows (k.reff b))

/-- The code tables of the first `n` bands of a channel satisfy W3 (R98). -/
def State.ExactValues (s : State) (k : Chan) (n : Nat) : Prop :=
  ∀ b, b < n → k.reff b ≠ 0 → Code.W3 (s.codeRows (k.reff b)) (Tables.qRange (k.reff b))

/-! ### The host port -/

/-- The value a write of `d` leaves to be read back (R63, R64, R66): the item's low bits, reserved bits 0. `none` for
`CMD`, `STATUS` and read-only items. -/
def Item.readBack (d : PortWord) : Item → Option PortWord
  | .cfgNch => some ((d.setWidth 5).setWidth 64)
  | .cfgBands => some ((d.setWidth 12).setWidth 64)
  | .cfgDir => some ((d.setWidth 1).setWidth 64)
  | .cplMode => some ((d.setWidth 4).setWidth 64)
  | .bcPos => some ((d.setWidth 24).setWidth 64)
  | .bcLimit => some ((d.setWidth 24).setWidth 64)
  | .cpl _ => some ((d.setWidth 8 &&& 0xF3#8).setWidth 64)
  | .intens _ => some ((d.setWidth 4).setWidth 64)
  | .sf _ _ => some ((d.setWidth 6).setWidth 64)
  | .res _ _ => some ((d.setWidth 4).setWidth 64)
  | .q _ _ => some ((d.setWidth 16).signExtend 64)
  | .x _ _ => some d
  | .t _ _ => some d
  | .ov _ _ => some d
  | .fb _ => some ((d.setWidth 8).setWidth 64)
  | .id => none
  | .paramB => none
  | .cmd => none
  | .resp => none
  | .status => none
  | .state => none
  | .chstat _ => none

/-- The items locked while `RUN` = 1 (R44, R62). -/
def Item.locked : Item → Bool
  | .cfgNch => true
  | .cfgBands => true
  | .cfgDir => true
  | .cpl _ => true
  | _ => false

/-- The read-only items (R62, R64). -/
def Item.readOnly : Item → Bool
  | .id => true
  | .paramB => true
  | .resp => true
  | .state => true
  | .chstat _ => true
  | _ => false

/-! ### Levels -/

/-- A finite positive number, as `DEQ_NORM[r]` is for r ≥ 1 (R27). -/
def PositiveFinite (x : F64) : Prop := F64.finite x = true ∧ F64.sign x = false ∧ F64.isZero x = false

/-- Every level of the band's resolution is specified (no product beyond ±FMAX; R163 N4 makes it so). -/
def LevelsSpecified (cfg : Cfg) (sf : BitVec 6) (r : Nat) : Prop :=
  ∀ q : Int, q.natAbs ≤ Tables.qRange r → (levelOf cfg sf r q).isSome = true

/-- `q` is a nearest level to `x`, and of the nearest ones one of largest magnitude (R135). -/
def NearestLevel (cfg : Cfg) (sf : BitVec 6) (r : Nat) (x q : Int) : Prop :=
  q.natAbs ≤ Tables.qRange r ∧
  ∀ p : Int, p.natAbs ≤ Tables.qRange r → ∀ y z : Int, levelOf cfg sf r q = some y → levelOf cfg sf r p = some z →
    (x - y).natAbs ≤ (x - z).natAbs ∧ ((x - y).natAbs = (x - z).natAbs → p.natAbs ≤ q.natAbs)

end Sys2Proof.Machine

/-! ### Exact arithmetic (R161 to R163), over the real numbers -/

namespace Sys2Proof.Arith

/-- `val(x)` (R8). -/
noncomputable def val (x : F64) : ℝ := (F64.scaled x : ℝ) / 2 ^ 1074

/-- `FMAX` (R8). -/
noncomputable def fmax : ℝ := (F64.maxScaled : ℝ) / 2 ^ 1074

/-- The cosine of both kernels (R161, R162). -/
noncomputable def kernelCos (b n k : ℕ) : ℝ := Real.cos (Real.pi * (2 * n + 1 + b) * (2 * k + 1) / (4 * b))

/-- `imdct_exact(X)[n]` (R161). -/
noncomputable def imdctExact (cfg : Cfg) (xs : List F64) (n : ℕ) : ℝ :=
  val cfg.sInv * ∑ k ∈ Finset.range cfg.blockSize, val (xs.getD k 0) * kernelCos cfg.blockSize n k

/-- `mdct_exact(zw)[k]` (R162). -/
noncomputable def mdctExact (cfg : Cfg) (zw : List F64) (k : ℕ) : ℝ :=
  val cfg.sFwd * ∑ n ∈ Finset.range (2 * cfg.blockSize), val (zw.getD n 0) * kernelCos cfg.blockSize n k

/-- N2 of R163, what the numerics do with zeros. "+0" of the kernels is said for a positive scale. -/
structure N2 (cfg : Cfg) : Prop where
  mul : ∀ a b, F64.finite a = true → F64.finite b = true → (F64.isZero a = true ∨ F64.isZero b = true) →
    ∃ r, mul cfg.numerics a b = some r ∧ F64.isZero r = true
  addLeft : ∀ a b, F64.isZero a = true → F64.finite b = true → F64.isZero b = false → add cfg.numerics a b = some b
  addRight : ∀ a b, F64.isZero b = true → F64.finite a = true → F64.isZero a = false → add cfg.numerics a b = some a
  addZeros : ∀ a b, F64.isZero a = true → F64.isZero b = true →
    ∃ r, add cfg.numerics a b = some r ∧ F64.isZero r = true ∧ (F64.sign a = false ∨ F64.sign b = false → r = 0)
  imdct : ∀ xs, (∀ x ∈ xs, F64.isZero x = true) → ∀ n, n < 2 * cfg.blockSize →
    ∃ r, (imdct cfg xs).getD n none = some r ∧ F64.isZero r = true ∧ (F64.sign cfg.sInv = false → r = 0)
  mdct : ∀ zw, (∀ x ∈ zw, F64.isZero x = true) → ∀ k, k < cfg.blockSize →
    ∃ r, (mdct cfg zw).getD k none = some r ∧ F64.isZero r = true ∧ (F64.sign cfg.sFwd = false → r = 0)

/-- N3 of R163 with accuracy `eps`: every result whose exact value lies within ±FMAX is specified, finite and near it. -/
structure N3 (cfg : Cfg) (eps : ℝ) : Prop where
  mul : ∀ a b, F64.finite a = true → F64.finite b = true → |val a * val b| ≤ fmax →
    ∃ r, mul cfg.numerics a b = some r ∧ F64.finite r = true ∧
      |val r - val a * val b| ≤ eps * |val a * val b|
  add : ∀ a b, F64.finite a = true → F64.finite b = true → |val a + val b| ≤ fmax →
    ∃ r, add cfg.numerics a b = some r ∧ F64.finite r = true ∧
      |val r - (val a + val b)| ≤ eps * |val a + val b|
  imdct : ∀ xs, (∀ x ∈ xs, F64.finite x = true) → ∀ n, n < 2 * cfg.blockSize → |imdctExact cfg xs n| ≤ fmax →
    ∃ r, (imdct cfg xs).getD n none = some r ∧ F64.finite r = true ∧
      |val r - imdctExact cfg xs n| ≤ eps * (|val cfg.sInv| *
        ∑ k ∈ Finset.range cfg.blockSize, |val (xs.getD k 0) * kernelCos cfg.blockSize n k|)
  mdct : ∀ zw, (∀ x ∈ zw, F64.finite x = true) → ∀ k, k < cfg.blockSize → |mdctExact cfg zw k| ≤ fmax →
    ∃ r, (mdct cfg zw).getD k none = some r ∧ F64.finite r = true ∧
      |val r - mdctExact cfg zw k| ≤ eps * (|val cfg.sFwd| *
        ∑ n ∈ Finset.range (2 * cfg.blockSize), |val (zw.getD n 0) * kernelCos cfg.blockSize n k|)

/-- N4 of R163: sign, order, and levels strictly increasing in the quantized integer. -/
structure N4 (cfg : Cfg) : Prop where
  sign : ∀ a b, F64.finite a = true → F64.finite b = true →
    mul cfg.numerics (F64.neg a) b = (mul cfg.numerics a b).map F64.neg
  order : ∀ a a' b, F64.finite a = true → F64.finite a' = true → F64.finite b = true → 0 < val b → val a ≤ val a' →
    ∀ r r', mul cfg.numerics a b = some r → mul cfg.numerics a' b = some r' → val r ≤ val r'
  levels : ∀ (sf : BitVec 6) (r : ℕ), 1 ≤ r → r ≤ 15 → ∀ p q : ℤ, p.natAbs ≤ Tables.qRange r →
    q.natAbs ≤ Tables.qRange r → p < q → ∃ y z, Machine.levelOf cfg sf r p = some y ∧
      Machine.levelOf cfg sf r q = some z ∧ y < z

end Sys2Proof.Arith
end

