-- ==== Sys2Proof/Certificates/Slice0/Obligations.lean ====
section
/-! DEFINITION. The statements for the provers, one `def Obligations.<Name> : Prop` each; OBLIGATIONS.json lists them.
A free value is never assumed to be anything: a statement about it holds for every value. -/

open Sys2Proof Sys2Proof.Machine

/-! ### Encoding -/

/-- Words written out from R92 and the examples of R95: one of each group of the opcode map, and words that are illegal
for each reason. -/
def Obligations.DecodesWordsOfTheOpcodeMap : Prop :=
  decode 0x01000000 = .ok .start ∧ decode 0x13000005 = .ok (.pack 5) ∧ decode 0x2100000A = .ok (.isenc 10) ∧
  decode 0x31000001 = .ok (.imdct 1) ∧ decode 0x3100000F = .ok (.imdct 15) ∧
  decode 0x31000010 = .error .mustBeZero ∧ decode 0x01000001 = .error .mustBeZero ∧
  decode 0x14000000 = .error .reservedOpcode ∧ decode 0xFF000000 = .error .reservedOpcode

/-- Decoding and encoding are inverse, both ways: a word decodes to a command exactly when it is that command's word.
So no two commands share a word, no bit of an encoding is dropped, and no other word is accepted (R90, R92, R95). -/
def Obligations.DecodeAndEncodeAreInverse : Prop :=
  ∀ (w : Word) (i : Instr), decode w = .ok i ↔ w = encode i

/-- R93: a word is illegal when its opcode is reserved or a must-be-zero bit is 1 (23:0 in format N, 23:4 in format C); it
is legal exactly when `word and mask` equals the match value of a row of the opcode table; and an illegal word raises
`IllegalCommand` with `INFO` = word[31:16] and changes nothing else. -/
def Obligations.IllegalWordsAreThoseOfNoRow : Prop :=
  ∀ (w : Word), (legalWord w = true ↔ ∃ i, decode w = .ok i) ∧
    (legalWord w = false ↔
      (opcodeOf w ∉ formatN ∧ opcodeOf w ∉ formatC) ∨
      (opcodeOf w ∈ formatN ∧ w.extractLsb' 0 24 ≠ 0) ∨ (opcodeOf w ∈ formatC ∧ w.extractLsb' 4 20 ≠ 0)) ∧
    ∀ s : State, s.cfg.tablesOk = true → legalWord w = false →
      Raises s ⟨.illegalCommand, w.extractLsb' 16 16⟩ (execWord w s)

/-! ### The step -/

/-- A step whose next host access writes a command word to `CMD` is `exec` of the decoded command, at the state with the
access taken and the word stored in `CMD` (R52, R64, R120). Every 64-bit datum with that low half will do. That the
accesses to come stand in `pending` is the model's choice (log 2). -/
def Obligations.StepRunsTheDecodedCommand : Prop :=
  ∀ (s : State) (d : PortWord) (rest : List HostAccess) (i : Instr),
    s.pending = .write cmdLoc d :: rest → decode (d.setWidth 32) = .ok i →
      step s = exec i { s with pending := rest, cmd := d.setWidth 32 }

/-- Every step answers a next state: no halt, no lock-up, no machine fault and no refusal (R189, R208). -/
def Obligations.EveryStepAnswersANextState : Prop := ∀ s : State, ∃ t, step s = .next t

/-- A step takes the next host access and leaves the later ones in order (R73); with none pending nothing changes
(R207). How accesses stand in `pending` is the model's choice (log 2). -/
def Obligations.StepTakesAccessesInOrder : Prop :=
  (∀ s : State, s.pending = [] → step s = .next s) ∧
  ∀ (s t : State) (a : HostAccess) (rest : List HostAccess),
    s.pending = a :: rest → step s = .next t → t.pending = rest

/-- No step changes a parameter of the instance (R20, R31). -/
def Obligations.ParametersNeverChange : Prop :=
  ∀ s t : State, step s = .next t → t.cfg = s.cfg

/-! ### Reset and invariants -/

/-- Hard reset: every register has the value of R56's first column, whatever the state before. Of the data buffers, which
R56 leaves unspecified, nothing is said but their sizes. -/
def Obligations.HardResetSetsControlState : Prop :=
  ∀ (s : State) (rest : List HostAccess), s.pending = .hardReset :: rest →
    ∃ t, step s = .next t ∧ t.cfg = s.cfg ∧ t.run = false ∧ t.cmd = 0 ∧ t.resp = ⟨.success, 0⟩ ∧ t.status = 0 ∧
      t.cfgNch = 0 ∧ t.cfgBands = 0 ∧ t.cfgDir = 0 ∧ t.cplMode = 0 ∧ t.bcPos = 0 ∧ t.bcLimit = 0 ∧
      ∀ c, (t.chan c).fsm = .idle ∧ (t.chan c).qvalid = false ∧ (t.chan c).cpl = 0 ∧ (t.chan c).intens = 0 ∧
        (t.chan c).Sized s.blockSize

/-- The invariant of R57 (I-a to I-d) and of the state's shape holds after hard reset, in every instance. -/
def Obligations.ResetMeetsTheInvariant : Prop :=
  (∀ (cfg : Cfg) (draw : Nat) (pending : List HostAccess), (State.powerOn cfg draw pending).Inv) ∧ State.reset.Inv

/-- Every step keeps the invariant of R57 (I-a to I-d), the sizes of the buffers, the canonical form of `FB`'s memory and
the reserved bits (R57: "kept by every command and every host access"). -/
def Obligations.StepKeepsTheInvariant : Prop :=
  ∀ s t : State, s.Inv → step s = .next t → t.Inv

/-- R57 (I-e): `OV[c]` changes only by `START`, by a successful `IMDCT c` or `MDCT c`, by a host write to an element of it,
or by hard reset; never by a fault. -/
def Obligations.OverlapChangesOnlyByItsWriters : Prop :=
  ∀ (s t : State) (c : ChanIx), step s = .next t → (t.chan c).ov ≠ (s.chan c).ov →
    (∃ rest, s.pending = .hardReset :: rest) ∨
    (∃ loc d n rest, s.pending = .write loc d :: rest ∧ itemAt s.cfg loc = some (.ov c n)) ∨
    (∃ d i rest, s.pending = .write cmdLoc d :: rest ∧ decode (d.setWidth 32) = .ok i ∧ t.resp.cause = .success ∧
      (i = .start ∨ i = .imdct c ∨ i = .mdct c))

/-- R160: the machine of a channel moves only by a successful command of the table, along that command's edge; no other
command, no fault and no host access moves it (hard reset apart, R56); and every successful command of the table moves it
so, in a session of the command's direction, `OV[c]` being written by `START` and the two transforms only. -/
def Obligations.FsmMovesOnlyAlongItsTable : Prop :=
  (∀ (s t : State) (c : ChanIx), step s = .next t → (t.chan c).fsm ≠ (s.chan c).fsm →
    (∃ rest, s.pending = .hardReset :: rest) ∨
    (∃ d i rest, s.pending = .write cmdLoc d :: rest ∧ decode (d.setWidth 32) = .ok i ∧ t.resp.cause = .success ∧
      FsmMove i c (s.chan c).fsm (t.chan c).fsm)) ∧
  ∀ (i : Instr) (s t : State) (c : ChanIx), exec i s = .next t → t.resp.cause = .success →
    (i = .start ∨ i = .stop ∨ i = .abort ∨ i = .deq c ∨ i = .isdec c ∨ i = .load c ∨ i = .imdct c ∨ i = .mdct c ∨
      i = .rel c ∨ i = .isenc c) →
    FsmMove i c (s.chan c).fsm (t.chan c).fsm ∧ (∀ dir, direction i = some dir → s.cfgDir = dir) ∧
      ((t.chan c).ov = (s.chan c).ov ∨ i = .start ∨ i = .imdct c ∨ i = .mdct c)

/-- R44: while `RUN` = 1 a host write to `CFG_NCH`, `CFG_BANDS`, `CFG_DIR` or any `CPL[c]` is dropped and sets
`STATUS.ACCERR`; and no step at all changes one of them then (hard reset apart). -/
def Obligations.ConfigurationIsLockedWhileRunning : Prop :=
  ∀ s : State, s.run = true →
    (∀ (loc : Loc) (d : PortWord),
      (itemAt s.cfg loc = some .cfgNch ∨ itemAt s.cfg loc = some .cfgBands ∨ itemAt s.cfg loc = some .cfgDir ∨
        ∃ c, itemAt s.cfg loc = some (.cpl c)) →
      s.hostWrite loc d = .next { s with status := s.status ||| 0x8000#16 }) ∧
    ∀ t : State, step s = .next t → (∀ rest, s.pending ≠ .hardReset :: rest) →
      t.cfgNch = s.cfgNch ∧ t.cfgBands = s.cfgBands ∧ t.cfgDir = s.cfgDir ∧ ∀ c, (t.chan c).cpl = (s.chan c).cpl

/-! ### Faults -/

/-- R184: a command that raises changes `RESP` and `STATUS` (and `CMD`, written before) and nothing else, but for `UNPACK c`
ending in `BitstreamOverrun`, which also clears `QVALID[c]` and leaves `Q[c]`, about which nothing is said. -/
def Obligations.FaultChangesOnlyItsReport : Prop :=
  ∀ (w : Word) (s t : State), execWord w s = .next t → t.resp.cause ≠ .success →
    ((∀ c, decode w = .ok (.unpack c) → t.resp.cause ≠ .bitstreamOverrun) ∧
      t = { s with resp := t.resp, status := s.status ||| 1#16 <<< t.resp.cause.code.toNat }) ∨
    (∃ c, decode w = .ok (.unpack c) ∧ t.resp.cause = .bitstreamOverrun ∧
      t.status = s.status ||| 0x0040#16 ∧ SameControl s t ∧ SameOtherChans c s t ∧ SameFrameBytes s t ∧
      t.bcPos = s.bcPos ∧ t.chan c = { s.chan c with q := (t.chan c).q, qvalid := false })

/-- R190: with bad tables every write to `CMD` stores the word, sets `RESP` to 0x00000001 and `STATUS` bit 1, and does
nothing else; so does every command on its own. -/
def Obligations.BadTablesFailEveryCommand : Prop :=
  ∀ s : State, s.cfg.tablesOk = false →
    (∀ d : PortWord, s.hostWrite cmdLoc d =
      .next { s with cmd := d.setWidth 32, resp := ⟨.initializationError, 0⟩, status := s.status ||| 2#16 }) ∧
    ∀ i : Instr, Raises s ⟨.initializationError, 0⟩ (exec i s)

/-- R181 and R182: the sub-reasons of `SequenceError` in their order, for every command: 1 `RUN`, 2 direction, 3 channel
range, 4 role, 5 state; each checked only when the ones before hold. -/
def Obligations.SequenceErrorsInOrder : Prop :=
  ∀ (i : Instr) (s : State), s.cfg.tablesOk = true → i ≠ .nop → i ≠ .start →
    (s.run = false → Raises s ⟨.sequenceError, 1⟩ (exec i s)) ∧
    (s.run = true → ∀ dir, direction i = some dir → s.cfgDir ≠ dir → Raises s ⟨.sequenceError, 2⟩ (exec i s)) ∧
    (s.run = true → (∀ dir, direction i = some dir → s.cfgDir = dir) → ∀ c, i.operand = some c →
      (s.cfgNch.toNat ≤ c.toNat → Raises s ⟨.sequenceError, 3⟩ (exec i s)) ∧
      (c.toNat < s.cfgNch.toNat → ¬ s.RoleOk i → Raises s ⟨.sequenceError, 4⟩ (exec i s)) ∧
      (c.toNat < s.cfgNch.toNat → s.RoleOk i → ¬ s.StateOk i → Raises s ⟨.sequenceError, 5⟩ (exec i s)))

/-! ### System commands -/

/-- R121: `NOP`, word 0x00000000, has no check of its own and changes no state but `RESP` <- 0; its only fault is bad
tables. -/
def Obligations.NopOnlyClearsResp : Prop :=
  encode .nop = 0x00000000 ∧ ∀ s : State,
    (s.cfg.tablesOk = true → exec .nop s = .next { s with resp := ⟨.success, 0⟩ }) ∧
    (s.cfg.tablesOk = false → Raises s ⟨.initializationError, 0⟩ (exec .nop s))

/-- R122, success: with no session open, legal counts and a consistent pairing, `START` opens the session, makes every
slot Idle with `QVALID` 0 and every overlap buffer +0, all sixteen of them, and changes nothing else. -/
def Obligations.StartOpensTheSession : Prop :=
  ∀ s : State, s.cfg.tablesOk = true → s.run = false → 1 ≤ s.cfgNch.toNat → s.cfgNch.toNat ≤ 16 → 1 ≤ s.bands →
    s.bands ≤ s.blockSize → (∀ c : ChanIx, c.toNat < s.cfgNch.toNat → (s.chan c).role = 0 ∨ s.Paired c) →
    ∃ t, exec .start s = .next t ∧ t.run = true ∧ t.resp = ⟨.success, 0⟩ ∧
      (∀ c, t.chan c = { s.chan c with fsm := .idle, qvalid := false, ov := List.replicate s.blockSize 0 }) ∧
      SameControl s { t with run := s.run } ∧ SameFrameBytes s t ∧ t.bcPos = s.bcPos ∧ t.status = s.status

/-- R122, faults: `START` reports an open session first, then the channel count, the band count, and the lowest channel
whose pairing is wrong, with `INFO` = 3 + 256 c. -/
def Obligations.StartRejectsBadConfigurations : Prop :=
  ∀ s : State, s.cfg.tablesOk = true →
    (s.run = true → Raises s ⟨.sequenceError, 1⟩ (exec .start s)) ∧
    (s.run = false →
      ((s.cfgNch.toNat < 1 ∨ 16 < s.cfgNch.toNat) → Raises s ⟨.invalidConfiguration, 1⟩ (exec .start s)) ∧
      (1 ≤ s.cfgNch.toNat → s.cfgNch.toNat ≤ 16 →
        ((s.bands < 1 ∨ s.blockSize < s.bands) → Raises s ⟨.invalidConfiguration, 2⟩ (exec .start s)) ∧
        (1 ≤ s.bands → s.bands ≤ s.blockSize → ∀ c : ChanIx, c.toNat < s.cfgNch.toNat →
          ¬ ((s.chan c).role = 0 ∨ s.Paired c) →
          (∀ d : ChanIx, d.toNat < c.toNat → (s.chan d).role = 0 ∨ s.Paired d) →
          Raises s ⟨.invalidConfiguration, BitVec.ofNat 16 (3 + 256 * c.toNat)⟩ (exec .start s))))

/-- R123: `STOP`, word 0x02000000, raises `SequenceError` 1 with no session open; else it closes the session, makes every slot Idle with
`QVALID` 0, keeps every buffer and register, and clears `RESP`. -/
def Obligations.StopClosesTheSession : Prop :=
  encode .stop = 0x02000000 ∧ ∀ s : State, s.cfg.tablesOk = true →
    (s.run = false → Raises s ⟨.sequenceError, 1⟩ (exec .stop s)) ∧
    (s.run = true → ∃ t, exec .stop s = .next t ∧ t.run = false ∧ t.resp = ⟨.success, 0⟩ ∧
      (∀ c, t.chan c = { s.chan c with fsm := .idle, qvalid := false }) ∧
      SameControl s { t with run := s.run } ∧ SameFrameBytes s t ∧ t.bcPos = s.bcPos ∧ t.status = s.status)

/-- R124: `ABORT`, word 0x03000000, raises `SequenceError` 1 with no session open; else it makes every slot Idle with `QVALID` 0, keeps the
session, every buffer, `OV` among them, and `BC_POS`, and clears `RESP`. -/
def Obligations.AbortDropsTheFrame : Prop :=
  encode .abort = 0x03000000 ∧ ∀ s : State, s.cfg.tablesOk = true →
    (s.run = false → Raises s ⟨.sequenceError, 1⟩ (exec .abort s)) ∧
    (s.run = true → ∃ t, exec .abort s = .next t ∧ t.resp = ⟨.success, 0⟩ ∧
      (∀ c, t.chan c = { s.chan c with fsm := .idle, qvalid := false }) ∧
      SameControl s t ∧ SameFrameBytes s t ∧ t.bcPos = s.bcPos ∧ t.status = s.status)

/-! ### Quantizer -/

/-- R132, success: when the frame holds, from `BC_POS` on, a code word for each non-silent band in order and they end by
the limit, `UNPACK c` puts their values into `Q[c]`, 0 in silent bands and at or above `CFG_BANDS`, moves `BC_POS` past
the last word, sets `QVALID[c]`, and changes nothing else. -/
def Obligations.UnpackReadsTheCodeWords : Prop :=
  ∀ (s : State) (c : ChanIx) (w : Nat → List Bool) (v : Nat → Int),
    s.Ready c → s.cfgDir = 0 → (s.chan c).role ≠ 2 → (s.chan c).fsm = .idle →
    s.PrefixFree (s.chan c) s.bands → s.CodeWords (s.chan c) s.bands w v →
    s.BitsAt s.bcPos.toNat (wordsOf w s.bands) →
    (wordsOf w s.bands = [] ∨ s.bcPos.toNat + (wordsOf w s.bands).length ≤ s.bitLimit) →
    ∃ t, exec (.unpack c) s = .next t ∧
      (t.chan c).q.length = s.blockSize ∧
      (∀ b, b < s.blockSize → (t.chan c).q.getD b 0 = BitVec.ofInt 16 (if b < s.bands then v b else 0)) ∧
      t.chan c = { s.chan c with q := (t.chan c).q, qvalid := true } ∧
      t.bcPos.toNat = s.bcPos.toNat + (wordsOf w s.bands).length ∧
      t.resp = ⟨.success, 0⟩ ∧ t.status = s.status ∧ SameControl s t ∧ SameOtherChans c s t ∧ SameFrameBytes s t

/-- R132, overrun: when the bands below `n` have their words but no code word of band `n` lies wholly below the limit,
`UNPACK c` raises `BitstreamOverrun` with `INFO` = n, clears `QVALID[c]`, and changes nothing else but `Q[c]`, about
which nothing is said. -/
def Obligations.UnpackStopsAtTheLimit : Prop :=
  ∀ (s : State) (c : ChanIx) (n : Nat) (w : Nat → List Bool) (v : Nat → Int),
    s.Ready c → s.cfgDir = 0 → (s.chan c).role ≠ 2 → (s.chan c).fsm = .idle → n < s.bands →
    s.PrefixFree (s.chan c) (n + 1) → s.CodeWords (s.chan c) n w v →
    s.BitsAt s.bcPos.toNat (wordsOf w n) →
    (wordsOf w n = [] ∨ s.bcPos.toNat + (wordsOf w n).length ≤ s.bitLimit) →
    (s.chan c).reff n ≠ 0 →
    (∀ x ∈ s.codeRows ((s.chan c).reff n),
      ¬ (s.bcPos.toNat + (wordsOf w n).length + x.word.length ≤ s.bitLimit ∧
        s.BitsAt (s.bcPos.toNat + (wordsOf w n).length) x.word)) →
    ∃ t, exec (.unpack c) s = .next t ∧ t.resp = ⟨.bitstreamOverrun, BitVec.ofNat 16 n⟩ ∧
      t.status = s.status ||| 0x0040#16 ∧ t.bcPos = s.bcPos ∧
      t.chan c = { s.chan c with q := (t.chan c).q, qvalid := false } ∧
      SameControl s t ∧ SameOtherChans c s t ∧ SameFrameBytes s t

/-- R132 with W3 of R98: after a successful `UNPACK c` every integer lies within its resolution's range ("`UNPACK` never
raises `RangeError`"), so the range check of `DEQ c` finds nothing. -/
def Obligations.UnpackStaysInRange : Prop :=
  ∀ (s t : State) (c : ChanIx), s.bands ≤ s.blockSize → s.ExactValues (s.chan c) s.bands →
    exec (.unpack c) s = .next t → t.resp.cause = .success →
    ∀ b, b < s.bands → ((t.chan c).qAt b).natAbs ≤ Tables.qRange ((s.chan c).reff b)

/-- R134, success: `DEQ c` writes every line of `X[c]`: `Deq` of the band's integer where it is specified, +0 where the
integer is 0 (its normalizer being finite and positive, R27), in silent bands and at or above `CFG_BANDS`; the channel becomes Loaded with `QVALID` 0; nothing else changes, `Q[c]` included. -/
def Obligations.DeqWritesTheSpectrum : Prop :=
  ∀ (s : State) (c : ChanIx), s.Ready c → s.cfgDir = 0 → (s.chan c).fsm = .idle → (s.chan c).qvalid = true →
    (∀ b, b < s.bands → (s.chan c).reff b ≠ 0 →
      ((s.chan c).qAt b).natAbs ≤ Tables.qRange ((s.chan c).reff b)) →
    ∃ t, exec (.deq c) s = .next t ∧ ChannelFrame c s t ∧
      t.chan c = { s.chan c with x := (t.chan c).x, fsm := .loaded, qvalid := false } ∧
      (t.chan c).x.length = s.blockSize ∧
      ∀ b, b < s.blockSize →
        (b < s.bands → (s.chan c).reff b ≠ 0 → ∀ y y' : F64,
          Arith.mul s.cfg.numerics (F64.ofInt ((s.chan c).qAt b)) (Tables.deqScale ((s.chan c).sfAt b)) = some y →
          Arith.mul s.cfg.numerics y (s.cfg.deqNorm.getD ((s.chan c).reff b) 0) = some y' → (t.chan c).xAt b = y') ∧
        (b < s.bands → (s.chan c).reff b ≠ 0 → (s.chan c).qAt b = 0 →
          PositiveFinite (s.cfg.deqNorm.getD ((s.chan c).reff b) 0) → (t.chan c).xAt b = 0) ∧
        ((s.bands ≤ b ∨ (s.chan c).reff b = 0) → (t.chan c).xAt b = 0)

/-- R133: `Deq(0, sf, r)` is +0, never -0, and `Deq(-q, sf, r)` = -`Deq(q, sf, r)` bit for bit for q ≠ 0, in every instance
with a finite positive normalizer (R27), whatever its numerics record. -/
def Obligations.DeqRespectsZeroAndSign : Prop :=
  ∀ (cfg : Cfg) (sf : BitVec 6) (r : Nat), PositiveFinite (cfg.deqNorm.getD r 0) →
    deqValue cfg 0 sf r = some 0 ∧
    ∀ q : Int, q ≠ 0 → q.natAbs ≤ 2047 → deqValue cfg (-q) sf r = (deqValue cfg q sf r).map F64.neg

/-- R134 and R138, the range check: `DEQ c` raises `RangeError` with the lowest non-silent band below `CFG_BANDS` whose
integer is out of range, and so does `PACK c` when no earlier band overruns; nothing else changes. -/
def Obligations.RangeErrorNamesTheLowestBand : Prop :=
  ∀ (s : State) (c : ChanIx) (n : Nat), s.Ready c → (s.chan c).qvalid = true → n < s.bands →
    (s.chan c).reff n ≠ 0 → Tables.qRange ((s.chan c).reff n) < ((s.chan c).qAt n).natAbs →
    (∀ b, b < n → (s.chan c).reff b ≠ 0 → ((s.chan c).qAt b).natAbs ≤ Tables.qRange ((s.chan c).reff b)) →
    (s.cfgDir = 0 → (s.chan c).fsm = .idle → Raises s ⟨.rangeError, BitVec.ofNat 16 n⟩ (exec (.deq c) s)) ∧
    (s.cfgDir = 1 → (s.chan c).fsm = .transformed → (s.chan c).role ≠ 2 →
      (∀ b, b < n → (s.chan c).reff b ≠ 0 →
        s.bcPos.toNat + (wordsOf (s.bandWord (s.chan c)) (b + 1)).length ≤ s.bitLimit) →
      Raises s ⟨.rangeError, BitVec.ofNat 16 n⟩ (exec (.pack c) s))

/-- R135 and R136, success: with finite lines below `CFG_BANDS`, `QUANT c` puts into `Q[c]` a nearest level of each
non-silent band (of equally near ones one of larger magnitude; values beyond the largest level clamp), 0 elsewhere, sets
`QVALID[c]`, and changes nothing else. -/
def Obligations.QuantChoosesTheNearestLevel : Prop :=
  ∀ (s : State) (c : ChanIx), s.Ready c → s.cfgDir = 1 → (s.chan c).role ≠ 2 → (s.chan c).fsm = .transformed →
    (∀ b, b < s.bands → F64.finite ((s.chan c).xAt b) = true) →
    ∃ t, exec (.quant c) s = .next t ∧ ChannelFrame c s t ∧
      t.chan c = { s.chan c with q := (t.chan c).q, qvalid := true } ∧
      (t.chan c).q.length = s.blockSize ∧
      ∀ b, b < s.blockSize →
        (b < s.bands → (s.chan c).reff b ≠ 0 → LevelsSpecified s.cfg ((s.chan c).sfAt b) ((s.chan c).reff b) →
          NearestLevel s.cfg ((s.chan c).sfAt b) ((s.chan c).reff b) (F64.scaled ((s.chan c).xAt b))
            ((t.chan c).qAt b)) ∧
        ((s.bands ≤ b ∨ (s.chan c).reff b = 0) → (t.chan c).qAt b = 0)

/-- R139 (b): quantizing a reconstruction value gives the integer back, when the levels of the resolution are specified and
strictly increasing (R163 N4). -/
def Obligations.QuantInvertsDeq : Prop :=
  ∀ (cfg : Cfg) (sf : BitVec 6) (r : Nat) (q : Int) (x : F64), q.natAbs ≤ Tables.qRange r →
    LevelsSpecified cfg sf r →
    (∀ p p' : Int, p.natAbs ≤ Tables.qRange r → p'.natAbs ≤ Tables.qRange r → p < p' →
      ∀ y y' : Int, levelOf cfg sf r p = some y → levelOf cfg sf r p' = some y' → y < y') →
    deqValue cfg q sf r = some x → quantValue cfg x sf r = some q

/-- R138, success: with every non-silent band's integer in range and code words that end by the limit, `PACK c` stores
them one after another from `BC_POS` on, leaves every other frame bit and every byte outside as it was, moves `BC_POS`
past the last word, clears `QVALID[c]`, and changes nothing else. -/
def Obligations.PackStoresTheCodeWords : Prop :=
  ∀ (s : State) (c : ChanIx) (w : Nat → List Bool) (v : Nat → Int),
    s.Ready c → s.cfgDir = 1 → (s.chan c).role ≠ 2 → (s.chan c).fsm = .transformed → (s.chan c).qvalid = true →
    s.ExactValues (s.chan c) s.bands → s.CodeWords (s.chan c) s.bands w v →
    (∀ b, b < s.bands → (s.chan c).reff b ≠ 0 → v b = (s.chan c).qAt b) →
    ((∀ b, b < s.bands → (s.chan c).reff b = 0) ∨
      s.bcPos.toNat + (wordsOf w s.bands).length ≤ s.bitLimit) →
    ∃ t, exec (.pack c) s = .next t ∧
      (∀ j, t.frameBit j =
        if s.bcPos.toNat ≤ j ∧ j < s.bcPos.toNat + (wordsOf w s.bands).length then
          (wordsOf w s.bands).getD (j - s.bcPos.toNat) false
        else s.frameBit j) ∧
      (∀ i, (i < s.bcPos.toNat / 8 ∨ s.bcPos.toNat + (wordsOf w s.bands).length ≤ 8 * i) →
        t.fbByte i = s.fbByte i) ∧
      t.bcPos.toNat = s.bcPos.toNat + (wordsOf w s.bands).length ∧
      t.chan c = { s.chan c with qvalid := false } ∧
      t.resp = ⟨.success, 0⟩ ∧ t.status = s.status ∧ SameControl s t ∧ SameOtherChans c s t

/-- R138 and R71, the budget: when the bands up to `n` are in range and the code word of band `n` is the first to cross
the limit, `PACK c` raises `BitstreamOverrun` with `INFO` = n and writes nothing. -/
def Obligations.PackRefusesToExceedTheBudget : Prop :=
  ∀ (s : State) (c : ChanIx) (n : Nat), s.Ready c → s.cfgDir = 1 → (s.chan c).role ≠ 2 →
    (s.chan c).fsm = .transformed → (s.chan c).qvalid = true → n < s.bands → (s.chan c).reff n ≠ 0 →
    (∀ b, b ≤ n → (s.chan c).reff b ≠ 0 → ((s.chan c).qAt b).natAbs ≤ Tables.qRange ((s.chan c).reff b)) →
    (∀ b, b < n → (s.chan c).reff b ≠ 0 →
      s.bcPos.toNat + (wordsOf (s.bandWord (s.chan c)) (b + 1)).length ≤ s.bitLimit) →
    s.bitLimit < s.bcPos.toNat + (wordsOf (s.bandWord (s.chan c)) (n + 1)).length →
    Raises s ⟨.bitstreamOverrun, BitVec.ofNat 16 n⟩ (exec (.pack c) s)

/-- R139 (a): after a successful `UNPACK c` from `BC_POS`, the `PACK` write loop with the integers it read, started where
`UNPACK` started, reproduces every bit of the frame and ends where `UNPACK` ended. -/
def Obligations.RepackingReproducesTheFrame : Prop :=
  ∀ (s t : State) (c : ChanIx), s.bands ≤ s.blockSize → s.ExactValues (s.chan c) s.bands →
    exec (.unpack c) s = .next t → t.resp.cause = .success →
    (t.packWords s.bcPos.toNat ((List.range t.bands).map (t.bandWord (t.chan c)))).2 = t.bcPos.toNat ∧
    ∀ j, (t.packWords s.bcPos.toNat ((List.range t.bands).map (t.bandWord (t.chan c)))).1.frameBit j = s.frameBit j

/-! ### Stereo -/

/-- R151, success: `ISDEC s` makes line k of the secondary the product of the primary's line and the ratio of the intensity
index, where the product is specified, for all B lines; the secondary becomes Loaded; nothing else changes, the primary
included. -/
def Obligations.IsdecScalesThePrimary : Prop :=
  ∀ (s : State) (c : ChanIx), s.Ready c → s.cfgDir = 0 → (s.chan c).role = 2 →
    (s.chan (s.chan c).partner).fsm = .loaded → (s.chan c).fsm = .idle → s.cplMode = 0 →
    (∀ k, k < s.blockSize → F64.finite ((s.chan (s.chan c).partner).xAt k) = true) →
    ∃ t, exec (.isdec c) s = .next t ∧ ChannelFrame c s t ∧
      t.chan c = { s.chan c with x := (t.chan c).x, fsm := .loaded, qvalid := false } ∧
      (t.chan c).x.length = s.blockSize ∧
      ∀ k, k < s.blockSize → ∀ y, Arith.mul s.cfg.numerics ((s.chan (s.chan c).partner).xAt k)
        (Tables.iRatio (s.chan c).intens) = some y → (t.chan c).xAt k = y

/-- R150 to R153, faults: another coupling mode raises `UnsupportedMode` with `CPLMODE`, in `ISDEC` and `ISENC` alike, before
the data is looked at; else the lowest line that is a NaN or an infinity (of the primary in `ISDEC`, of either in
`ISENC`) raises `NonFinite` with it. -/
def Obligations.StereoFaultsNameModeThenLine : Prop :=
  ∀ (s : State) (c : ChanIx), s.Ready c → (s.chan c).role = 2 →
    (s.cfgDir = 0 → (s.chan (s.chan c).partner).fsm = .loaded → (s.chan c).fsm = .idle →
      (s.cplMode ≠ 0 → Raises s ⟨.unsupportedMode, s.cplMode.setWidth 16⟩ (exec (.isdec c) s)) ∧
      (s.cplMode = 0 → ∀ n, n < s.blockSize → F64.finite ((s.chan (s.chan c).partner).xAt n) = false →
        (∀ k, k < n → F64.finite ((s.chan (s.chan c).partner).xAt k) = true) →
        Raises s ⟨.nonFinite, BitVec.ofNat 16 n⟩ (exec (.isdec c) s))) ∧
    (s.cfgDir = 1 → (s.chan (s.chan c).partner).fsm = .transformed → (s.chan c).fsm = .transformed →
      (s.cplMode ≠ 0 → Raises s ⟨.unsupportedMode, s.cplMode.setWidth 16⟩ (exec (.isenc c) s)) ∧
      (s.cplMode = 0 → ∀ n, n < s.blockSize →
        (F64.finite ((s.chan (s.chan c).partner).xAt n) = false ∨ F64.finite ((s.chan c).xAt n) = false) →
        (∀ k, k < n → F64.finite ((s.chan (s.chan c).partner).xAt k) = true ∧ F64.finite ((s.chan c).xAt k) = true) →
        Raises s ⟨.nonFinite, BitVec.ofNat 16 n⟩ (exec (.isenc c) s)))

/-- R153, success: `ISENC s` writes the chosen index into `INTENS[s]` and makes the secondary Idle; of `X[s]`, which becomes
unspecified, nothing is said; nothing else changes, the primary and `OV[s]` included. -/
def Obligations.IsencChoosesAnIndex : Prop :=
  ∀ (s : State) (c : ChanIx), s.Ready c → s.cfgDir = 1 → (s.chan c).role = 2 →
    (s.chan (s.chan c).partner).fsm = .transformed → (s.chan c).fsm = .transformed → s.cplMode = 0 →
    (∀ k, k < s.blockSize →
      F64.finite ((s.chan (s.chan c).partner).xAt k) = true ∧ F64.finite ((s.chan c).xAt k) = true) →
    ∃ t, exec (.isenc c) s = .next t ∧ ChannelFrame c s t ∧
      t.chan c = { s.chan c with
        intens := Arith.isencChoice s.cfg.isenc
          ((List.range s.blockSize).map (s.chan (s.chan c).partner).xAt) ((List.range s.blockSize).map (s.chan c).xAt)
        x := (t.chan c).x, fsm := .idle, qvalid := false }

/-- R152: the reference choice is the smallest index i that minimises, in exact arithmetic, d[i] = the sum over the lines k of
(|val(S[k])| - val(IRATIO[i]) · |val(P[k])|)^2. -/
def Obligations.IsencReferenceIsLeastSquares : Prop :=
  ∀ (b : Nat) (p s : Nat → F64) (i : Nat), i < 16 →
    let d : Nat → ℝ := fun i => ∑ k ∈ Finset.range b,
      (|Arith.val (s k)| - Arith.val (Tables.iRatio (BitVec.ofNat 4 i)) * |Arith.val (p k)|) ^ 2
    let best := (Arith.isencChoice .reference ((List.range b).map p) ((List.range b).map s)).toNat
    best < 16 ∧ d best ≤ d i ∧ (d best = d i → best ≤ i)

/-- R151, corner case: with the reference numerics a ratio of 1 (index 7) copies a finite line bit for bit. -/
def Obligations.RatioOneCopiesTheLine : Prop :=
  ∀ x : F64, F64.finite x = true → Arith.mul .reference x (Tables.iRatio 7) = some x

/-! ### Transform -/

/-- R164: `LOAD c`, word 0x30000000 + c, raises `SequenceError` 1, 3 or 5, in this order; else an Idle channel becomes Loaded with `QVALID` 0,
whatever the direction, the role and the data, and nothing else changes. -/
def Obligations.LoadMakesTheChannelLoaded : Prop :=
  (∀ c : ChanIx, encode (.load c) = 0x30000000#32 + c.setWidth 32) ∧ ∀ (s : State) (c : ChanIx), s.cfg.tablesOk = true →
    (s.run = false → Raises s ⟨.sequenceError, 1⟩ (exec (.load c) s)) ∧
    (s.run = true → s.cfgNch.toNat ≤ c.toNat → Raises s ⟨.sequenceError, 3⟩ (exec (.load c) s)) ∧
    (s.run = true → c.toNat < s.cfgNch.toNat → (s.chan c).fsm ≠ .idle →
      Raises s ⟨.sequenceError, 5⟩ (exec (.load c) s)) ∧
    (s.run = true → c.toNat < s.cfgNch.toNat → (s.chan c).fsm = .idle →
      ∃ t, exec (.load c) s = .next t ∧ ChannelFrame c s t ∧
        t.chan c = { s.chan c with fsm := .loaded, qvalid := false })

/-- R165, success: `IMDCT c` transforms all B lines, multiplies by the window, emits the first half plus the old tail as
`T[c]` and keeps the second half as the new tail, element by element where the arithmetic is specified; the channel
becomes Transformed; nothing else changes, `X[c]` and `QVALID[c]` included. -/
def Obligations.ImdctOverlapAdds : Prop :=
  ∀ (s : State) (c : ChanIx), s.Ready c → s.cfgDir = 0 → (s.chan c).fsm = .loaded →
    (∀ k, k < s.blockSize → F64.finite ((s.chan c).xAt k) = true ∧ F64.finite ((s.chan c).ovAt k) = true) →
    ∃ t, exec (.imdct c) s = .next t ∧ ChannelFrame c s t ∧
      t.chan c = { s.chan c with t := (t.chan c).t, ov := (t.chan c).ov, fsm := .transformed } ∧
      (t.chan c).t.length = s.blockSize ∧ (t.chan c).ov.length = s.blockSize ∧
      let y := Arith.imdct s.cfg ((List.range s.blockSize).map (s.chan c).xAt)
      ∀ n, n < s.blockSize →
        (∀ a b d, y.getD n none = some a → Arith.mul s.cfg.numerics a (s.windowAt n) = some b →
          Arith.add s.cfg.numerics b ((s.chan c).ovAt n) = some d → (t.chan c).tAt n = d) ∧
        (∀ a b, y.getD (n + s.blockSize) none = some a →
          Arith.mul s.cfg.numerics a (s.windowAt (n + s.blockSize)) = some b → (t.chan c).ovAt n = b)

/-- R166, success: `MDCT c` windows the previous block followed by the current one, transforms, and copies `T[c]` into
`OV[c]` bit for bit; line k of `X[c]` is the kernel's element where the arithmetic is specified; the channel becomes
Transformed; nothing else changes, `T[c]` included. -/
def Obligations.MdctTransformsTheConcatenation : Prop :=
  ∀ (s : State) (c : ChanIx), s.Ready c → s.cfgDir = 1 → (s.chan c).fsm = .loaded →
    (∀ k, k < s.blockSize → F64.finite ((s.chan c).ovAt k) = true ∧ F64.finite ((s.chan c).tAt k) = true) →
    ∃ t, exec (.mdct c) s = .next t ∧ ChannelFrame c s t ∧
      t.chan c = { s.chan c with x := (t.chan c).x, ov := (t.chan c).ov, fsm := .transformed } ∧
      (t.chan c).x.length = s.blockSize ∧ (t.chan c).ov.length = s.blockSize ∧
      (∀ n, n < s.blockSize → (t.chan c).ovAt n = (s.chan c).tAt n) ∧
      ∀ zw : Nat → F64,
        (∀ n, n < s.blockSize → Arith.mul s.cfg.numerics ((s.chan c).ovAt n) (s.windowAt n) = some (zw n)) →
        (∀ n, n < s.blockSize →
          Arith.mul s.cfg.numerics ((s.chan c).tAt n) (s.windowAt (n + s.blockSize)) = some (zw (n + s.blockSize))) →
        ∀ k, k < s.blockSize → ∀ y,
          (Arith.mdct s.cfg ((List.range (2 * s.blockSize)).map zw)).getD k none = some y → (t.chan c).xAt k = y

/-- R165, R166 and R136, the data faults: a non-finite input raises `NonFinite` and changes nothing else; `IMDCT` scans `X`
then `OV`, `MDCT` scans `OV` then `T`, the second half with `INFO` = B + n; `QUANT` scans the bands below `CFG_BANDS`,
silent ones included. -/
def Obligations.NonFiniteInputIsReported : Prop :=
  ∀ (s : State) (c : ChanIx) (n : Nat), s.Ready c →
    (s.cfgDir = 0 → (s.chan c).fsm = .loaded → n < s.blockSize →
      (F64.finite ((s.chan c).xAt n) = false → (∀ k, k < n → F64.finite ((s.chan c).xAt k) = true) →
        Raises s ⟨.nonFinite, BitVec.ofNat 16 n⟩ (exec (.imdct c) s)) ∧
      ((∀ k, k < s.blockSize → F64.finite ((s.chan c).xAt k) = true) → F64.finite ((s.chan c).ovAt n) = false →
        (∀ k, k < n → F64.finite ((s.chan c).ovAt k) = true) →
        Raises s ⟨.nonFinite, BitVec.ofNat 16 (s.blockSize + n)⟩ (exec (.imdct c) s))) ∧
    (s.cfgDir = 1 → (s.chan c).fsm = .loaded → n < s.blockSize →
      (F64.finite ((s.chan c).ovAt n) = false → (∀ k, k < n → F64.finite ((s.chan c).ovAt k) = true) →
        Raises s ⟨.nonFinite, BitVec.ofNat 16 n⟩ (exec (.mdct c) s)) ∧
      ((∀ k, k < s.blockSize → F64.finite ((s.chan c).ovAt k) = true) → F64.finite ((s.chan c).tAt n) = false →
        (∀ k, k < n → F64.finite ((s.chan c).tAt k) = true) →
        Raises s ⟨.nonFinite, BitVec.ofNat 16 (s.blockSize + n)⟩ (exec (.mdct c) s))) ∧
    (s.cfgDir = 1 → (s.chan c).fsm = .transformed → (s.chan c).role ≠ 2 → n < s.bands →
      F64.finite ((s.chan c).xAt n) = false → (∀ k, k < n → F64.finite ((s.chan c).xAt k) = true) →
      Raises s ⟨.nonFinite, BitVec.ofNat 16 n⟩ (exec (.quant c) s))

/-- R167: `REL c`, word 0x33000000 + c, raises `SequenceError` 1, 3 or 5, in this order; else a Transformed channel becomes Idle with `QVALID` 0,
and nothing else changes. -/
def Obligations.RelEndsTheFrame : Prop :=
  (∀ c : ChanIx, encode (.rel c) = 0x33000000#32 + c.setWidth 32) ∧ ∀ (s : State) (c : ChanIx), s.cfg.tablesOk = true →
    (s.run = false → Raises s ⟨.sequenceError, 1⟩ (exec (.rel c) s)) ∧
    (s.run = true → s.cfgNch.toNat ≤ c.toNat → Raises s ⟨.sequenceError, 3⟩ (exec (.rel c) s)) ∧
    (s.run = true → c.toNat < s.cfgNch.toNat → (s.chan c).fsm ≠ .transformed →
      Raises s ⟨.sequenceError, 5⟩ (exec (.rel c) s)) ∧
    (s.run = true → c.toNat < s.cfgNch.toNat → (s.chan c).fsm = .transformed →
      ∃ t, exec (.rel c) s = .next t ∧ ChannelFrame c s t ∧
        t.chan c = { s.chan c with fsm := .idle, qvalid := false })

/-- R168 (a), (b) for one frame, every numerics record: zeros in give zeros out and zeros carried, in both directions, when
the window and the scales are finite. -/
def Obligations.SilenceInSilenceOut : Prop :=
  ∀ (s : State) (c : ChanIx), s.Ready c → (s.chan c).fsm = .loaded → s.cfg.ScalesOk →
    (∀ n, n < 2 * s.blockSize → F64.finite (s.windowAt n) = true) →
    (∀ n, n < s.blockSize → F64.isZero ((s.chan c).ovAt n) = true) →
    (s.cfgDir = 0 → (∀ k, k < s.blockSize → F64.isZero ((s.chan c).xAt k) = true) →
      ∃ t, exec (.imdct c) s = .next t ∧ t.resp = ⟨.success, 0⟩ ∧
        ∀ n, n < s.blockSize → F64.isZero ((t.chan c).tAt n) = true ∧ F64.isZero ((t.chan c).ovAt n) = true) ∧
    (s.cfgDir = 1 → (∀ n, n < s.blockSize → F64.isZero ((s.chan c).tAt n) = true) →
      ∃ t, exec (.mdct c) s = .next t ∧ t.resp = ⟨.success, 0⟩ ∧
        ∀ n, n < s.blockSize → F64.isZero ((t.chan c).xAt n) = true ∧ F64.isZero ((t.chan c).ovAt n) = true)

/-- R168 (c): a zero spectrum outputs the stored tail value for value and leaves a zero tail, whatever frames went before,
every numerics record. -/
def Obligations.ZeroSpectrumFlushesTheTail : Prop :=
  ∀ (s : State) (c : ChanIx), s.Ready c → s.cfgDir = 0 → (s.chan c).fsm = .loaded → s.cfg.ScalesOk →
    (∀ n, n < 2 * s.blockSize → F64.finite (s.windowAt n) = true) →
    (∀ n, n < s.blockSize → F64.finite ((s.chan c).ovAt n) = true) →
    (∀ k, k < s.blockSize → F64.isZero ((s.chan c).xAt k) = true) →
    ∃ t, exec (.imdct c) s = .next t ∧ t.resp = ⟨.success, 0⟩ ∧
      ∀ n, n < s.blockSize → F64.scaled ((t.chan c).tAt n) = F64.scaled ((s.chan c).ovAt n) ∧
        F64.isZero ((t.chan c).ovAt n) = true

/-! ### Numerics and tables -/

/-- R163, `NUM_REF.mul`: the product of finite operands whose exact value lies within ±FMAX is the nearest finite F64 to it,
and of two nearest values the one with an even last bit; its sign, a zero's too, is that of the product of the signs; beyond
±FMAX it is unspecified. -/
def Obligations.ReferenceProductIsNearest : Prop :=
  ∀ a b : F64, F64.finite a = true → F64.finite b = true →
    let t : Int := F64.scaled a * F64.scaled b
    (t.natAbs ≤ F64.maxScaled * 2 ^ 1074 →
      ∃ r, F64.refMul a b = some r ∧ F64.finite r = true ∧ F64.sign r = (F64.sign a != F64.sign b) ∧
        ∀ y, F64.finite y = true →
          (F64.scaled r * 2 ^ 1074 - t).natAbs ≤ (F64.scaled y * 2 ^ 1074 - t).natAbs ∧
          ((F64.scaled r * 2 ^ 1074 - t).natAbs = (F64.scaled y * 2 ^ 1074 - t).natAbs →
            F64.scaled y = F64.scaled r ∨ F64.magBits r % 2 = 0)) ∧
    (F64.maxScaled * 2 ^ 1074 < t.natAbs → F64.refMul a b = none)

/-- R163, `NUM_REF.add`: the sum of finite operands whose exact value lies within ±FMAX is the nearest finite F64 to it, and
of two nearest values the one with an even last bit; a zero sum is -0 only if both operands are -0 (IEEE 754), another has
the sign of the exact sum; beyond ±FMAX it is unspecified. -/
def Obligations.ReferenceSumIsNearest : Prop :=
  ∀ a b : F64, F64.finite a = true → F64.finite b = true →
    let t : Int := F64.scaled a + F64.scaled b
    (t.natAbs ≤ F64.maxScaled →
      ∃ r, F64.refAdd a b = some r ∧ F64.finite r = true ∧
        F64.sign r = (if t = 0 then F64.isZero a && F64.sign a && F64.sign b else decide (t < 0)) ∧
        ∀ y, F64.finite y = true →
          (F64.scaled r - t).natAbs ≤ (F64.scaled y - t).natAbs ∧
          ((F64.scaled r - t).natAbs = (F64.scaled y - t).natAbs →
            F64.scaled y = F64.scaled r ∨ F64.magBits r % 2 = 0)) ∧
    (F64.maxScaled < t.natAbs → F64.refAdd a b = none)

/-- R161 to R163, `NUM_REF.imdct` and `NUM_REF.mdct`: with finite operands for which |scale| · Σ|x| lies within ±FMAX, an element
is the scale times the sum, from +0 and ascending, of the rounded products with the row (column) of `COS`, every product and
sum being `NUM_REF`'s. -/
def Obligations.ReferenceKernelsSumAscending : Prop :=
  ∀ (cfg : Cfg) (x acc : Nat → F64) (y : F64), cfg.numerics = .reference → acc 0 = 0 →
    (∀ n, n < 2 * cfg.blockSize → (∀ k, k < cfg.blockSize → F64.finite (x k) = true) →
      F64.scaledMag cfg.sInv * ∑ k ∈ Finset.range cfg.blockSize, F64.scaledMag (x k) ≤ F64.maxScaled * 2 ^ 1074 →
      (∀ k, k < cfg.blockSize → ∃ p, F64.refMul (x k) (Arith.cosEntry cfg.blockSize n k) = some p ∧
        F64.refAdd (acc k) p = some (acc (k + 1))) →
      F64.refMul cfg.sInv (acc cfg.blockSize) = some y →
      (Arith.imdct cfg ((List.range cfg.blockSize).map x)).getD n none = some y) ∧
    (∀ k, k < cfg.blockSize → (∀ n, n < 2 * cfg.blockSize → F64.finite (x n) = true) →
      F64.scaledMag cfg.sFwd * ∑ n ∈ Finset.range (2 * cfg.blockSize), F64.scaledMag (x n) ≤ F64.maxScaled * 2 ^ 1074 →
      (∀ n, n < 2 * cfg.blockSize → ∃ p, F64.refMul (x n) (Arith.cosEntry cfg.blockSize n k) = some p ∧
        F64.refAdd (acc n) p = some (acc (n + 1))) →
      F64.refMul cfg.sFwd (acc (2 * cfg.blockSize)) = some y →
      (Arith.mdct cfg ((List.range (2 * cfg.blockSize)).map x)).getD k none = some y)

/-- R161 to R163: every entry of the reference's `COS` lies within 2^-53 of cos(π (2n + 1 + B) (2k + 1) / (4B)), the cosine of
both kernels. (The rule asks for the correctly rounded value; log 12 says how the model computes it.) -/
def Obligations.ReferenceCosinesAreNear : Prop :=
  ∀ b n k : Nat, 1 ≤ b → |Arith.val (Arith.cosEntry b n k) - Arith.kernelCos b n k| ≤ 1 / 2 ^ 53

/-- R163 N2 and the sign part of N4 hold of every instance with finite non-zero scales: for the reference by its
arithmetic, for another by construction (log 10). -/
def Obligations.NumericsRespectZerosAndSigns : Prop :=
  ∀ cfg : Cfg, cfg.ScalesOk → Arith.N2 cfg ∧
    ∀ a b, F64.finite a = true → F64.finite b = true →
      Arith.mul cfg.numerics (F64.neg a) b = (Arith.mul cfg.numerics a b).map F64.neg

/-- R21 to R26: the level counts and ranges, and the entries of `DEQ_SCALE`, `QUANT_SCALE` and `SCALE_CONV` (128th powers
compared) and of `IRATIO`, each within half a unit in the last place of its formula's value or 0 where the rule says 0. -/
def Obligations.ClosedFormTablesMeetTheirFormulas : Prop :=
  (List.range 16).map Tables.levels = [1, 3, 5, 7, 9, 11, 13, 15, 31, 63, 127, 255, 511, 1023, 2047, 4095] ∧
  (List.range 16).map Tables.qRange = [0, 1, 2, 3, 4, 5, 6, 7, 15, 31, 63, 127, 255, 511, 1023, 2047] ∧
  (∀ x ∈ List.range 64,
    Tables.isNearestPow (Tables.deqScale (BitVec.ofNat 6 x)) (448 + 53 * ((x : Int) - 63)) = true) ∧
  (∀ x ∈ List.range 14,
    2 * (7 * F64.scaled (Tables.iRatio (BitVec.ofNat 4 x)) - (14 - (x : Int)) * 2 ^ 1074).natAbs <
      7 * 2 ^ (F64.magBits (Tables.iRatio (BitVec.ofNat 4 x)) / 2 ^ 52 - 1)) ∧
  Tables.iRatio 14 = 0 ∧ Tables.iRatio 15 = 0 ∧
  (∀ x ∈ List.range 64,
    Tables.isNearestPow (Tables.quantScale (BitVec.ofNat 6 x)) (-(448 + 53 * ((x : Int) - 63))) = true) ∧
  (∀ x ∈ List.range' 2 125,
    Tables.isNearestPow (Tables.scaleConv (BitVec.ofNat 7 x)) (53 * ((x : Int) - 64)) = true) ∧
  Tables.scaleConv 0 = 0 ∧ Tables.scaleConv 1 = 0 ∧ Tables.scaleConv 127 = 0

/-- R98 to R100: the reference code satisfies W1, W2, W3 and W5 for every resolution, and its greatest lengths are those
of R99 and R100. -/
def Obligations.ReferenceCodeIsWellFormed : Prop :=
  Code.Wf .reference ∧
  (List.range 16).map (Code.maxBits .reference) = [0, 2, 3, 3, 4, 4, 4, 4, 5, 6, 7, 8, 9, 10, 11, 12]

/-! ### Host port and bit cursor -/

/-- R64 and R66: an accepted write of `d` to an item other than `CMD` and `STATUS` is read back as the item's low bits
(F64 elements bit for bit, reserved bits 0), and every other item reads as before. -/
def Obligations.HostWriteIsReadBack : Prop :=
  ∀ (s : State) (loc : Loc) (d v : PortWord) (item : Item), (∀ c, (s.chan c).Sized s.blockSize) →
    itemAt s.cfg loc = some item → item.readBack d = some v → (item.locked = true → s.run = false) →
    ∃ t, s.hostWrite loc d = .next t ∧ (t.hostRead loc).portData = v ∧
      ∀ other, other ≠ item → t.readItem other = s.readItem other

/-- R63, R65 and R191: an unmapped location, a write to a read-only item and a write to a locked item while `RUN` = 1 are
refused: `STATUS.ACCERR` is set, a read returns 0, a write is dropped, and nothing else happens. -/
def Obligations.RefusedAccessOnlySetsAccerr : Prop :=
  ∀ (s : State) (loc : Loc),
    (itemAt s.cfg loc = none →
      s.hostRead loc = { s with status := s.status ||| 0x8000#16, portData := 0 } ∧
      ∀ d, s.hostWrite loc d = .next { s with status := s.status ||| 0x8000#16 }) ∧
    ∀ item, itemAt s.cfg loc = some item → (item.readOnly = true ∨ (item.locked = true ∧ s.run = true)) →
      ∀ d, s.hostWrite loc d = .next { s with status := s.status ||| 0x8000#16 }

/-- R63, R65 and R76: a read of a mapped location has no side effect at all, and a read of an unmapped one sets `ACCERR` and
nothing else. (The value read stands in the model's own `portData`, log 3.) -/
def Obligations.HostReadHasNoSideEffect : Prop :=
  ∀ (s : State) (loc : Loc),
    (∀ item, itemAt s.cfg loc = some item → { s.hostRead loc with portData := s.portData } = s) ∧
    (itemAt s.cfg loc = none →
      { s.hostRead loc with portData := s.portData } = { s with status := s.status ||| 0x8000#16 })

/-- R52, R54, R55 and R62, R63: what the host reads of the special registers: `ID`, `PARAM_B` (B), `CMD`, `STATUS` (bits 0 and
9 to 14 read 0), `STATE` (bit 0 `RUN`, bit 1 `TABLES_OK`) and `CHSTAT[c]` (bits 1:0 `FSM[c]`, bit 2 `QVALID[c]`), each at its
location. -/
def Obligations.SpecialRegistersReadAsTheirWords : Prop :=
  ∀ s : State,
    (s.hostRead 0x000000).portData = 0x48534231 ∧
    (s.blockSize ≤ 2048 → (s.hostRead 0x000001).portData.toNat = s.blockSize) ∧
    (s.hostRead 0x000002).portData = s.cmd.setWidth 64 ∧
    (s.hostRead 0x000004).portData = (s.status &&& 0x81FE#16).setWidth 64 ∧
    (s.hostRead 0x000005).portData.toNat = s.run.toNat + 2 * s.cfg.tablesOk.toNat ∧
    ∀ c : ChanIx, (s.hostRead (0x100002#24 ||| (c.setWidth 24 <<< 16))).portData.toNat =
      (match (s.chan c).fsm with
        | .idle => 0
        | .loaded => 1
        | .transformed => 2) + 4 * (s.chan c).qvalid.toNat

/-- R53 and R180: a read of `RESP` gives `INFO` in bits 31:16, 0 in 15:8 and the code of the cause in 7:0, the nine codes
written out; and the bit a fault sets in `STATUS` is that of its code (R54). -/
def Obligations.RespReadsCodeAndInfo : Prop :=
  ∀ (cause : Cause) (code : Nat),
    (cause, code) ∈ [(Cause.success, 0), (.initializationError, 1), (.illegalCommand, 2), (.sequenceError, 3),
      (.invalidConfiguration, 4), (.unsupportedMode, 5), (.bitstreamOverrun, 6), (.rangeError, 7), (.nonFinite, 8)] →
    (∀ (s : State) (info : BitVec 16), s.resp = ⟨cause, info⟩ →
      (s.hostRead 0x000003).portData.toNat = info.toNat * 2 ^ 16 + code) ∧
    ∀ (s t : State) (i : Instr), exec i s = .next t → t.resp.cause = cause → cause ≠ .success →
      t.status = s.status ||| BitVec.ofNat 16 (2 ^ code)

/-- R54: a command that ends with fault code n, 1 to 8, sets bit n; a refused access sets bit 15; bits 0 and 9 to 14 read 0;
a write of v clears the bits where v is 1 and does nothing else; no other access and no command clears a bit; hard reset
clears all. -/
def Obligations.StatusIsStickyAndWriteOneToClear : Prop :=
  (∀ (w : Word) (s t : State), execWord w s = .next t → t.resp.cause ≠ .success →
    1 ≤ t.resp.cause.code.toNat ∧ t.resp.cause.code.toNat ≤ 8 ∧
    t.status = s.status ||| 1#16 <<< t.resp.cause.code.toNat) ∧
  (∀ (s : State) (loc : Loc),
    (itemAt s.cfg loc = none → (s.hostRead loc).status.getLsbD 15 = true) ∧
    ((itemAt s.cfg loc = none ∨ ∃ item, itemAt s.cfg loc = some item ∧
        (item.readOnly = true ∨ (item.locked = true ∧ s.run = true))) →
      ∀ d, ∃ t, s.hostWrite loc d = .next t ∧ t.status.getLsbD 15 = true)) ∧
  (∀ (s : State) (loc : Loc), itemAt s.cfg loc = some .status → (s.hostRead loc).portData &&& 0x7E01#64 = 0) ∧
  (∀ (s t : State) (rest : List HostAccess), s.pending = .hardReset :: rest → step s = .next t → t.status = 0) ∧
  (∀ (s : State) (loc : Loc) (d : PortWord), itemAt s.cfg loc = some .status →
    s.hostWrite loc d = .next { s with status := s.status &&& ~~~(d.setWidth 16) }) ∧
  ∀ s t : State, step s = .next t → (∀ rest, s.pending ≠ .hardReset :: rest) →
    (∀ loc d rest, s.pending = .write loc d :: rest → itemAt s.cfg loc ≠ some .status) →
    t.status &&& s.status = s.status

/-- R64: no host write other than to `CMD` changes `FSM`, `QVALID`, `RUN` or `RESP`. -/
def Obligations.DataWritesLeaveSequencing : Prop :=
  ∀ (s t : State) (loc : Loc) (d : PortWord), itemAt s.cfg loc ≠ some .cmd → s.hostWrite loc d = .next t →
    t.run = s.run ∧ t.resp = s.resp ∧ t.cmd = s.cmd ∧
    ∀ c, (t.chan c).fsm = (s.chan c).fsm ∧ (t.chan c).qvalid = (s.chan c).qvalid

/-- R68 and R69: `BitRead(p, n)` is the sum over i < n of frame bit p + i times 2^(n-1-i), frame bit p being bit
7 - p mod 8 of byte p div 8. -/
def Obligations.BitReadIsBigEndian : Prop :=
  ∀ (s : State) (p n : Nat), n ≤ 32 → s.bitRead p n =
    ∑ i ∈ Finset.range n, (s.fbByte ((p + i) / 8)).toNat / 2 ^ (7 - (p + i) % 8) % 2 * 2 ^ (n - 1 - i)

/-- R70: `BitWrite(p, n, v)` stores v as the field of n bits at bit p, most significant first, and leaves every other bit of
`FB` and everything else as it was. -/
def Obligations.BitWriteStoresTheField : Prop :=
  ∀ (s : State) (p n v : Nat), n ≤ 32 → v < 2 ^ n →
    (∀ j, (s.bitWrite p n v).frameBit j =
      if p ≤ j ∧ j < p + n then v.testBit (n - 1 - (j - p)) else s.frameBit j) ∧
    { s.bitWrite p n v with fb := s.fb } = s
end

