-- ==== Sys2Proof/Laws/State.lean ====
section
/-! SUPPORT. What each named update of the state does to each field: one lemma per field and update, so that no proof
unfolds a record update. -/

namespace Sys2Proof.Machine

variable (s : State)

/-! ### `State.setChan` -/

@[simp] theorem State.setChan_cfg (c : ChanIx) (k : Chan) : (s.setChan c k).cfg = s.cfg := rfl
@[simp] theorem State.setChan_chans (c : ChanIx) (k : Chan) : (s.setChan c k).chans = s.chans.set c.toNat k c.isLt := rfl
@[simp] theorem State.setChan_fb (c : ChanIx) (k : Chan) : (s.setChan c k).fb = s.fb := rfl
@[simp] theorem State.setChan_fbDraw (c : ChanIx) (k : Chan) : (s.setChan c k).fbDraw = s.fbDraw := rfl
@[simp] theorem State.setChan_cfgNch (c : ChanIx) (k : Chan) : (s.setChan c k).cfgNch = s.cfgNch := rfl
@[simp] theorem State.setChan_cfgBands (c : ChanIx) (k : Chan) : (s.setChan c k).cfgBands = s.cfgBands := rfl
@[simp] theorem State.setChan_cfgDir (c : ChanIx) (k : Chan) : (s.setChan c k).cfgDir = s.cfgDir := rfl
@[simp] theorem State.setChan_cplMode (c : ChanIx) (k : Chan) : (s.setChan c k).cplMode = s.cplMode := rfl
@[simp] theorem State.setChan_bcPos (c : ChanIx) (k : Chan) : (s.setChan c k).bcPos = s.bcPos := rfl
@[simp] theorem State.setChan_bcLimit (c : ChanIx) (k : Chan) : (s.setChan c k).bcLimit = s.bcLimit := rfl
@[simp] theorem State.setChan_run (c : ChanIx) (k : Chan) : (s.setChan c k).run = s.run := rfl
@[simp] theorem State.setChan_cmd (c : ChanIx) (k : Chan) : (s.setChan c k).cmd = s.cmd := rfl
@[simp] theorem State.setChan_resp (c : ChanIx) (k : Chan) : (s.setChan c k).resp = s.resp := rfl
@[simp] theorem State.setChan_status (c : ChanIx) (k : Chan) : (s.setChan c k).status = s.status := rfl
@[simp] theorem State.setChan_portData (c : ChanIx) (k : Chan) : (s.setChan c k).portData = s.portData := rfl
@[simp] theorem State.setChan_pending (c : ChanIx) (k : Chan) : (s.setChan c k).pending = s.pending := rfl
@[simp] theorem State.setChan_draws (c : ChanIx) (k : Chan) : (s.setChan c k).draws = s.draws := rfl

/-! ### `State.mapChans` -/

@[simp] theorem State.mapChans_cfg (f : Chan → Chan) : (s.mapChans f).cfg = s.cfg := rfl
@[simp] theorem State.mapChans_chans (f : Chan → Chan) : (s.mapChans f).chans = Vector.ofFn fun i => f s.chans[i] := rfl
@[simp] theorem State.mapChans_fb (f : Chan → Chan) : (s.mapChans f).fb = s.fb := rfl
@[simp] theorem State.mapChans_fbDraw (f : Chan → Chan) : (s.mapChans f).fbDraw = s.fbDraw := rfl
@[simp] theorem State.mapChans_cfgNch (f : Chan → Chan) : (s.mapChans f).cfgNch = s.cfgNch := rfl
@[simp] theorem State.mapChans_cfgBands (f : Chan → Chan) : (s.mapChans f).cfgBands = s.cfgBands := rfl
@[simp] theorem State.mapChans_cfgDir (f : Chan → Chan) : (s.mapChans f).cfgDir = s.cfgDir := rfl
@[simp] theorem State.mapChans_cplMode (f : Chan → Chan) : (s.mapChans f).cplMode = s.cplMode := rfl
@[simp] theorem State.mapChans_bcPos (f : Chan → Chan) : (s.mapChans f).bcPos = s.bcPos := rfl
@[simp] theorem State.mapChans_bcLimit (f : Chan → Chan) : (s.mapChans f).bcLimit = s.bcLimit := rfl
@[simp] theorem State.mapChans_run (f : Chan → Chan) : (s.mapChans f).run = s.run := rfl
@[simp] theorem State.mapChans_cmd (f : Chan → Chan) : (s.mapChans f).cmd = s.cmd := rfl
@[simp] theorem State.mapChans_resp (f : Chan → Chan) : (s.mapChans f).resp = s.resp := rfl
@[simp] theorem State.mapChans_status (f : Chan → Chan) : (s.mapChans f).status = s.status := rfl
@[simp] theorem State.mapChans_portData (f : Chan → Chan) : (s.mapChans f).portData = s.portData := rfl
@[simp] theorem State.mapChans_pending (f : Chan → Chan) : (s.mapChans f).pending = s.pending := rfl
@[simp] theorem State.mapChans_draws (f : Chan → Chan) : (s.mapChans f).draws = s.draws := rfl

/-! ### `State.setRun` -/

@[simp] theorem State.setRun_cfg (b : Bool) : (s.setRun b).cfg = s.cfg := rfl
@[simp] theorem State.setRun_chans (b : Bool) : (s.setRun b).chans = s.chans := rfl
@[simp] theorem State.setRun_fb (b : Bool) : (s.setRun b).fb = s.fb := rfl
@[simp] theorem State.setRun_fbDraw (b : Bool) : (s.setRun b).fbDraw = s.fbDraw := rfl
@[simp] theorem State.setRun_cfgNch (b : Bool) : (s.setRun b).cfgNch = s.cfgNch := rfl
@[simp] theorem State.setRun_cfgBands (b : Bool) : (s.setRun b).cfgBands = s.cfgBands := rfl
@[simp] theorem State.setRun_cfgDir (b : Bool) : (s.setRun b).cfgDir = s.cfgDir := rfl
@[simp] theorem State.setRun_cplMode (b : Bool) : (s.setRun b).cplMode = s.cplMode := rfl
@[simp] theorem State.setRun_bcPos (b : Bool) : (s.setRun b).bcPos = s.bcPos := rfl
@[simp] theorem State.setRun_bcLimit (b : Bool) : (s.setRun b).bcLimit = s.bcLimit := rfl
@[simp] theorem State.setRun_run (b : Bool) : (s.setRun b).run = b := rfl
@[simp] theorem State.setRun_cmd (b : Bool) : (s.setRun b).cmd = s.cmd := rfl
@[simp] theorem State.setRun_resp (b : Bool) : (s.setRun b).resp = s.resp := rfl
@[simp] theorem State.setRun_status (b : Bool) : (s.setRun b).status = s.status := rfl
@[simp] theorem State.setRun_portData (b : Bool) : (s.setRun b).portData = s.portData := rfl
@[simp] theorem State.setRun_pending (b : Bool) : (s.setRun b).pending = s.pending := rfl
@[simp] theorem State.setRun_draws (b : Bool) : (s.setRun b).draws = s.draws := rfl

/-! ### `State.setBcPos` -/

@[simp] theorem State.setBcPos_cfg (p : Nat) : (s.setBcPos p).cfg = s.cfg := rfl
@[simp] theorem State.setBcPos_chans (p : Nat) : (s.setBcPos p).chans = s.chans := rfl
@[simp] theorem State.setBcPos_fb (p : Nat) : (s.setBcPos p).fb = s.fb := rfl
@[simp] theorem State.setBcPos_fbDraw (p : Nat) : (s.setBcPos p).fbDraw = s.fbDraw := rfl
@[simp] theorem State.setBcPos_cfgNch (p : Nat) : (s.setBcPos p).cfgNch = s.cfgNch := rfl
@[simp] theorem State.setBcPos_cfgBands (p : Nat) : (s.setBcPos p).cfgBands = s.cfgBands := rfl
@[simp] theorem State.setBcPos_cfgDir (p : Nat) : (s.setBcPos p).cfgDir = s.cfgDir := rfl
@[simp] theorem State.setBcPos_cplMode (p : Nat) : (s.setBcPos p).cplMode = s.cplMode := rfl
@[simp] theorem State.setBcPos_bcPos (p : Nat) : (s.setBcPos p).bcPos = BitVec.ofNat 24 p := rfl
@[simp] theorem State.setBcPos_bcLimit (p : Nat) : (s.setBcPos p).bcLimit = s.bcLimit := rfl
@[simp] theorem State.setBcPos_run (p : Nat) : (s.setBcPos p).run = s.run := rfl
@[simp] theorem State.setBcPos_cmd (p : Nat) : (s.setBcPos p).cmd = s.cmd := rfl
@[simp] theorem State.setBcPos_resp (p : Nat) : (s.setBcPos p).resp = s.resp := rfl
@[simp] theorem State.setBcPos_status (p : Nat) : (s.setBcPos p).status = s.status := rfl
@[simp] theorem State.setBcPos_portData (p : Nat) : (s.setBcPos p).portData = s.portData := rfl
@[simp] theorem State.setBcPos_pending (p : Nat) : (s.setBcPos p).pending = s.pending := rfl
@[simp] theorem State.setBcPos_draws (p : Nat) : (s.setBcPos p).draws = s.draws := rfl

/-! ### `State.setCmd` -/

@[simp] theorem State.setCmd_cfg (w : Word) : (s.setCmd w).cfg = s.cfg := rfl
@[simp] theorem State.setCmd_chans (w : Word) : (s.setCmd w).chans = s.chans := rfl
@[simp] theorem State.setCmd_fb (w : Word) : (s.setCmd w).fb = s.fb := rfl
@[simp] theorem State.setCmd_fbDraw (w : Word) : (s.setCmd w).fbDraw = s.fbDraw := rfl
@[simp] theorem State.setCmd_cfgNch (w : Word) : (s.setCmd w).cfgNch = s.cfgNch := rfl
@[simp] theorem State.setCmd_cfgBands (w : Word) : (s.setCmd w).cfgBands = s.cfgBands := rfl
@[simp] theorem State.setCmd_cfgDir (w : Word) : (s.setCmd w).cfgDir = s.cfgDir := rfl
@[simp] theorem State.setCmd_cplMode (w : Word) : (s.setCmd w).cplMode = s.cplMode := rfl
@[simp] theorem State.setCmd_bcPos (w : Word) : (s.setCmd w).bcPos = s.bcPos := rfl
@[simp] theorem State.setCmd_bcLimit (w : Word) : (s.setCmd w).bcLimit = s.bcLimit := rfl
@[simp] theorem State.setCmd_run (w : Word) : (s.setCmd w).run = s.run := rfl
@[simp] theorem State.setCmd_cmd (w : Word) : (s.setCmd w).cmd = w := rfl
@[simp] theorem State.setCmd_resp (w : Word) : (s.setCmd w).resp = s.resp := rfl
@[simp] theorem State.setCmd_status (w : Word) : (s.setCmd w).status = s.status := rfl
@[simp] theorem State.setCmd_portData (w : Word) : (s.setCmd w).portData = s.portData := rfl
@[simp] theorem State.setCmd_pending (w : Word) : (s.setCmd w).pending = s.pending := rfl
@[simp] theorem State.setCmd_draws (w : Word) : (s.setCmd w).draws = s.draws := rfl

/-! ### `State.setPortData` -/

@[simp] theorem State.setPortData_cfg (d : PortWord) : (s.setPortData d).cfg = s.cfg := rfl
@[simp] theorem State.setPortData_chans (d : PortWord) : (s.setPortData d).chans = s.chans := rfl
@[simp] theorem State.setPortData_fb (d : PortWord) : (s.setPortData d).fb = s.fb := rfl
@[simp] theorem State.setPortData_fbDraw (d : PortWord) : (s.setPortData d).fbDraw = s.fbDraw := rfl
@[simp] theorem State.setPortData_cfgNch (d : PortWord) : (s.setPortData d).cfgNch = s.cfgNch := rfl
@[simp] theorem State.setPortData_cfgBands (d : PortWord) : (s.setPortData d).cfgBands = s.cfgBands := rfl
@[simp] theorem State.setPortData_cfgDir (d : PortWord) : (s.setPortData d).cfgDir = s.cfgDir := rfl
@[simp] theorem State.setPortData_cplMode (d : PortWord) : (s.setPortData d).cplMode = s.cplMode := rfl
@[simp] theorem State.setPortData_bcPos (d : PortWord) : (s.setPortData d).bcPos = s.bcPos := rfl
@[simp] theorem State.setPortData_bcLimit (d : PortWord) : (s.setPortData d).bcLimit = s.bcLimit := rfl
@[simp] theorem State.setPortData_run (d : PortWord) : (s.setPortData d).run = s.run := rfl
@[simp] theorem State.setPortData_cmd (d : PortWord) : (s.setPortData d).cmd = s.cmd := rfl
@[simp] theorem State.setPortData_resp (d : PortWord) : (s.setPortData d).resp = s.resp := rfl
@[simp] theorem State.setPortData_status (d : PortWord) : (s.setPortData d).status = s.status := rfl
@[simp] theorem State.setPortData_portData (d : PortWord) : (s.setPortData d).portData = d := rfl
@[simp] theorem State.setPortData_pending (d : PortWord) : (s.setPortData d).pending = s.pending := rfl
@[simp] theorem State.setPortData_draws (d : PortWord) : (s.setPortData d).draws = s.draws := rfl

/-! ### `State.setPending` -/

@[simp] theorem State.setPending_cfg (rest : List HostAccess) : (s.setPending rest).cfg = s.cfg := rfl
@[simp] theorem State.setPending_chans (rest : List HostAccess) : (s.setPending rest).chans = s.chans := rfl
@[simp] theorem State.setPending_fb (rest : List HostAccess) : (s.setPending rest).fb = s.fb := rfl
@[simp] theorem State.setPending_fbDraw (rest : List HostAccess) : (s.setPending rest).fbDraw = s.fbDraw := rfl
@[simp] theorem State.setPending_cfgNch (rest : List HostAccess) : (s.setPending rest).cfgNch = s.cfgNch := rfl
@[simp] theorem State.setPending_cfgBands (rest : List HostAccess) : (s.setPending rest).cfgBands = s.cfgBands := rfl
@[simp] theorem State.setPending_cfgDir (rest : List HostAccess) : (s.setPending rest).cfgDir = s.cfgDir := rfl
@[simp] theorem State.setPending_cplMode (rest : List HostAccess) : (s.setPending rest).cplMode = s.cplMode := rfl
@[simp] theorem State.setPending_bcPos (rest : List HostAccess) : (s.setPending rest).bcPos = s.bcPos := rfl
@[simp] theorem State.setPending_bcLimit (rest : List HostAccess) : (s.setPending rest).bcLimit = s.bcLimit := rfl
@[simp] theorem State.setPending_run (rest : List HostAccess) : (s.setPending rest).run = s.run := rfl
@[simp] theorem State.setPending_cmd (rest : List HostAccess) : (s.setPending rest).cmd = s.cmd := rfl
@[simp] theorem State.setPending_resp (rest : List HostAccess) : (s.setPending rest).resp = s.resp := rfl
@[simp] theorem State.setPending_status (rest : List HostAccess) : (s.setPending rest).status = s.status := rfl
@[simp] theorem State.setPending_portData (rest : List HostAccess) : (s.setPending rest).portData = s.portData := rfl
@[simp] theorem State.setPending_pending (rest : List HostAccess) : (s.setPending rest).pending = rest := rfl
@[simp] theorem State.setPending_draws (rest : List HostAccess) : (s.setPending rest).draws = s.draws := rfl

/-! ### `State.setFbByte` -/

@[simp] theorem State.setFbByte_cfg (i : Nat) (b : Byte) : (s.setFbByte i b).cfg = s.cfg := rfl
@[simp] theorem State.setFbByte_chans (i : Nat) (b : Byte) : (s.setFbByte i b).chans = s.chans := rfl
@[simp] theorem State.setFbByte_fb (i : Nat) (b : Byte) : (s.setFbByte i b).fb = s.fb.write i b := rfl
@[simp] theorem State.setFbByte_fbDraw (i : Nat) (b : Byte) : (s.setFbByte i b).fbDraw = s.fbDraw := rfl
@[simp] theorem State.setFbByte_cfgNch (i : Nat) (b : Byte) : (s.setFbByte i b).cfgNch = s.cfgNch := rfl
@[simp] theorem State.setFbByte_cfgBands (i : Nat) (b : Byte) : (s.setFbByte i b).cfgBands = s.cfgBands := rfl
@[simp] theorem State.setFbByte_cfgDir (i : Nat) (b : Byte) : (s.setFbByte i b).cfgDir = s.cfgDir := rfl
@[simp] theorem State.setFbByte_cplMode (i : Nat) (b : Byte) : (s.setFbByte i b).cplMode = s.cplMode := rfl
@[simp] theorem State.setFbByte_bcPos (i : Nat) (b : Byte) : (s.setFbByte i b).bcPos = s.bcPos := rfl
@[simp] theorem State.setFbByte_bcLimit (i : Nat) (b : Byte) : (s.setFbByte i b).bcLimit = s.bcLimit := rfl
@[simp] theorem State.setFbByte_run (i : Nat) (b : Byte) : (s.setFbByte i b).run = s.run := rfl
@[simp] theorem State.setFbByte_cmd (i : Nat) (b : Byte) : (s.setFbByte i b).cmd = s.cmd := rfl
@[simp] theorem State.setFbByte_resp (i : Nat) (b : Byte) : (s.setFbByte i b).resp = s.resp := rfl
@[simp] theorem State.setFbByte_status (i : Nat) (b : Byte) : (s.setFbByte i b).status = s.status := rfl
@[simp] theorem State.setFbByte_portData (i : Nat) (b : Byte) : (s.setFbByte i b).portData = s.portData := rfl
@[simp] theorem State.setFbByte_pending (i : Nat) (b : Byte) : (s.setFbByte i b).pending = s.pending := rfl
@[simp] theorem State.setFbByte_draws (i : Nat) (b : Byte) : (s.setFbByte i b).draws = s.draws := rfl

/-! ### `State.complete` -/

@[simp] theorem State.complete_cfg : (s.complete).cfg = s.cfg := rfl
@[simp] theorem State.complete_chans : (s.complete).chans = s.chans := rfl
@[simp] theorem State.complete_fb : (s.complete).fb = s.fb := rfl
@[simp] theorem State.complete_fbDraw : (s.complete).fbDraw = s.fbDraw := rfl
@[simp] theorem State.complete_cfgNch : (s.complete).cfgNch = s.cfgNch := rfl
@[simp] theorem State.complete_cfgBands : (s.complete).cfgBands = s.cfgBands := rfl
@[simp] theorem State.complete_cfgDir : (s.complete).cfgDir = s.cfgDir := rfl
@[simp] theorem State.complete_cplMode : (s.complete).cplMode = s.cplMode := rfl
@[simp] theorem State.complete_bcPos : (s.complete).bcPos = s.bcPos := rfl
@[simp] theorem State.complete_bcLimit : (s.complete).bcLimit = s.bcLimit := rfl
@[simp] theorem State.complete_run : (s.complete).run = s.run := rfl
@[simp] theorem State.complete_cmd : (s.complete).cmd = s.cmd := rfl
@[simp] theorem State.complete_resp : (s.complete).resp = ⟨.success, 0⟩ := rfl
@[simp] theorem State.complete_status : (s.complete).status = s.status := rfl
@[simp] theorem State.complete_portData : (s.complete).portData = s.portData := rfl
@[simp] theorem State.complete_pending : (s.complete).pending = s.pending := rfl
@[simp] theorem State.complete_draws : (s.complete).draws = s.draws := rfl

/-! ### `State.raise` -/

@[simp] theorem State.raise_cfg (r : Resp) : (s.raise r).cfg = s.cfg := rfl
@[simp] theorem State.raise_chans (r : Resp) : (s.raise r).chans = s.chans := rfl
@[simp] theorem State.raise_fb (r : Resp) : (s.raise r).fb = s.fb := rfl
@[simp] theorem State.raise_fbDraw (r : Resp) : (s.raise r).fbDraw = s.fbDraw := rfl
@[simp] theorem State.raise_cfgNch (r : Resp) : (s.raise r).cfgNch = s.cfgNch := rfl
@[simp] theorem State.raise_cfgBands (r : Resp) : (s.raise r).cfgBands = s.cfgBands := rfl
@[simp] theorem State.raise_cfgDir (r : Resp) : (s.raise r).cfgDir = s.cfgDir := rfl
@[simp] theorem State.raise_cplMode (r : Resp) : (s.raise r).cplMode = s.cplMode := rfl
@[simp] theorem State.raise_bcPos (r : Resp) : (s.raise r).bcPos = s.bcPos := rfl
@[simp] theorem State.raise_bcLimit (r : Resp) : (s.raise r).bcLimit = s.bcLimit := rfl
@[simp] theorem State.raise_run (r : Resp) : (s.raise r).run = s.run := rfl
@[simp] theorem State.raise_cmd (r : Resp) : (s.raise r).cmd = s.cmd := rfl
@[simp] theorem State.raise_resp (r : Resp) : (s.raise r).resp = r := rfl
@[simp] theorem State.raise_status (r : Resp) : (s.raise r).status = s.status ||| r.cause.statusBit := rfl
@[simp] theorem State.raise_portData (r : Resp) : (s.raise r).portData = s.portData := rfl
@[simp] theorem State.raise_pending (r : Resp) : (s.raise r).pending = s.pending := rfl
@[simp] theorem State.raise_draws (r : Resp) : (s.raise r).draws = s.draws := rfl

/-! ### `State.accessError` -/

@[simp] theorem State.accessError_cfg : (s.accessError).cfg = s.cfg := rfl
@[simp] theorem State.accessError_chans : (s.accessError).chans = s.chans := rfl
@[simp] theorem State.accessError_fb : (s.accessError).fb = s.fb := rfl
@[simp] theorem State.accessError_fbDraw : (s.accessError).fbDraw = s.fbDraw := rfl
@[simp] theorem State.accessError_cfgNch : (s.accessError).cfgNch = s.cfgNch := rfl
@[simp] theorem State.accessError_cfgBands : (s.accessError).cfgBands = s.cfgBands := rfl
@[simp] theorem State.accessError_cfgDir : (s.accessError).cfgDir = s.cfgDir := rfl
@[simp] theorem State.accessError_cplMode : (s.accessError).cplMode = s.cplMode := rfl
@[simp] theorem State.accessError_bcPos : (s.accessError).bcPos = s.bcPos := rfl
@[simp] theorem State.accessError_bcLimit : (s.accessError).bcLimit = s.bcLimit := rfl
@[simp] theorem State.accessError_run : (s.accessError).run = s.run := rfl
@[simp] theorem State.accessError_cmd : (s.accessError).cmd = s.cmd := rfl
@[simp] theorem State.accessError_resp : (s.accessError).resp = s.resp := rfl
@[simp] theorem State.accessError_status : (s.accessError).status = s.status ||| 0x8000#16 := rfl
@[simp] theorem State.accessError_portData : (s.accessError).portData = s.portData := rfl
@[simp] theorem State.accessError_pending : (s.accessError).pending = s.pending := rfl
@[simp] theorem State.accessError_draws : (s.accessError).draws = s.draws := rfl

/-! ### `State.drawn` -/

@[simp] theorem State.drawn_cfg : (s.drawn).cfg = s.cfg := rfl
@[simp] theorem State.drawn_chans : (s.drawn).chans = s.chans := rfl
@[simp] theorem State.drawn_fb : (s.drawn).fb = s.fb := rfl
@[simp] theorem State.drawn_fbDraw : (s.drawn).fbDraw = s.fbDraw := rfl
@[simp] theorem State.drawn_cfgNch : (s.drawn).cfgNch = s.cfgNch := rfl
@[simp] theorem State.drawn_cfgBands : (s.drawn).cfgBands = s.cfgBands := rfl
@[simp] theorem State.drawn_cfgDir : (s.drawn).cfgDir = s.cfgDir := rfl
@[simp] theorem State.drawn_cplMode : (s.drawn).cplMode = s.cplMode := rfl
@[simp] theorem State.drawn_bcPos : (s.drawn).bcPos = s.bcPos := rfl
@[simp] theorem State.drawn_bcLimit : (s.drawn).bcLimit = s.bcLimit := rfl
@[simp] theorem State.drawn_run : (s.drawn).run = s.run := rfl
@[simp] theorem State.drawn_cmd : (s.drawn).cmd = s.cmd := rfl
@[simp] theorem State.drawn_resp : (s.drawn).resp = s.resp := rfl
@[simp] theorem State.drawn_status : (s.drawn).status = s.status := rfl
@[simp] theorem State.drawn_portData : (s.drawn).portData = s.portData := rfl
@[simp] theorem State.drawn_pending : (s.drawn).pending = s.pending := rfl
@[simp] theorem State.drawn_draws : (s.drawn).draws = s.draws + 1 := rfl

/-! ### `State.clearStatus` -/

@[simp] theorem State.clearStatus_cfg (d : BitVec 16) : (s.clearStatus d).cfg = s.cfg := rfl
@[simp] theorem State.clearStatus_chans (d : BitVec 16) : (s.clearStatus d).chans = s.chans := rfl
@[simp] theorem State.clearStatus_fb (d : BitVec 16) : (s.clearStatus d).fb = s.fb := rfl
@[simp] theorem State.clearStatus_fbDraw (d : BitVec 16) : (s.clearStatus d).fbDraw = s.fbDraw := rfl
@[simp] theorem State.clearStatus_cfgNch (d : BitVec 16) : (s.clearStatus d).cfgNch = s.cfgNch := rfl
@[simp] theorem State.clearStatus_cfgBands (d : BitVec 16) : (s.clearStatus d).cfgBands = s.cfgBands := rfl
@[simp] theorem State.clearStatus_cfgDir (d : BitVec 16) : (s.clearStatus d).cfgDir = s.cfgDir := rfl
@[simp] theorem State.clearStatus_cplMode (d : BitVec 16) : (s.clearStatus d).cplMode = s.cplMode := rfl
@[simp] theorem State.clearStatus_bcPos (d : BitVec 16) : (s.clearStatus d).bcPos = s.bcPos := rfl
@[simp] theorem State.clearStatus_bcLimit (d : BitVec 16) : (s.clearStatus d).bcLimit = s.bcLimit := rfl
@[simp] theorem State.clearStatus_run (d : BitVec 16) : (s.clearStatus d).run = s.run := rfl
@[simp] theorem State.clearStatus_cmd (d : BitVec 16) : (s.clearStatus d).cmd = s.cmd := rfl
@[simp] theorem State.clearStatus_resp (d : BitVec 16) : (s.clearStatus d).resp = s.resp := rfl
@[simp] theorem State.clearStatus_status (d : BitVec 16) : (s.clearStatus d).status = s.status &&& ~~~d := rfl
@[simp] theorem State.clearStatus_portData (d : BitVec 16) : (s.clearStatus d).portData = s.portData := rfl
@[simp] theorem State.clearStatus_pending (d : BitVec 16) : (s.clearStatus d).pending = s.pending := rfl
@[simp] theorem State.clearStatus_draws (d : BitVec 16) : (s.clearStatus d).draws = s.draws := rfl

/-! ### `State.hardReset` -/

@[simp] theorem State.hardReset_cfg : (s.hardReset).cfg = s.cfg := rfl
@[simp] theorem State.hardReset_chans : (s.hardReset).chans = Vector.ofFn fun c => Chan.powerOn s.cfg.blockSize s.draws c.val := rfl
@[simp] theorem State.hardReset_fb : (s.hardReset).fb = [] := rfl
@[simp] theorem State.hardReset_fbDraw : (s.hardReset).fbDraw = s.draws := rfl
@[simp] theorem State.hardReset_cfgNch : (s.hardReset).cfgNch = 0 := rfl
@[simp] theorem State.hardReset_cfgBands : (s.hardReset).cfgBands = 0 := rfl
@[simp] theorem State.hardReset_cfgDir : (s.hardReset).cfgDir = 0 := rfl
@[simp] theorem State.hardReset_cplMode : (s.hardReset).cplMode = 0 := rfl
@[simp] theorem State.hardReset_bcPos : (s.hardReset).bcPos = 0 := rfl
@[simp] theorem State.hardReset_bcLimit : (s.hardReset).bcLimit = 0 := rfl
@[simp] theorem State.hardReset_run : (s.hardReset).run = false := rfl
@[simp] theorem State.hardReset_cmd : (s.hardReset).cmd = 0 := rfl
@[simp] theorem State.hardReset_resp : (s.hardReset).resp = ⟨.success, 0⟩ := rfl
@[simp] theorem State.hardReset_status : (s.hardReset).status = 0 := rfl
@[simp] theorem State.hardReset_portData : (s.hardReset).portData = 0 := rfl
@[simp] theorem State.hardReset_pending : (s.hardReset).pending = s.pending := rfl
@[simp] theorem State.hardReset_draws : (s.hardReset).draws = s.draws + 1 := rfl

/-! ### Accessors that depend on one field -/

theorem State.chan_congr (t : State) (h : t.chans = s.chans) (c : ChanIx) : t.chan c = s.chan c := by
  simp only [State.chan, h]

theorem State.fbByte_congr (t : State) (h : t.fb = s.fb) (h' : t.fbDraw = s.fbDraw) (i : Nat) :
    t.fbByte i = s.fbByte i := by
  simp only [State.fbByte, h, h']

theorem State.frameBit_congr (t : State) (h : t.fb = s.fb) (h' : t.fbDraw = s.fbDraw) (p : Nat) :
    t.frameBit p = s.frameBit p := by
  simp only [State.frameBit, s.fbByte_congr t h h']

@[simp] theorem State.setChan_fbByte (c : ChanIx) (k : Chan) (j : Nat) : (s.setChan c k).fbByte j = s.fbByte j := rfl
@[simp] theorem State.setChan_frameBit (c : ChanIx) (k : Chan) (j : Nat) : (s.setChan c k).frameBit j = s.frameBit j := rfl
@[simp] theorem State.mapChans_fbByte (f : Chan → Chan) (j : Nat) : (s.mapChans f).fbByte j = s.fbByte j := rfl
@[simp] theorem State.mapChans_frameBit (f : Chan → Chan) (j : Nat) : (s.mapChans f).frameBit j = s.frameBit j := rfl
@[simp] theorem State.setRun_chan (b : Bool) (d' : ChanIx) : (s.setRun b).chan d' = s.chan d' := rfl
@[simp] theorem State.setRun_fbByte (b : Bool) (j : Nat) : (s.setRun b).fbByte j = s.fbByte j := rfl
@[simp] theorem State.setRun_frameBit (b : Bool) (j : Nat) : (s.setRun b).frameBit j = s.frameBit j := rfl
@[simp] theorem State.setBcPos_chan (p : Nat) (d' : ChanIx) : (s.setBcPos p).chan d' = s.chan d' := rfl
@[simp] theorem State.setBcPos_fbByte (p : Nat) (j : Nat) : (s.setBcPos p).fbByte j = s.fbByte j := rfl
@[simp] theorem State.setBcPos_frameBit (p : Nat) (j : Nat) : (s.setBcPos p).frameBit j = s.frameBit j := rfl
@[simp] theorem State.setCmd_chan (w : Word) (d' : ChanIx) : (s.setCmd w).chan d' = s.chan d' := rfl
@[simp] theorem State.setCmd_fbByte (w : Word) (j : Nat) : (s.setCmd w).fbByte j = s.fbByte j := rfl
@[simp] theorem State.setCmd_frameBit (w : Word) (j : Nat) : (s.setCmd w).frameBit j = s.frameBit j := rfl
@[simp] theorem State.setPortData_chan (d : PortWord) (d' : ChanIx) : (s.setPortData d).chan d' = s.chan d' := rfl
@[simp] theorem State.setPortData_fbByte (d : PortWord) (j : Nat) : (s.setPortData d).fbByte j = s.fbByte j := rfl
@[simp] theorem State.setPortData_frameBit (d : PortWord) (j : Nat) : (s.setPortData d).frameBit j = s.frameBit j := rfl
@[simp] theorem State.setPending_chan (rest : List HostAccess) (d' : ChanIx) : (s.setPending rest).chan d' = s.chan d' := rfl
@[simp] theorem State.setPending_fbByte (rest : List HostAccess) (j : Nat) : (s.setPending rest).fbByte j = s.fbByte j := rfl
@[simp] theorem State.setPending_frameBit (rest : List HostAccess) (j : Nat) : (s.setPending rest).frameBit j = s.frameBit j := rfl
@[simp] theorem State.setFbByte_chan (i : Nat) (b : Byte) (d' : ChanIx) : (s.setFbByte i b).chan d' = s.chan d' := rfl
@[simp] theorem State.complete_chan (d' : ChanIx) : (s.complete).chan d' = s.chan d' := rfl
@[simp] theorem State.complete_fbByte (j : Nat) : (s.complete).fbByte j = s.fbByte j := rfl
@[simp] theorem State.complete_frameBit (j : Nat) : (s.complete).frameBit j = s.frameBit j := rfl
@[simp] theorem State.raise_chan (r : Resp) (d' : ChanIx) : (s.raise r).chan d' = s.chan d' := rfl
@[simp] theorem State.raise_fbByte (r : Resp) (j : Nat) : (s.raise r).fbByte j = s.fbByte j := rfl
@[simp] theorem State.raise_frameBit (r : Resp) (j : Nat) : (s.raise r).frameBit j = s.frameBit j := rfl
@[simp] theorem State.accessError_chan (d' : ChanIx) : (s.accessError).chan d' = s.chan d' := rfl
@[simp] theorem State.accessError_fbByte (j : Nat) : (s.accessError).fbByte j = s.fbByte j := rfl
@[simp] theorem State.accessError_frameBit (j : Nat) : (s.accessError).frameBit j = s.frameBit j := rfl
@[simp] theorem State.drawn_chan (d' : ChanIx) : (s.drawn).chan d' = s.chan d' := rfl
@[simp] theorem State.drawn_fbByte (j : Nat) : (s.drawn).fbByte j = s.fbByte j := rfl
@[simp] theorem State.drawn_frameBit (j : Nat) : (s.drawn).frameBit j = s.frameBit j := rfl
@[simp] theorem State.clearStatus_chan (d : BitVec 16) (d' : ChanIx) : (s.clearStatus d).chan d' = s.chan d' := rfl
@[simp] theorem State.clearStatus_fbByte (d : BitVec 16) (j : Nat) : (s.clearStatus d).fbByte j = s.fbByte j := rfl
@[simp] theorem State.clearStatus_frameBit (d : BitVec 16) (j : Nat) : (s.clearStatus d).frameBit j = s.frameBit j := rfl

/-! ### Derived accessors -/

@[simp] theorem State.setChan_bands (c : ChanIx) (k : Chan) : (s.setChan c k).bands = s.bands := rfl
@[simp] theorem State.setChan_blockSize (c : ChanIx) (k : Chan) : (s.setChan c k).blockSize = s.blockSize := rfl
@[simp] theorem State.setChan_bitLimit (c : ChanIx) (k : Chan) : (s.setChan c k).bitLimit = s.bitLimit := rfl
@[simp] theorem State.setChan_codeRows (c : ChanIx) (k : Chan) (j : Nat) : (s.setChan c k).codeRows j = s.codeRows j := rfl
@[simp] theorem State.setChan_windowAt (c : ChanIx) (k : Chan) (j : Nat) : (s.setChan c k).windowAt j = s.windowAt j := rfl
@[simp] theorem State.mapChans_bands (f : Chan → Chan) : (s.mapChans f).bands = s.bands := rfl
@[simp] theorem State.mapChans_blockSize (f : Chan → Chan) : (s.mapChans f).blockSize = s.blockSize := rfl
@[simp] theorem State.mapChans_bitLimit (f : Chan → Chan) : (s.mapChans f).bitLimit = s.bitLimit := rfl
@[simp] theorem State.mapChans_codeRows (f : Chan → Chan) (j : Nat) : (s.mapChans f).codeRows j = s.codeRows j := rfl
@[simp] theorem State.mapChans_windowAt (f : Chan → Chan) (j : Nat) : (s.mapChans f).windowAt j = s.windowAt j := rfl
@[simp] theorem State.setRun_bands (b : Bool) : (s.setRun b).bands = s.bands := rfl
@[simp] theorem State.setRun_blockSize (b : Bool) : (s.setRun b).blockSize = s.blockSize := rfl
@[simp] theorem State.setRun_bitLimit (b : Bool) : (s.setRun b).bitLimit = s.bitLimit := rfl
@[simp] theorem State.setRun_codeRows (b : Bool) (j : Nat) : (s.setRun b).codeRows j = s.codeRows j := rfl
@[simp] theorem State.setRun_windowAt (b : Bool) (j : Nat) : (s.setRun b).windowAt j = s.windowAt j := rfl
@[simp] theorem State.setBcPos_bands (p : Nat) : (s.setBcPos p).bands = s.bands := rfl
@[simp] theorem State.setBcPos_blockSize (p : Nat) : (s.setBcPos p).blockSize = s.blockSize := rfl
@[simp] theorem State.setBcPos_bitLimit (p : Nat) : (s.setBcPos p).bitLimit = s.bitLimit := rfl
@[simp] theorem State.setBcPos_codeRows (p : Nat) (j : Nat) : (s.setBcPos p).codeRows j = s.codeRows j := rfl
@[simp] theorem State.setBcPos_windowAt (p : Nat) (j : Nat) : (s.setBcPos p).windowAt j = s.windowAt j := rfl
@[simp] theorem State.setCmd_bands (w : Word) : (s.setCmd w).bands = s.bands := rfl
@[simp] theorem State.setCmd_blockSize (w : Word) : (s.setCmd w).blockSize = s.blockSize := rfl
@[simp] theorem State.setCmd_bitLimit (w : Word) : (s.setCmd w).bitLimit = s.bitLimit := rfl
@[simp] theorem State.setCmd_codeRows (w : Word) (j : Nat) : (s.setCmd w).codeRows j = s.codeRows j := rfl
@[simp] theorem State.setCmd_windowAt (w : Word) (j : Nat) : (s.setCmd w).windowAt j = s.windowAt j := rfl
@[simp] theorem State.setPortData_bands (d : PortWord) : (s.setPortData d).bands = s.bands := rfl
@[simp] theorem State.setPortData_blockSize (d : PortWord) : (s.setPortData d).blockSize = s.blockSize := rfl
@[simp] theorem State.setPortData_bitLimit (d : PortWord) : (s.setPortData d).bitLimit = s.bitLimit := rfl
@[simp] theorem State.setPortData_codeRows (d : PortWord) (j : Nat) : (s.setPortData d).codeRows j = s.codeRows j := rfl
@[simp] theorem State.setPortData_windowAt (d : PortWord) (j : Nat) : (s.setPortData d).windowAt j = s.windowAt j := rfl
@[simp] theorem State.setPending_bands (rest : List HostAccess) : (s.setPending rest).bands = s.bands := rfl
@[simp] theorem State.setPending_blockSize (rest : List HostAccess) : (s.setPending rest).blockSize = s.blockSize := rfl
@[simp] theorem State.setPending_bitLimit (rest : List HostAccess) : (s.setPending rest).bitLimit = s.bitLimit := rfl
@[simp] theorem State.setPending_codeRows (rest : List HostAccess) (j : Nat) : (s.setPending rest).codeRows j = s.codeRows j := rfl
@[simp] theorem State.setPending_windowAt (rest : List HostAccess) (j : Nat) : (s.setPending rest).windowAt j = s.windowAt j := rfl
@[simp] theorem State.setFbByte_bands (i : Nat) (b : Byte) : (s.setFbByte i b).bands = s.bands := rfl
@[simp] theorem State.setFbByte_blockSize (i : Nat) (b : Byte) : (s.setFbByte i b).blockSize = s.blockSize := rfl
@[simp] theorem State.setFbByte_bitLimit (i : Nat) (b : Byte) : (s.setFbByte i b).bitLimit = s.bitLimit := rfl
@[simp] theorem State.setFbByte_codeRows (i : Nat) (b : Byte) (j : Nat) : (s.setFbByte i b).codeRows j = s.codeRows j := rfl
@[simp] theorem State.setFbByte_windowAt (i : Nat) (b : Byte) (j : Nat) : (s.setFbByte i b).windowAt j = s.windowAt j := rfl
@[simp] theorem State.complete_bands : (s.complete).bands = s.bands := rfl
@[simp] theorem State.complete_blockSize : (s.complete).blockSize = s.blockSize := rfl
@[simp] theorem State.complete_bitLimit : (s.complete).bitLimit = s.bitLimit := rfl
@[simp] theorem State.complete_codeRows (j : Nat) : (s.complete).codeRows j = s.codeRows j := rfl
@[simp] theorem State.complete_windowAt (j : Nat) : (s.complete).windowAt j = s.windowAt j := rfl
@[simp] theorem State.raise_bands (r : Resp) : (s.raise r).bands = s.bands := rfl
@[simp] theorem State.raise_blockSize (r : Resp) : (s.raise r).blockSize = s.blockSize := rfl
@[simp] theorem State.raise_bitLimit (r : Resp) : (s.raise r).bitLimit = s.bitLimit := rfl
@[simp] theorem State.raise_codeRows (r : Resp) (j : Nat) : (s.raise r).codeRows j = s.codeRows j := rfl
@[simp] theorem State.raise_windowAt (r : Resp) (j : Nat) : (s.raise r).windowAt j = s.windowAt j := rfl
@[simp] theorem State.accessError_bands : (s.accessError).bands = s.bands := rfl
@[simp] theorem State.accessError_blockSize : (s.accessError).blockSize = s.blockSize := rfl
@[simp] theorem State.accessError_bitLimit : (s.accessError).bitLimit = s.bitLimit := rfl
@[simp] theorem State.accessError_codeRows (j : Nat) : (s.accessError).codeRows j = s.codeRows j := rfl
@[simp] theorem State.accessError_windowAt (j : Nat) : (s.accessError).windowAt j = s.windowAt j := rfl
@[simp] theorem State.drawn_bands : (s.drawn).bands = s.bands := rfl
@[simp] theorem State.drawn_blockSize : (s.drawn).blockSize = s.blockSize := rfl
@[simp] theorem State.drawn_bitLimit : (s.drawn).bitLimit = s.bitLimit := rfl
@[simp] theorem State.drawn_codeRows (j : Nat) : (s.drawn).codeRows j = s.codeRows j := rfl
@[simp] theorem State.drawn_windowAt (j : Nat) : (s.drawn).windowAt j = s.windowAt j := rfl
@[simp] theorem State.clearStatus_bands (d : BitVec 16) : (s.clearStatus d).bands = s.bands := rfl
@[simp] theorem State.clearStatus_blockSize (d : BitVec 16) : (s.clearStatus d).blockSize = s.blockSize := rfl
@[simp] theorem State.clearStatus_bitLimit (d : BitVec 16) : (s.clearStatus d).bitLimit = s.bitLimit := rfl
@[simp] theorem State.clearStatus_codeRows (d : BitVec 16) (j : Nat) : (s.clearStatus d).codeRows j = s.codeRows j := rfl
@[simp] theorem State.clearStatus_windowAt (d : BitVec 16) (j : Nat) : (s.clearStatus d).windowAt j = s.windowAt j := rfl

/-! ### `Chan.toIdle` -/

@[simp] theorem Chan.toIdle_sf (k : Chan) : k.toIdle.sf = k.sf := rfl
@[simp] theorem Chan.toIdle_res (k : Chan) : k.toIdle.res = k.res := rfl
@[simp] theorem Chan.toIdle_q (k : Chan) : k.toIdle.q = k.q := rfl
@[simp] theorem Chan.toIdle_x (k : Chan) : k.toIdle.x = k.x := rfl
@[simp] theorem Chan.toIdle_t (k : Chan) : k.toIdle.t = k.t := rfl
@[simp] theorem Chan.toIdle_ov (k : Chan) : k.toIdle.ov = k.ov := rfl
@[simp] theorem Chan.toIdle_cpl (k : Chan) : k.toIdle.cpl = k.cpl := rfl
@[simp] theorem Chan.toIdle_intens (k : Chan) : k.toIdle.intens = k.intens := rfl
@[simp] theorem Chan.toIdle_role (k : Chan) : k.toIdle.role = k.role := rfl
@[simp] theorem Chan.toIdle_partner (k : Chan) : k.toIdle.partner = k.partner := rfl
@[simp] theorem Chan.toIdle_fsm (k : Chan) : k.toIdle.fsm = .idle := rfl
@[simp] theorem Chan.toIdle_qvalid (k : Chan) : k.toIdle.qvalid = false := rfl

/-! ### `Chan.opened` -/

@[simp] theorem Chan.opened_sf (k : Chan) (n : Nat) : (Chan.opened n k).sf = k.sf := rfl
@[simp] theorem Chan.opened_res (k : Chan) (n : Nat) : (Chan.opened n k).res = k.res := rfl
@[simp] theorem Chan.opened_q (k : Chan) (n : Nat) : (Chan.opened n k).q = k.q := rfl
@[simp] theorem Chan.opened_x (k : Chan) (n : Nat) : (Chan.opened n k).x = k.x := rfl
@[simp] theorem Chan.opened_t (k : Chan) (n : Nat) : (Chan.opened n k).t = k.t := rfl
@[simp] theorem Chan.opened_cpl (k : Chan) (n : Nat) : (Chan.opened n k).cpl = k.cpl := rfl
@[simp] theorem Chan.opened_intens (k : Chan) (n : Nat) : (Chan.opened n k).intens = k.intens := rfl
@[simp] theorem Chan.opened_role (k : Chan) (n : Nat) : (Chan.opened n k).role = k.role := rfl
@[simp] theorem Chan.opened_partner (k : Chan) (n : Nat) : (Chan.opened n k).partner = k.partner := rfl
@[simp] theorem Chan.opened_ov (k : Chan) (n : Nat) : (Chan.opened n k).ov = List.replicate n 0 := rfl
@[simp] theorem Chan.opened_fsm (k : Chan) (n : Nat) : (Chan.opened n k).fsm = .idle := rfl
@[simp] theorem Chan.opened_qvalid (k : Chan) (n : Nat) : (Chan.opened n k).qvalid = false := rfl

end Sys2Proof.Machine
end

