-- ==== Sys2Proof/Laws/Ops.lean ====
section
/-! SUPPORT. One lemma per shared operation of `Machine/Ops.lean`, `Machine/Flags.lean` and `Machine/Port.lean` that says
once what it can do; the proofs cite these and do not unfold the operations. -/

namespace Sys2Proof.Machine

variable (s : State)

/-! ### Channel slots -/

theorem State.setChan_chan (c d : ChanIx) (k : Chan) : (s.setChan c k).chan d = if d = c then k else s.chan d := by
  simp only [State.chan, State.setChan, Vector.getElem_set, ← BitVec.toNat_inj, eq_comm]

@[simp] theorem State.setChan_chan_same (c : ChanIx) (k : Chan) : (s.setChan c k).chan c = k := by
  simp [State.setChan_chan]

theorem State.setChan_chan_other {c d : ChanIx} (k : Chan) (h : d ≠ c) : (s.setChan c k).chan d = s.chan d := by
  simp [State.setChan_chan, h]

@[simp] theorem State.mapChans_chan (f : Chan → Chan) (c : ChanIx) : (s.mapChans f).chan c = f (s.chan c) := by
  simp [State.chan, State.mapChans]

@[simp] theorem State.powerOn_chan (cfg : Cfg) (draw : Nat) (pending : List HostAccess) (c : ChanIx) :
    (State.powerOn cfg draw pending).chan c = Chan.powerOn cfg.blockSize draw c.toNat := by
  simp [State.chan, State.powerOn]

/-! ### Checks -/

@[simp] theorem require_eq_none (ok : Bool) (r : Resp) : require ok r = none ↔ ok = true := by
  cases ok <;> simp [require]

@[simp] theorem require_true (r : Resp) : require true r = none := rfl

@[simp] theorem require_false (r : Resp) : require false r = some r := rfl

@[simp] theorem firstFault_nil : firstFault [] = none := rfl

@[simp] theorem firstFault_none (rest : List (Option Resp)) : firstFault (none :: rest) = firstFault rest := rfl

@[simp] theorem firstFault_some (r : Resp) (rest : List (Option Resp)) : firstFault (some r :: rest) = some r := rfl

/-- No fault exactly when no check raises. -/
theorem firstFault_eq_none (checks : List (Option Resp)) : firstFault checks = none ↔ ∀ x ∈ checks, x = none := by
  induction checks with
  | nil => simp
  | cons x rest ih => cases x <;> simp [ih]

/-- The reported fault is that of a check with none raising before it (R182). -/
theorem firstFault_eq_some (checks : List (Option Resp)) (r : Resp) :
    firstFault checks = some r ↔ ∃ before after, checks = before ++ some r :: after ∧ ∀ x ∈ before, x = none := by
  constructor
  · induction checks with
    | nil => simp
    | cons x rest ih =>
      cases x with
      | none =>
        intro h
        obtain ⟨before, after, rfl, hb⟩ := ih h
        exact ⟨none :: before, after, rfl, by simpa using hb⟩
      | some q =>
        intro h
        cases h
        exact ⟨[], rest, rfl, by simp⟩
  · rintro ⟨before, after, rfl, hb⟩
    induction before with
    | nil => rfl
    | cons x rest ih =>
      obtain rfl := hb x (by simp)
      exact ih fun y hy => hb y (by simp [hy])

theorem firstIndex_eq_none (n : Nat) (bad : Nat → Bool) : firstIndex n bad = none ↔ ∀ i, i < n → bad i = false := by
  simp [firstIndex]

/-- The scan finds the lowest bad index (R182 item 10). -/
theorem firstIndex_eq_some (n i : Nat) (bad : Nat → Bool) :
    firstIndex n bad = some i ↔ i < n ∧ bad i = true ∧ ∀ j, j < i → bad j = false := by
  rw [firstIndex, List.find?_range_eq_some]
  simp only [List.mem_range, Bool.not_eq_eq_eq_not]
  tauto

theorem scan_eq_none (n offset : Nat) (bad : Nat → Bool) (cause : Cause) :
    scan n bad cause offset = none ↔ ∀ i, i < n → bad i = false := by
  rw [scan, Option.map_eq_none_iff, firstIndex_eq_none]

theorem scan_eq_of_lowest {n i : Nat} (offset : Nat) {bad : Nat → Bool} (cause : Cause) (hi : i < n)
    (hbad : bad i = true) (hlow : ∀ j, j < i → bad j = false) :
    scan n bad cause offset = some ⟨cause, BitVec.ofNat 16 (offset + i)⟩ := by
  rw [scan, (firstIndex_eq_some n i bad).2 ⟨hi, hbad, hlow⟩]; rfl

/-! ### A command -/

/-- A command either raises its first fault or has its effect, the tables being good and no check raising (R120). -/
theorem State.guarded_cases (checks : List (Option Resp)) (body : State → State) :
    (∃ r, firstFault (require s.cfg.tablesOk ⟨.initializationError, 0⟩ :: checks) = some r ∧
      s.guarded checks body = s.raise r) ∨
    (s.cfg.tablesOk = true ∧ (∀ x ∈ checks, x = none) ∧ s.guarded checks body = body s) := by
  unfold State.guarded
  split
  · exact .inl ⟨_, by assumption, rfl⟩
  · rename_i h
    rw [firstFault_eq_none] at h
    simp only [List.mem_cons, forall_eq_or_imp, require_eq_none] at h
    exact .inr ⟨h.1, h.2, rfl⟩

/-- With good tables and no check raising, the effect. -/
theorem State.guarded_ok {checks : List (Option Resp)} {body : State → State} (ht : s.cfg.tablesOk = true)
    (hc : firstFault checks = none) : s.guarded checks body = body s := by
  simp [State.guarded, ht, hc]

/-- With good tables, the first fault of the checks is taken. -/
theorem State.guarded_fault {checks : List (Option Resp)} {body : State → State} {r : Resp}
    (ht : s.cfg.tablesOk = true) (hc : firstFault checks = some r) : s.guarded checks body = s.raise r := by
  simp [State.guarded, ht, hc]

/-- With bad tables, `InitializationError` (R190). -/
theorem State.guarded_badTables {checks : List (Option Resp)} {body : State → State}
    (ht : s.cfg.tablesOk = false) : s.guarded checks body = s.raise ⟨.initializationError, 0⟩ := by
  simp [State.guarded, ht]

/-- A check names a cause: its fault is never reported as success. -/
theorem require_cause {ok : Bool} {r q : Resp} (h : require ok r = some q) : q = r := by
  cases ok <;> simp_all [require]

/-! ### The host port -/

/-- A locked register is written only with no session open (R44). -/
theorem State.writeLocked_cases (write : State → State) :
    (s.run = true ∧ s.writeLocked write = s.accessError) ∨ (s.run = false ∧ s.writeLocked write = write s) := by
  unfold State.writeLocked
  cases s.run <;> simp

/-- `CMD` is mapped in every instance (R62, R191). -/
@[simp] theorem itemAt_cmdLoc (cfg : Cfg) : itemAt cfg cmdLoc = some .cmd := rfl

/-- A write to `CMD` stores the word and executes it (R64). -/
theorem State.hostWrite_cmd (d : PortWord) :
    s.hostWrite cmdLoc d = execWord (d.setWidth 32) (s.setCmd (d.setWidth 32)) := by
  simp [State.hostWrite]

/-- A step with an access pending performs it (R73). -/
theorem State.stepNext_cons {a : HostAccess} {rest : List HostAccess} (h : s.pending = a :: rest) :
    s.stepNext = (s.setPending rest).perform a := by
  simp [State.stepNext, h]

theorem State.stepNext_nil (h : s.pending = []) : s.stepNext = .next s := by
  simp [State.stepNext, h]

end Sys2Proof.Machine
end

