-- ==== Sys2Proof/Laws/Checks.lean ====
section
/-! SUPPORT. When the checks of each command all pass (R181, R182): one lemma per check, one per command. -/

namespace Sys2Proof.Machine

variable (s : State) (c : ChanIx)

/-! ### Single checks -/

@[simp] theorem State.needRun_none : s.needRun = none ↔ s.run = true := by simp [State.needRun]

@[simp] theorem State.needDir_none (dir : BitVec 1) : s.needDir dir = none ↔ s.cfgDir = dir := by
  simp [State.needDir]

@[simp] theorem State.needChan_none : s.needChan c = none ↔ c.toNat < s.cfgNch.toNat := by simp [State.needChan]

@[simp] theorem State.needNotSecondary_none : s.needNotSecondary c = none ↔ (s.chan c).role ≠ 2 := by
  simp [State.needNotSecondary]

@[simp] theorem State.needSecondary_none : s.needSecondary c = none ↔ (s.chan c).role = 2 := by
  simp [State.needSecondary]

@[simp] theorem State.needMode_none : s.needMode = none ↔ s.cplMode = 0 := by simp [State.needMode]

theorem State.needRun_some (h : s.run = false) : s.needRun = some (sequenceError 1) := by simp [State.needRun, h]

theorem State.needDir_some {dir : BitVec 1} (h : s.cfgDir ≠ dir) : s.needDir dir = some (sequenceError 2) := by
  rw [State.needDir, beq_eq_false_iff_ne.2 h, require_false]

theorem State.needChan_some (h : s.cfgNch.toNat ≤ c.toNat) : s.needChan c = some (sequenceError 3) := by
  simp [State.needChan, Nat.not_lt.2 h]

theorem State.needNotSecondary_some (h : (s.chan c).role = 2) : s.needNotSecondary c = some (sequenceError 4) := by
  simp [State.needNotSecondary, h]

theorem State.needSecondary_some (h : (s.chan c).role ≠ 2) : s.needSecondary c = some (sequenceError 4) := by
  rw [State.needSecondary, beq_eq_false_iff_ne.2 h, require_false]

theorem State.needMode_some (h : s.cplMode ≠ 0) :
    s.needMode = some ⟨.unsupportedMode, s.cplMode.setWidth 16⟩ := by
  rw [State.needMode, beq_eq_false_iff_ne.2 h, require_false]

/-- The pairing of a channel is consistent or the channel is independent, as `START` looks at it (R122). -/
theorem State.pairingOk_iff : s.pairingOk c = true ↔ (s.chan c).role = 0 ∨
    ((s.chan c).role = 1 ∨ (s.chan c).role = 2) ∧ (s.chan c).partner.toNat < s.cfgNch.toNat ∧ (s.chan c).partner ≠ c ∧
      (s.chan (s.chan c).partner).role = 3 - (s.chan c).role ∧ (s.chan (s.chan c).partner).partner = c := by
  simp only [State.pairingOk, Bool.or_eq_true, Bool.and_eq_true, beq_iff_eq, bne_iff_ne, decide_eq_true_eq, and_assoc]

theorem State.pairingFault_none :
    s.pairingFault = none ↔ ∀ n, n < s.cfgNch.toNat → s.pairingOk (BitVec.ofNat 4 n) = true := by
  simp [State.pairingFault, firstIndex_eq_none]

/-! ### The checks of a command -/

theorem State.startChecks_none : firstFault s.startChecks = none ↔ s.run = false ∧
    (1 ≤ s.cfgNch.toNat ∧ s.cfgNch.toNat ≤ 16) ∧ (1 ≤ s.bands ∧ s.bands ≤ s.blockSize) ∧ s.pairingFault = none := by
  simp [firstFault_eq_none, State.startChecks]

theorem State.unpackChecks_none : firstFault (s.unpackChecks c) = none ↔ s.run = true ∧ s.cfgDir = 0 ∧
    c.toNat < s.cfgNch.toNat ∧ (s.chan c).role ≠ 2 ∧ (s.chan c).fsm = .idle := by
  simp [firstFault_eq_none, State.unpackChecks]

theorem State.deqChecks_none : firstFault (s.deqChecks c) = none ↔ s.run = true ∧ s.cfgDir = 0 ∧
    c.toNat < s.cfgNch.toNat ∧ ((s.chan c).fsm = .idle ∧ (s.chan c).qvalid = true) ∧
    ∀ b, b < s.bands → (s.chan c).outOfRange b = false := by
  simp [firstFault_eq_none, State.deqChecks, scan_eq_none]

theorem State.quantChecks_none : firstFault (s.quantChecks c) = none ↔ s.run = true ∧ s.cfgDir = 1 ∧
    c.toNat < s.cfgNch.toNat ∧ (s.chan c).role ≠ 2 ∧ (s.chan c).fsm = .transformed ∧
    ∀ b, b < s.bands → F64.finite ((s.chan c).xAt b) = true := by
  simp [firstFault_eq_none, State.quantChecks, scan_eq_none]

theorem State.packChecks_none : firstFault (s.packChecks c) = none ↔ s.run = true ∧ s.cfgDir = 1 ∧
    c.toNat < s.cfgNch.toNat ∧ (s.chan c).role ≠ 2 ∧ ((s.chan c).fsm = .transformed ∧ (s.chan c).qvalid = true) ∧
    s.packFault (s.chan c) (List.range s.bands) s.bcPos.toNat = none := by
  simp [firstFault_eq_none, State.packChecks]

theorem State.isdecChecks_none : firstFault (s.isdecChecks c) = none ↔ s.run = true ∧ s.cfgDir = 0 ∧
    c.toNat < s.cfgNch.toNat ∧ (s.chan c).role = 2 ∧
    ((s.chan (s.chan c).partner).fsm = .loaded ∧ (s.chan c).fsm = .idle) ∧ s.cplMode = 0 ∧
    ∀ k, k < s.blockSize → F64.finite ((s.chan (s.chan c).partner).xAt k) = true := by
  simp [firstFault_eq_none, State.isdecChecks, scan_eq_none]

theorem State.isencChecks_none : firstFault (s.isencChecks c) = none ↔ s.run = true ∧ s.cfgDir = 1 ∧
    c.toNat < s.cfgNch.toNat ∧ (s.chan c).role = 2 ∧
    ((s.chan (s.chan c).partner).fsm = .transformed ∧ (s.chan c).fsm = .transformed) ∧ s.cplMode = 0 ∧
    ∀ k, k < s.blockSize →
      F64.finite ((s.chan (s.chan c).partner).xAt k) = true ∧ F64.finite ((s.chan c).xAt k) = true := by
  simp [firstFault_eq_none, State.isencChecks, scan_eq_none]

theorem State.loadChecks_none : firstFault (s.loadChecks c) = none ↔ s.run = true ∧
    c.toNat < s.cfgNch.toNat ∧ (s.chan c).fsm = .idle := by
  simp [firstFault_eq_none, State.loadChecks]

theorem State.imdctChecks_none : firstFault (s.imdctChecks c) = none ↔ s.run = true ∧ s.cfgDir = 0 ∧
    c.toNat < s.cfgNch.toNat ∧ (s.chan c).fsm = .loaded ∧
    (∀ k, k < s.blockSize → F64.finite ((s.chan c).xAt k) = true) ∧
    ∀ n, n < s.blockSize → F64.finite ((s.chan c).ovAt n) = true := by
  simp [firstFault_eq_none, State.imdctChecks, scan_eq_none]

theorem State.mdctChecks_none : firstFault (s.mdctChecks c) = none ↔ s.run = true ∧ s.cfgDir = 1 ∧
    c.toNat < s.cfgNch.toNat ∧ (s.chan c).fsm = .loaded ∧
    (∀ n, n < s.blockSize → F64.finite ((s.chan c).ovAt n) = true) ∧
    ∀ n, n < s.blockSize → F64.finite ((s.chan c).tAt n) = true := by
  simp [firstFault_eq_none, State.mdctChecks, scan_eq_none]

theorem State.relChecks_none : firstFault (s.relChecks c) = none ↔ s.run = true ∧
    c.toNat < s.cfgNch.toNat ∧ (s.chan c).fsm = .transformed := by
  simp [firstFault_eq_none, State.relChecks]

end Sys2Proof.Machine
end

