-- ==== Sys2Proof/Laws/Memory.lean ====
section
/-! SUPPORT. The frame buffer's memory: reading what was written, the canonical form, and single frame bits. -/

namespace Sys2Proof.Machine

/-! ### Cells -/

theorem Memory.find_write (m : Memory) (a a' : Nat) (b : Byte) :
    Memory.find (Memory.write m a b) a' = if a' = a then some b else Memory.find m a' := by
  induction m with
  | nil => simp [Memory.write, Memory.find, eq_comm]
  | cons x rest ih =>
    obtain ⟨k, v⟩ := x
    simp only [Memory.write]
    split
    · simp only [Memory.find]; split <;> simp_all [eq_comm]
    · split
      · subst_vars; simp only [Memory.find]; split <;> simp_all [eq_comm]
      · simp only [Memory.find, ih]; split <;> simp_all
        omega

/-- The addresses after a write are those before, and the one written. -/
theorem Memory.mem_write (m : Memory) (a : Nat) (b : Byte) (x : Host.Cell) (h : x ∈ Memory.write m a b) :
    x = (a, b) ∨ x ∈ m := by
  induction m with
  | nil => simpa [Memory.write] using h
  | cons y rest ih =>
    obtain ⟨k, v⟩ := y
    simp only [Memory.write] at h
    split at h
    · simpa using h
    · split at h
      · simp at h ⊢; tauto
      · simp at h ⊢; tauto

/-- A write keeps the canonical form. -/
theorem Memory.write_wf (m : Memory) (a : Nat) (b : Byte) (h : Memory.wf m = true) :
    Memory.wf (Memory.write m a b) = true := by
  simp only [Memory.wf, decide_eq_true_eq] at *
  induction m with
  | nil => simp [Memory.write]
  | cons x rest ih =>
    obtain ⟨k, v⟩ := x
    rw [List.pairwise_cons] at h
    simp only [Memory.write]
    split
    · rename_i hk
      refine List.pairwise_cons.2 ⟨fun y hy => ?_, List.pairwise_cons.2 h⟩
      rcases List.mem_cons.1 hy with rfl | hy
      · exact hk
      · exact lt_trans hk (h.1 y hy)
    · split
      · subst_vars; exact List.pairwise_cons.2 h
      · refine List.pairwise_cons.2 ⟨fun y hy => ?_, ih h.2⟩
        rcases Memory.mem_write _ _ _ _ hy with rfl | hy
        · simp only; omega
        · exact h.1 y hy

/-- A write inside the frame buffer keeps every address inside it. -/
theorem Memory.write_within (m : Memory) (a cap : Nat) (b : Byte) (h : Memory.within m cap = true) (ha : a < cap) :
    Memory.within (Memory.write m a b) cap = true := by
  simp only [Memory.within, List.all_eq_true, decide_eq_true_eq] at *
  intro x hx
  rcases Memory.mem_write m a b x hx with rfl | hx
  · exact ha
  · exact h x hx

/-- The memory after hard reset is in canonical form. -/
theorem Memory.reset_wf : Memory.wf State.reset.fb = true := rfl

/-! ### Bytes and bits -/

variable (s : State)

theorem State.setFbByte_fbByte (i j : Nat) (b : Byte) :
    (s.setFbByte i b).fbByte j = if j = i then b else s.fbByte j := by
  simp only [State.fbByte, State.setFbByte_fb, State.setFbByte_fbDraw, Memory.find_write]
  split <;> rfl

theorem byte_setBit (x : Byte) (k : Nat) (hk : k < 8) (b : Bool) (i : Nat) (hi : i < 8) :
    ((x &&& ~~~(1#8 <<< k)) ||| (if b then 1#8 <<< k else 0)).getLsbD i = if i = k then b else x.getLsbD i := by
  have h1 : (1#8 <<< k).getLsbD i = decide (i = k) := by
    simp only [BitVec.getLsbD_shiftLeft, BitVec.getLsbD_one]
    by_cases h : i = k
    · simp [h, hk]
    · simp only [h, decide_false]
      by_cases h' : i < k
      · simp [h']
      · simp; omega
  rw [BitVec.getLsbD_or, BitVec.getLsbD_and, BitVec.getLsbD_not, h1]
  by_cases h : i = k
  · subst h; cases b <;> simp [hi]
  · cases b <;> simp [h, hi]; omega

/-- One bit stored: it reads as stored, every other bit as before (R70). -/
theorem State.setFrameBit_frameBit (j p : Nat) (b : Bool) :
    (s.setFrameBit j b).frameBit p = if p = j then b else s.frameBit p := by
  simp only [State.frameBit, State.setFrameBit, State.setFbByte_fbByte]
  by_cases h8 : p / 8 = j / 8
  · rw [if_pos h8, byte_setBit _ _ (by omega) _ _ (by omega), h8]
    by_cases h : p = j
    · subst h; simp
    · rw [if_neg (by omega), if_neg h]
  · rw [if_neg h8, if_neg (by rintro rfl; exact h8 rfl)]

/-- Bytes other than the bit's stay. -/
theorem State.setFrameBit_fbByte (j i : Nat) (b : Bool) (h : i ≠ j / 8) :
    (s.setFrameBit j b).fbByte i = s.fbByte i := by
  simp [State.setFrameBit, State.setFbByte_fbByte, h]

/-- A stored bit changes no field but `fb`. -/
theorem State.setFrameBit_fb (j : Nat) (b : Bool) :
    s.setFrameBit j b = { s with fb := (s.setFrameBit j b).fb } := rfl

/-- Stored bits change no field but `fb`. -/
theorem State.writeBits_fb (p : Nat) (w : List Bool) :
    s.writeBits p w = { s with fb := (s.writeBits p w).fb } := by
  induction w generalizing s p with
  | nil => rfl
  | cons b rest ih =>
    simp only [State.writeBits]
    rw [ih]
    rfl

end Sys2Proof.Machine
end

