-- ==== Sys2Proof/Laws/Code.lean ====
section
/-! SUPPORT. Bit strings as numbers, the code tables, and what `VlcDecode` and `VlcEncode` can answer. -/

namespace Sys2Proof.Code

/-! ### Bit strings -/

@[simp] theorem bitsOf_length (n v : Nat) : (bitsOf n v).length = n := by simp [bitsOf]

theorem bitsOf_getD (n v i : Nat) (h : i < n) : (bitsOf n v).getD i false = v.testBit (n - 1 - i) := by
  simp [bitsOf, List.getD_eq_getElem?_getD, h]

theorem natOf_append (w : List Bool) (b : Bool) : natOf (w ++ [b]) = 2 * natOf w + b.toNat := by
  simp [natOf]

theorem natOf_lt (w : List Bool) : natOf w < 2 ^ w.length := by
  induction w using List.reverseRecOn with
  | nil => simp [natOf]
  | append_singleton w b ih =>
    rw [natOf_append, List.length_append, List.length_singleton, Nat.pow_succ]
    have := b.toNat_lt
    omega

/-- Writing a bit string as a number and reading it back gives the bit string (R68, R138). -/
theorem bitsOf_natOf (w : List Bool) : bitsOf w.length (natOf w) = w := by
  induction w using List.reverseRecOn with
  | nil => rfl
  | append_singleton w b ih =>
    rw [natOf_append, List.length_append, List.length_singleton]
    conv_rhs => rw [← ih]
    simp only [bitsOf, List.range_succ, List.map_append, List.map_singleton]
    congr 1
    · apply List.map_congr_left
      intro i hi
      rw [List.mem_range] at hi
      have h1 : w.length + 1 - 1 - i = (w.length - 1 - i) + 1 := by omega
      rw [h1, Nat.testBit_succ]
      congr 1
      have := b.toNat_lt
      omega
    · cases b <;> simp

/-- `-q .. q`, each once. -/
theorem mem_interval (q : Nat) (v : Int) : v ∈ interval q ↔ v.natAbs ≤ q := by
  simp only [interval, List.mem_map, List.mem_range]
  constructor
  · rintro ⟨i, hi, rfl⟩; omega
  · intro h; exact ⟨(v + q).toNat, by omega, by omega⟩

theorem interval_nodup (q : Nat) : (interval q).Nodup := by
  refine List.Nodup.map (fun i j h => ?_) List.nodup_range
  simpa using h

/-! ### Reading one code word -/

/-- The bits from `p` on, `n` of them. -/
def bitsFrom (bit : Nat → Bool) (p n : Nat) : List Bool := (List.range n).map fun i => bit (p + i)

theorem bitsFrom_succ (bit : Nat → Bool) (p n : Nat) : bitsFrom bit p (n + 1) = bitsFrom bit p n ++ [bit (p + n)] := by
  simp [bitsFrom, List.range_succ]

@[simp] theorem bitsFrom_length (bit : Nat → Bool) (p n : Nat) : (bitsFrom bit p n).length = n := by simp [bitsFrom]

theorem bitsFrom_prefix (bit : Nat → Bool) (p : Nat) {m n : Nat} (h : m ≤ n) : bitsFrom bit p m <+: bitsFrom bit p n := by
  refine ⟨bitsFrom bit (p + m) (n - m), ?_⟩
  apply List.ext_getElem?
  intro i
  simp only [bitsFrom, List.getElem?_append, List.length_map, List.length_range, List.getElem?_map]
  split
  · simp [List.getElem?_range (show i < n by omega), *]
  · by_cases h2 : i < n
    · simp [h2, show i - m < n - m by omega, show p + m + (i - m) = p + i by omega]
    · simp [h2, show ¬ i - m < n - m by omega]

theorem bitsFrom_eq_iff (bit : Nat → Bool) (p : Nat) (w : List Bool) :
    bitsFrom bit p w.length = w ↔ ∀ i, i < w.length → bit (p + i) = w.getD i false := by
  constructor
  · intro h i hi
    rw [← h]
    simp [bitsFrom, List.getD_eq_getElem?_getD, hi]
  · intro h
    apply List.ext_getElem (by simp)
    intro i h1 h2
    simp [bitsFrom, h i h2, List.getD_eq_getElem?_getD, h2]

theorem wordRow_some {table : List CodeRow} {w : List Bool} {x : CodeRow} (h : wordRow table w = some x) :
    x ∈ table ∧ x.word = w := by
  exact ⟨List.mem_of_find?_eq_some h, by simpa using List.find?_some h⟩

theorem wordRow_none {table : List CodeRow} {w : List Bool} (h : wordRow table w = none) :
    ∀ x ∈ table, x.word ≠ w := by
  simpa [wordRow] using h

/-- What the loop answers: the first row whose word the bits begin with, or an overrun (R131). -/
theorem vlcLoop_cases (table : List CodeRow) (bit : Nat → Bool) (p rem n : Nat) :
    (∃ x ∈ table, n ≤ x.word.length ∧ x.word.length ≤ n + rem ∧ bitsFrom bit p x.word.length = x.word ∧
      (∀ y ∈ table, n ≤ y.word.length → y.word.length < x.word.length → bitsFrom bit p y.word.length ≠ y.word) ∧
      vlcLoop table bit p rem (bitsFrom bit p n) = .found x.value x.word.length) ∨
    ((∀ y ∈ table, n ≤ y.word.length → y.word.length ≤ n + rem → bitsFrom bit p y.word.length ≠ y.word) ∧
      vlcLoop table bit p rem (bitsFrom bit p n) = .overrun) := by
  induction rem generalizing n with
  | zero =>
    simp only [vlcLoop]
    cases h : wordRow table (bitsFrom bit p n) with
    | some x =>
      obtain ⟨hx, hw⟩ := wordRow_some h
      have hl : x.word.length = n := by rw [hw, bitsFrom_length]
      exact .inl ⟨x, hx, by omega, by omega, by rw [hl, hw], fun y _ h1 h2 => by omega, by simp [hl]⟩
    | none =>
      refine .inr ⟨fun y hy h1 h2 he => wordRow_none h y hy ?_, rfl⟩
      rw [← he, show y.word.length = n by omega]
  | succ rem ih =>
    simp only [vlcLoop]
    cases h : wordRow table (bitsFrom bit p n) with
    | some x =>
      obtain ⟨hx, hw⟩ := wordRow_some h
      have hl : x.word.length = n := by rw [hw, bitsFrom_length]
      exact .inl ⟨x, hx, by omega, by omega, by rw [hl, hw], fun y _ h1 h2 => by omega, by simp [hl]⟩
    | none =>
      have hn : ∀ y ∈ table, y.word.length = n → bitsFrom bit p y.word.length ≠ y.word := by
        intro y hy hl he
        exact wordRow_none h y hy (by rw [← he, hl])
      simp only [bitsFrom_length, ← bitsFrom_succ]
      rcases ih (n + 1) with ⟨x, hx, h1, h2, h3, h4, h5⟩ | ⟨h1, h2⟩
      · refine .inl ⟨x, hx, by omega, by omega, h3, fun y hy hy1 hy2 => ?_, h5⟩
        by_cases hl : y.word.length = n
        · exact hn y hy hl
        · exact h4 y hy (by omega) hy2
      · refine .inr ⟨fun y hy hy1 hy2 => ?_, h2⟩
        by_cases hl : y.word.length = n
        · exact hn y hy hl
        · exact h1 y hy (by omega) (by omega)

/-- `VlcDecode` finds a row whose word stands at `p` and ends by `lim` (or is empty), or there is none and it answers an
overrun (R131). -/
theorem vlcDecode_cases (table : List CodeRow) (bit : Nat → Bool) (p lim : Nat) :
    (∃ x ∈ table, x.word.length ≤ lim - p ∧ bitsFrom bit p x.word.length = x.word ∧
      vlcDecode table bit p lim = .found x.value x.word.length) ∨
    ((∀ y ∈ table, y.word.length ≤ lim - p → bitsFrom bit p y.word.length ≠ y.word) ∧
      vlcDecode table bit p lim = .overrun) := by
  rcases vlcLoop_cases table bit p (lim - p) 0 with ⟨x, hx, -, h2, h3, -, h5⟩ | ⟨h1, h2⟩
  · exact .inl ⟨x, hx, by omega, h3, h5⟩
  · exact .inr ⟨fun y hy hl => h1 y hy (by omega) (by omega), h2⟩

/-- In a prefix-free table two rows whose words stand at the same place are one row. -/
theorem prefixFree_unique {table : List CodeRow} (hw : Code.W1 table) {x y : CodeRow} (hx : x ∈ table) (hy : y ∈ table)
    (h : x.word <+: y.word ∨ y.word <+: x.word) : x = y := by
  obtain ⟨-, hp⟩ := hw
  induction table with
  | nil => simp at hx
  | cons z rest ih =>
    rw [List.pairwise_cons] at hp
    rcases List.mem_cons.1 hx with rfl | hx' <;> rcases List.mem_cons.1 hy with rfl | hy'
    · rfl
    · have := hp.1 y hy'; tauto
    · have := hp.1 x hx'; tauto
    · exact ih hx' hy' hp.2

/-- With a prefix-free table, the row whose word stands at `p` and ends by `lim` is the one found (R131). -/
theorem vlcDecode_eq_found {table : List CodeRow} (hw : Code.W1 table) {bit : Nat → Bool} {p lim : Nat} {x : CodeRow}
    (hx : x ∈ table) (hl : x.word.length ≤ lim - p) (hb : bitsFrom bit p x.word.length = x.word) :
    vlcDecode table bit p lim = .found x.value x.word.length := by
  rcases vlcDecode_cases table bit p lim with ⟨y, hy, h1, h2, h3⟩ | ⟨h1, -⟩
  · have : x = y := by
      refine prefixFree_unique hw hx hy ?_
      rw [← hb, ← h2]
      rcases Nat.le_total x.word.length y.word.length with h | h
      · exact .inl (bitsFrom_prefix bit p h)
      · exact .inr (bitsFrom_prefix bit p h)
    subst this
    exact h3
  · exact absurd hb (h1 x hx hl)

/-! ### Writing one code word -/

/-- A table with each value on one row: two rows of one value are one row. -/
theorem exactValues_unique {table : List CodeRow} {q : Nat} (h3 : Code.W3 table q) {x y : CodeRow} (hx : x ∈ table)
    (hy : y ∈ table) (h : x.value = y.value) : x = y := by
  have hn : (table.map (·.value)).Nodup := h3.nodup_iff.2 (interval_nodup q)
  exact List.inj_on_of_nodup_map hn hx hy h

/-- The values of a row lie in the range (R98 W3). -/
theorem exactValues_range {table : List CodeRow} {q : Nat} (h3 : Code.W3 table q) {x : CodeRow} (hx : x ∈ table) :
    x.value.natAbs ≤ q :=
  (mem_interval q _).1 (h3.mem_iff.1 (List.mem_map.2 ⟨x, hx, rfl⟩))

/-- `VlcEncode` gives the word of the row with the value (R137). -/
theorem vlcEncode_eq {table : List CodeRow} {q : Nat} (h3 : Code.W3 table q) {x : CodeRow} (hx : x ∈ table) :
    vlcEncode table x.value = x.word := by
  unfold vlcEncode
  cases h : table.find? fun y => y.value == x.value with
  | none =>
    rw [List.find?_eq_none] at h
    exact absurd (h x hx) (by simp)
  | some y =>
    have hy := List.mem_of_find?_eq_some h
    have hv : y.value = x.value := by simpa using List.find?_some h
    rw [exactValues_unique h3 hy hx hv]

/-- Every integer in range has a row (R98 W3). -/
theorem exists_row {table : List CodeRow} {q : Nat} (h3 : Code.W3 table q) {v : Int} (hv : v.natAbs ≤ q) :
    ∃ x ∈ table, x.value = v := by
  simpa using h3.mem_iff.2 ((mem_interval q v).2 hv)

end Sys2Proof.Code

namespace Sys2Proof.Machine

/-- A run of bits stored: the frame bits it covers, and every other one as before (R70). -/
theorem State.writeBits_frameBit (s : State) (p j : Nat) (w : List Bool) :
    (s.writeBits p w).frameBit j = if p ≤ j ∧ j < p + w.length then w.getD (j - p) false else s.frameBit j := by
  induction w generalizing s p with
  | nil => simp [State.writeBits]; omega
  | cons b rest ih =>
    rw [State.writeBits, ih, State.setFrameBit_frameBit, List.length_cons]
    by_cases h1 : p = j
    · subst h1; simp
    · by_cases h2 : p + 1 ≤ j ∧ j < p + 1 + rest.length
      · rw [if_pos h2, if_pos (by omega)]
        obtain ⟨k, rfl⟩ : ∃ k, j = p + 1 + k := ⟨j - (p + 1), by omega⟩
        simp [show p + 1 + k - p = k + 1 by omega]
      · rw [if_neg h2, if_neg (by omega), if_neg (by omega)]

/-- Bytes that hold none of the stored bits stay. -/
theorem State.writeBits_fbByte (s : State) (p i : Nat) (w : List Bool) (h : i < p / 8 ∨ p + w.length ≤ 8 * i) :
    (s.writeBits p w).fbByte i = s.fbByte i := by
  induction w generalizing s p with
  | nil => rfl
  | cons b rest ih =>
    rw [List.length_cons] at h
    rw [State.writeBits, ih _ _ (by omega), State.setFrameBit_fbByte _ _ _ _ (by omega)]

end Sys2Proof.Machine
end

