-- ==== Sys2Proof/Laws/Commands.lean ====
section
/-! SUPPORT. What a command and a step can do, said once: a command raises its first fault, or runs into the limit
(`UNPACK`), or has its effect; a step is one of the host's accesses. Proofs about every command start from `exec_cases`,
proofs about every step from `step_cases`. -/

namespace Sys2Proof.Machine

/-- The checks of a command, after that of the tables (R182). -/
def checksOf (s : State) : Instr → List (Option Resp)
  | .nop => []
  | .start => s.startChecks
  | .stop => [s.needRun]
  | .abort => [s.needRun]
  | .unpack c => s.unpackChecks c
  | .deq c => s.deqChecks c
  | .quant c => s.quantChecks c
  | .pack c => s.packChecks c
  | .isdec c => s.isdecChecks c
  | .isenc c => s.isencChecks c
  | .load c => s.loadChecks c
  | .imdct c => s.imdctChecks c
  | .mdct c => s.mdctChecks c
  | .rel c => s.relChecks c

/-- `t` is the state after a command whose checks all passed and that did not run into the limit. -/
def Effect (s : State) (t : State) : Instr → Prop
  | .nop => t = s.complete
  | .start => t = s.startBody.complete
  | .stop => t = s.stopBody.complete
  | .abort => t = (s.mapChans Chan.toIdle).complete
  | .unpack c => ∃ q p, s.unpackBands (s.chan c) (List.range s.bands) s.bcPos.toNat = .ok (q, p) ∧
      t = s.unpackSuccess c q p
  | .deq c => t = (s.deqBody c).complete
  | .quant c => t = (s.quantBody c).complete
  | .pack c => t = (s.packBody c).complete
  | .isdec c => t = (s.isdecBody c).complete
  | .isenc c => t = (s.isencBody c).complete
  | .load c => t = (s.setChan c { s.chan c with fsm := .loaded, qvalid := false }).complete
  | .imdct c => t = (s.imdctBody c).complete
  | .mdct c => t = (s.mdctBody c).complete
  | .rel c => t = (s.setChan c { s.chan c with fsm := .idle, qvalid := false }).complete

/-! ### Reported faults are never success -/

/-- A check that raises names a fault. -/
def Faulty (x : Option Resp) : Prop := ∀ r, x = some r → r.cause ≠ .success

theorem faulty_require (ok : Bool) {r : Resp} (h : r.cause ≠ .success) : Faulty (require ok r) := by
  intro q hq; rw [require_cause hq]; exact h

theorem faulty_scan (n : Nat) (bad : Nat → Bool) {cause : Cause} (offset : Nat) (h : cause ≠ .success) :
    Faulty (scan n bad cause offset) := by
  intro q hq
  simp only [scan, Option.map_eq_some_iff] at hq
  obtain ⟨i, -, rfl⟩ := hq
  exact h

theorem faulty_pairing (s : State) : Faulty s.pairingFault := by
  intro q hq
  simp only [State.pairingFault, Option.map_eq_some_iff] at hq
  obtain ⟨i, -, rfl⟩ := hq
  simp

theorem faulty_pack (s : State) (k : Chan) (bands : List Nat) (p : Nat) : Faulty (s.packFault k bands p) := by
  induction bands generalizing p with
  | nil => intro r h; cases h
  | cons b rest ih =>
    rw [State.packFault]
    split
    · exact ih p
    · split
      · rintro r ⟨⟩; simp
      · split
        · rintro r ⟨⟩; simp
        · exact ih _

theorem faulty_checks (s : State) (i : Instr) : ∀ x ∈ checksOf s i, Faulty x := by
  cases i <;>
    simp [checksOf, State.startChecks, State.unpackChecks, State.deqChecks, State.quantChecks, State.packChecks,
      State.isdecChecks, State.isencChecks, State.loadChecks, State.imdctChecks, State.mdctChecks, State.relChecks,
      State.needRun, State.needDir, State.needChan, State.needNotSecondary, State.needSecondary, State.needMode,
      sequenceError, faulty_require, faulty_scan, faulty_pairing, faulty_pack]

/-- The first fault of a command's checks is no success. -/
theorem firstFault_cause (s : State) (i : Instr) {r : Resp}
    (h : firstFault (require s.cfg.tablesOk ⟨.initializationError, 0⟩ :: checksOf s i) = some r) :
    r.cause ≠ .success := by
  obtain ⟨before, after, he, -⟩ := (firstFault_eq_some _ _).1 h
  have hm : some r ∈ require s.cfg.tablesOk ⟨.initializationError, 0⟩ :: checksOf s i := by rw [he]; simp
  rcases List.mem_cons.1 hm with h | h
  · rw [require_cause h.symm]; simp
  · exact faulty_checks s i _ h r rfl

/-! ### A command -/

/-- A command raises a fault that changes nothing else, or is an `UNPACK` that runs into the limit, or has its effect,
the tables being good and every check passed (R120, R184). -/
theorem exec_cases (i : Instr) (s : State) :
    (∃ r, r.cause ≠ .success ∧ exec i s = .next (s.raise r)) ∨
    (∃ c b, i = .unpack c ∧ firstFault (checksOf s i) = none ∧
      s.unpackBands (s.chan c) (List.range s.bands) s.bcPos.toNat = .error b ∧ exec i s = .next (s.unpackOverrun c b)) ∨
    (s.cfg.tablesOk = true ∧ firstFault (checksOf s i) = none ∧ ∃ t, Effect s t i ∧ exec i s = .next t) := by
  have key : ∀ body : State → State, (exec i s = .next (s.guarded (checksOf s i) body)) →
      (∃ r, r.cause ≠ .success ∧ exec i s = .next (s.raise r)) ∨
      (s.cfg.tablesOk = true ∧ firstFault (checksOf s i) = none ∧ exec i s = .next (body s)) := by
    intro body hb
    rcases s.guarded_cases (checksOf s i) body with ⟨r, h1, h2⟩ | ⟨h1, h2, h3⟩
    · exact .inl ⟨r, firstFault_cause s i h1, by rw [hb, h2]⟩
    · exact .inr ⟨h1, (firstFault_eq_none _).2 h2, by rw [hb, h3]⟩
  cases i with
  | unpack c =>
    rcases key _ rfl with h | ⟨h1, h2, h3⟩
    · exact .inl h
    · right
      unfold State.unpackBody at h3
      split at h3
      · exact .inr ⟨h1, h2, _, ⟨_, _, by assumption, rfl⟩, h3⟩
      · exact .inl ⟨c, _, rfl, h2, by assumption, h3⟩
  | _ =>
    rcases key _ rfl with h | ⟨h1, h2, h3⟩
    · exact .inl h
    · exact .inr (.inr ⟨h1, h2, _, rfl, h3⟩)

/-- Every command answers a next state (R192). -/
theorem exec_next (i : Instr) (s : State) : ∃ t, exec i s = .next t := by
  rcases exec_cases i s with ⟨r, -, h⟩ | ⟨c, b, -, -, -, h⟩ | ⟨-, -, t, -, h⟩ <;> exact ⟨_, h⟩

/-! ### A command word and a step -/

/-- `Exec(w)` raises, or runs the command that `w` encodes (R120). -/
theorem execWord_cases (w : Word) (s : State) :
    (∃ r, r.cause ≠ .success ∧ execWord w s = .next (s.raise r)) ∨ (∃ i, decode w = .ok i ∧ execWord w s = exec i s) := by
  unfold execWord
  split
  · split
    · exact .inr ⟨_, by assumption, rfl⟩
    · exact .inl ⟨_, by simp, rfl⟩
  · exact .inl ⟨_, by simp, rfl⟩

/-- What a step can do: nothing, with no access pending; a hard reset; a read; a refused write; a write to an item other
than `CMD`; or `Exec` of a word written to `CMD` (R63, R64, R73, R200). -/
theorem step_cases (s : State) :
    (s.pending = [] ∧ step s = .next s) ∨
    (∃ rest, s.pending = .hardReset :: rest ∧ step s = .next (s.setPending rest).hardReset) ∨
    (∃ loc rest, s.pending = .read loc :: rest ∧ step s = .next ((s.setPending rest).hostRead loc)) ∨
    (∃ loc d rest, s.pending = .write loc d :: rest ∧ itemAt s.cfg loc = none ∧
      step s = .next (s.setPending rest).accessError) ∨
    (∃ loc d rest item, s.pending = .write loc d :: rest ∧ itemAt s.cfg loc = some item ∧ item ≠ .cmd ∧
      step s = .next ((s.setPending rest).writeItem d item)) ∨
    (∃ loc d rest, s.pending = .write loc d :: rest ∧ itemAt s.cfg loc = some .cmd ∧
      step s = execWord (d.setWidth 32) ((s.setPending rest).setCmd (d.setWidth 32))) := by
  unfold step
  cases hp : s.pending with
  | nil => exact .inl ⟨rfl, s.stepNext_nil hp⟩
  | cons a rest =>
    rw [s.stepNext_cons hp]
    cases a with
    | hardReset => exact .inr (.inl ⟨rest, rfl, rfl⟩)
    | read loc => exact .inr (.inr (.inl ⟨loc, rest, rfl, rfl⟩))
    | write loc d =>
      simp only [State.perform, State.hostWrite, State.setPending_cfg]
      cases hi : itemAt s.cfg loc with
      | none => exact .inr (.inr (.inr (.inl ⟨loc, d, rest, rfl, hi, rfl⟩)))
      | some item =>
        by_cases hc : item = .cmd
        · subst hc; exact .inr (.inr (.inr (.inr (.inr ⟨loc, d, rest, rfl, hi, rfl⟩))))
        · refine .inr (.inr (.inr (.inr (.inl ⟨loc, d, rest, item, rfl, hi, hc, ?_⟩))))
          cases item <;> first | rfl | exact absurd rfl hc

end Sys2Proof.Machine
end

