-- ==== Sys2Proof/Laws/Float.lean ====
section
/-! SUPPORT. Binary64 patterns as sign and magnitude, and rounding: `roundBits` gives the nearest magnitude, of two
nearest ones the even one, and gives a magnitude back as it was (R8, R163). -/

namespace Sys2Proof.F64

/-! ### Sign and magnitude -/

theorem magBits_lt (x : F64) : magBits x < 2 ^ 63 := Nat.mod_lt _ (by positivity)

@[simp] theorem sign_ofSignMag (b : Bool) (m : Nat) : sign (ofSignMag b m) = b := by
  have := Nat.mod_lt m (show 0 < 2 ^ 63 by positivity)
  cases b <;> simp [sign, ofSignMag] <;> omega

theorem magBits_ofSignMag (b : Bool) (m : Nat) : magBits (ofSignMag b m) = m % 2 ^ 63 := by
  cases b <;> simp [magBits, ofSignMag]

/-- A pattern is its sign and its magnitude bits. -/
theorem ofSignMag_sign_magBits (x : F64) : ofSignMag (sign x) (magBits x) = x := by
  apply BitVec.eq_of_toNat_eq
  have := x.isLt
  simp only [ofSignMag, sign, magBits, BitVec.toNat_ofNat, decide_eq_true_eq]
  split <;> omega

theorem ext_sign_magBits {x y : F64} (hs : sign x = sign y) (hm : magBits x = magBits y) : x = y := by
  rw [← ofSignMag_sign_magBits x, ← ofSignMag_sign_magBits y, hs, hm]

@[simp] theorem sign_neg (x : F64) : sign (neg x) = !sign x := by simp [neg]

@[simp] theorem magBits_neg (x : F64) : magBits (neg x) = magBits x := by
  rw [neg, magBits_ofSignMag, Nat.mod_eq_of_lt (magBits_lt x)]

@[simp] theorem magBits_abs (x : F64) : magBits (abs x) = magBits x := by
  rw [abs, magBits_ofSignMag, Nat.mod_eq_of_lt (magBits_lt x)]

@[simp] theorem abs_neg (x : F64) : abs (neg x) = abs x := by simp [abs]

@[simp] theorem neg_neg (x : F64) : neg (neg x) = x := ext_sign_magBits (by simp) (by simp)

@[simp] theorem finite_neg (x : F64) : finite (neg x) = finite x := by simp [finite]

@[simp] theorem isNaN_neg (x : F64) : isNaN (neg x) = isNaN x := by simp [isNaN]

@[simp] theorem isZero_neg (x : F64) : isZero (neg x) = isZero x := by simp [isZero]

@[simp] theorem scaledMag_neg (x : F64) : scaledMag (neg x) = scaledMag x := by simp [scaledMag]

@[simp] theorem sign_zeroOf (b : Bool) : sign (zeroOf b) = b := by simp [zeroOf]

@[simp] theorem isZero_zeroOf (b : Bool) : isZero (zeroOf b) = true := by cases b <;> decide

@[simp] theorem finite_zeroOf (b : Bool) : finite (zeroOf b) = true := by cases b <;> decide

theorem neg_zeroOf (b : Bool) : neg (zeroOf b) = zeroOf (!b) := by cases b <;> decide

theorem zeroOf_false : zeroOf false = 0 := by decide

/-- A zero is the zero of its sign. -/
theorem eq_zeroOf {x : F64} (h : isZero x = true) : x = zeroOf (sign x) := by
  refine ext_sign_magBits (by simp) ?_
  have h0 : magBits (zeroOf (sign x)) = 0 := by cases sign x <;> decide
  rw [h0]; simpa [isZero] using h

theorem finite_of_isZero {x : F64} (h : isZero x = true) : finite x = true := by
  have : magBits x = 0 := by simpa [isZero] using h
  simp [finite, this, infBits]

/-! ### Magnitudes as integers -/

/-- The integer that magnitude bits stand for, in units of 2^-1074. -/
def magVal (m : Nat) : Nat := if m / 2 ^ 52 = 0 then m % 2 ^ 52 else (2 ^ 52 + m % 2 ^ 52) * 2 ^ (m / 2 ^ 52 - 1)

theorem scaledMag_eq (x : F64) : scaledMag x = magVal (magBits x) := rfl

theorem magVal_zero : magVal 0 = 0 := by simp [magVal]

/-- The pattern of an integer with 53 significant bits. -/
theorem magVal_pack (sh m : Nat) (h : (sh = 0 ∨ 2 ^ 52 ≤ m) ∧ m ≤ 2 ^ 53) :
    magVal (sh * 2 ^ 52 + m) = m * 2 ^ sh := by
  obtain ⟨h1, h2⟩ := h
  by_cases hs : m < 2 ^ 52
  · obtain rfl : sh = 0 := by omega
    rw [magVal, if_pos (by omega)]; omega
  · by_cases hm : m = 2 ^ 53
    · subst hm
      have e1 : (sh * 2 ^ 52 + 2 ^ 53) / 2 ^ 52 = sh + 2 := by omega
      have e2 : (sh * 2 ^ 52 + 2 ^ 53) % 2 ^ 52 = 0 := by omega
      rw [magVal, e1, e2, if_neg (by omega), show sh + 2 - 1 = sh + 1 by omega, pow_succ]
      ring
    · have e1 : (sh * 2 ^ 52 + m) / 2 ^ 52 = sh + 1 := by omega
      have e2 : (sh * 2 ^ 52 + m) % 2 ^ 52 = m - 2 ^ 52 := by omega
      rw [magVal, e1, e2, if_neg (by omega), show sh + 1 - 1 = sh by omega, show 2 ^ 52 + (m - 2 ^ 52) = m by omega]

/-- A magnitude of at least `2^(52 + k)` is a multiple of `2^k`. -/
theorem magVal_grid (m k : Nat) (h : 2 ^ (52 + k) ≤ magVal m) : 2 ^ k ∣ magVal m := by
  unfold magVal at *
  split at h
  · rename_i h0
    rw [if_pos h0]
    have : 2 ^ 52 ≤ 2 ^ (52 + k) := Nat.pow_le_pow_right (by omega) (by omega)
    omega
  · rename_i h0
    rw [if_neg h0]
    have hlt : (2 ^ 52 + m % 2 ^ 52) * 2 ^ (m / 2 ^ 52 - 1) < 2 ^ (53 + (m / 2 ^ 52 - 1)) := by
      rw [pow_add]
      exact Nat.mul_lt_mul_of_pos_right (by omega) (by positivity)
    have : 52 + k < 53 + (m / 2 ^ 52 - 1) := (Nat.pow_lt_pow_iff_right (by omega)).1 (lt_of_le_of_lt h hlt)
    exact Dvd.dvd.mul_left (Nat.pow_dvd_pow 2 (by omega)) _

theorem magVal_le {m : Nat} (h : m < infBits) : magVal m ≤ maxScaled := by
  unfold magVal
  have hm : m / 2 ^ 52 ≤ 2046 := by unfold infBits at h; omega
  split
  · have h1 : m % 2 ^ 52 < 2 ^ 53 - 1 := by omega
    have h2 : 2 ^ 53 - 1 ≤ maxScaled := Nat.le_mul_of_pos_right _ (by positivity)
    omega
  · rw [maxScaled]; gcongr <;> omega

theorem scaledMag_le {x : F64} (h : finite x = true) : scaledMag x ≤ maxScaled := by
  rw [scaledMag_eq]
  exact magVal_le (by simpa [finite] using h)

theorem magVal_eq_zero {m : Nat} : magVal m = 0 ↔ m = 0 := by
  unfold magVal
  constructor
  · intro h
    split at h
    · omega
    · simp at h
  · rintro rfl; simp

theorem isZero_iff (x : F64) : isZero x = true ↔ scaledMag x = 0 := by
  rw [scaledMag_eq, magVal_eq_zero]; simp [isZero]

theorem scaled_natAbs (x : F64) : (scaled x).natAbs = scaledMag x := by
  unfold scaled; split <;> simp

theorem isZero_iff_scaled (x : F64) : isZero x = true ↔ scaled x = 0 := by
  rw [isZero_iff, ← scaled_natAbs, Int.natAbs_eq_zero]

@[simp] theorem scaled_neg (x : F64) : scaled (neg x) = -scaled x := by
  simp only [scaled, sign_neg, scaledMag_neg]
  cases sign x <;> simp

/-! ### Rounding -/

/-- What `roundSig 53` answers: `m` significant bits and the shift, with `m · 2^sh · den` a nearest multiple of
`2^sh · den` to `num`, and `m` even if it is one of two. -/
theorem roundSig_spec (num den : Nat) (hd : 0 < den) :
    let r := roundSig 53 num den
    let D := den * 2 ^ r.2
    ((r.2 = 0 ∨ 2 ^ 52 ≤ r.1) ∧ r.1 ≤ 2 ^ 53) ∧
    (r.2 = 0 ∨ 2 ^ 52 ≤ num / D) ∧ num / D < 2 ^ 53 ∧
    ((r.1 = num / D ∧ 2 * (num % D) ≤ D ∧ (2 * (num % D) = D → r.1 % 2 = 0)) ∨
      (r.1 = num / D + 1 ∧ D ≤ 2 * (num % D) ∧ (2 * (num % D) = D → r.1 % 2 = 0))) := by
  intro r D
  have hD : 0 < D := by positivity
  have hq : num / D = num / den / 2 ^ r.2 := by rw [Nat.div_div_eq_div_mul]
  have hsh : r.2 = (num / den).log2 + 1 - 53 := rfl
  have hm : r.1 = if D < 2 * (num % D) ∨ (2 * (num % D) = D ∧ num / D % 2 = 1) then num / D + 1 else num / D := rfl
  have hlt : num / D < 2 ^ 53 := by
    rw [hq, Nat.div_lt_iff_lt_mul (by positivity), ← pow_add]
    exact lt_of_lt_of_le Nat.lt_log2_self (Nat.pow_le_pow_right (by omega) (by omega))
  have hge : r.2 = 0 ∨ 2 ^ 52 ≤ num / D := by
    by_cases h0 : r.2 = 0
    · exact .inl h0
    · right
      have hne : num / den ≠ 0 := by
        intro h; rw [h] at hsh; simp at hsh; omega
      rw [hq, Nat.le_div_iff_mul_le (by positivity), ← pow_add]
      exact le_trans (Nat.pow_le_pow_right (by omega) (by omega)) (Nat.log2_self_le hne)
  refine ⟨?_, hge, hlt, ?_⟩
  · rw [hm]; split <;> omega
  · rw [hm]
    split
    · right; omega
    · left; omega

/-- `roundBits` gives a nearest magnitude to `num / den`, and of two nearest ones one with an even last bit (R8 `rnd64`). -/
theorem roundBits_nearest (num den v : Nat) (hd : 0 < den) :
    let r := roundBits num den
    ((magVal r * den : Int) - num).natAbs ≤ ((magVal v * den : Int) - num).natAbs ∧
    (((magVal r * den : Int) - num).natAbs = ((magVal v * den : Int) - num).natAbs →
      magVal v = magVal r ∨ r % 2 = 0) := by
  obtain ⟨hb, hge, hlt, hr⟩ := roundSig_spec num den hd
  simp only [roundBits]
  generalize hrs : roundSig 53 num den = rs at *
  obtain ⟨m, sh⟩ := rs
  simp only at *
  have hpar : (sh * 2 ^ 52 + m) % 2 = m % 2 := by omega
  rw [magVal_pack sh m hb, hpar]
  set D := den * 2 ^ sh with hDdef
  have hD : 0 < D := by positivity
  have hmD : ((m * 2 ^ sh : ℕ) * den : Int) = m * D := by push_cast [hDdef]; ring
  rw [hmD]
  have hdiv := Nat.div_add_mod num D
  have hmod := Nat.mod_lt num hD
  set a := num / D
  set rem := num % D
  have hnum : (num : Int) = D * a + rem := by exact_mod_cast hdiv.symm
  rw [hnum]
  by_cases hk : 2 ^ sh ∣ magVal v
  · obtain ⟨j, hj⟩ := hk
    have hvD : (magVal v * den : Int) = D * j := by rw [hj, hDdef]; push_cast; ring
    rw [hvD, hj]
    have hjm : (j : Int) = m → 2 ^ sh * j = m * 2 ^ sh := by intro h; rw [Int.natCast_inj.1 h]; ring
    have key : ∀ e : Int, D * (a + e) - (D * a + rem) = D * e - rem := fun e => by ring
    obtain ⟨e, he⟩ : ∃ e : Int, (j : Int) = a + e := ⟨j - a, by ring⟩
    rw [he] at hjm ⊢
    rw [key]
    have hb0 : e ≤ -1 → (D : Int) * e ≤ -D := fun h => by nlinarith
    have hb1 : 1 ≤ e → (D : Int) * e ≥ D := fun h => by nlinarith
    have hb2 : 2 ≤ e → (D : Int) * e ≥ 2 * D := fun h => by nlinarith
    rcases hr with ⟨h1, h2, h3⟩ | ⟨h1, h2, h3⟩
    · have hme : (m * D : Int) - (D * a + rem) = - rem := by rw [h1]; ring
      rw [hme]
      rcases lt_trichotomy e 0 with h | h | h
      · have := hb0 (by omega); omega
      · subst h; simp; left; simpa [h1] using hjm
      · have := hb1 (by omega); omega
    · have hme : (m * D : Int) - (D * a + rem) = D - rem := by rw [h1]; push_cast; ring
      rw [hme]
      rcases lt_trichotomy e 0 with h | h | h
      · have := hb0 (by omega); omega
      · subst h; simp only [mul_zero]; omega
      · by_cases h' : e = 1
        · subst h'; simp only [mul_one]; refine ⟨le_refl _, fun _ => .inl (hjm (by rw [h1]; push_cast; ring))⟩
        · have := hb2 (by omega); omega
  · have hs0 : sh ≠ 0 := by rintro rfl; simp at hk
    have ha : 2 ^ 52 ≤ a := by omega
    have hv : magVal v < 2 ^ (52 + sh) := by
      by_contra hcon
      exact hk (magVal_grid v sh (by omega))
    have hv2 : magVal v * den < 2 ^ 52 * D := by
      calc magVal v * den < 2 ^ (52 + sh) * den := Nat.mul_lt_mul_of_pos_right hv hd
        _ = 2 ^ 52 * D := by rw [hDdef, pow_add]; ring
    have hv3 : (magVal v * den : Int) < D * a := by
      have : 2 ^ 52 * D ≤ a * D := Nat.mul_le_mul_right D ha
      have h' : magVal v * den < D * a := by rw [Nat.mul_comm D a]; omega
      exact_mod_cast h'
    rcases hr with ⟨h1, h2, h3⟩ | ⟨h1, h2, h3⟩
    · have hme : (m * D : Int) - (D * a + rem) = - rem := by rw [h1]; ring
      rw [hme]; omega
    · have hme : (m * D : Int) - (D * a + rem) = D - rem := by rw [h1]; push_cast; ring
      rw [hme]; omega

/-- A value within FMAX rounds to a finite magnitude. -/
theorem roundBits_lt {num den : Nat} (hd : 0 < den) (h : num ≤ maxScaled * den) : roundBits num den < infBits := by
  obtain ⟨hb, hge, hlt, hr⟩ := roundSig_spec num den hd
  have hsh : (roundSig 53 num den).2 = (num / den).log2 + 1 - 53 := rfl
  simp only [roundBits]
  generalize hrs : roundSig 53 num den = rs at *
  obtain ⟨m, sh⟩ := rs
  simp only at *
  have hq : num / den ≤ maxScaled := Nat.div_le_of_le_mul (by rw [Nat.mul_comm]; exact h)
  have hq2 : num / den < 2 ^ 2098 := by
    refine lt_of_le_of_lt hq ?_
    rw [maxScaled, show 2098 = 53 + 2045 from rfl, pow_add]
    exact Nat.mul_lt_mul_of_pos_right (by omega) (by positivity)
  have hsh2 : sh ≤ 2045 := by
    by_cases h0 : num / den = 0
    · rw [h0] at hsh; simp at hsh; omega
    · have := (Nat.log2_lt h0).2 hq2; omega
  unfold infBits
  by_cases h45 : sh = 2045
  · have hm : m ≤ 2 ^ 53 - 1 := by
      have hD : 0 < den * 2 ^ sh := by positivity
      have hle : num ≤ (2 ^ 53 - 1) * (den * 2 ^ sh) := by
        rw [h45]; calc num ≤ maxScaled * den := h
          _ = _ := by rw [maxScaled, Nat.mul_assoc, Nat.mul_comm den]
      have hdm := Nat.div_add_mod num (den * 2 ^ sh)
      generalize den * 2 ^ sh = D at *
      by_cases ha : num / D = 2 ^ 53 - 1
      · have : num % D = 0 := by rw [ha] at hdm; rw [Nat.mul_comm] at hdm; omega
        omega
      · omega
    omega
  · omega

/-- Rounding gives a magnitude back as it was. -/
theorem roundBits_magVal (m den : Nat) (hd : 0 < den) : roundBits (magVal m * den) den = m := by
  have hq : magVal m * den / den = magVal m := Nat.mul_div_cancel _ hd
  unfold roundBits roundSig
  simp only [hq]
  by_cases h : m / 2 ^ 52 ≤ 1
  · have hv : magVal m = m := by
      unfold magVal
      split
      · omega
      · rw [show m / 2 ^ 52 - 1 = 0 by omega]; omega
    have hsh : (magVal m).log2 + 1 - 53 = 0 := by
      rw [hv]
      by_cases h0 : m = 0
      · subst h0; simp
      · have := (Nat.log2_lt h0).2 (show m < 2 ^ 53 by omega); omega
    rw [hsh]
    simp [Nat.mul_div_cancel _ hd, hv]
    omega
  · obtain ⟨e, f, he, hf, rfl⟩ : ∃ e f, 2 ≤ e ∧ f < 2 ^ 52 ∧ m = e * 2 ^ 52 + f :=
      ⟨m / 2 ^ 52, m % 2 ^ 52, by omega, Nat.mod_lt _ (by positivity), by omega⟩
    have hv : magVal (e * 2 ^ 52 + f) = (2 ^ 52 + f) * 2 ^ (e - 1) := by
      rw [← magVal_pack (e - 1) (2 ^ 52 + f) (by omega), show (e - 1) * 2 ^ 52 + (2 ^ 52 + f) = e * 2 ^ 52 + f by omega]
    have hlog : (magVal (e * 2 ^ 52 + f)).log2 = 52 + (e - 1) := by
      have hpos : 0 < 2 ^ (e - 1) := by positivity
      rw [hv, Nat.log2_eq_iff (Nat.mul_pos (by omega) hpos).ne', show 52 + (e - 1) + 1 = 53 + (e - 1) by omega,
        pow_add, pow_add]
      exact ⟨Nat.mul_le_mul_right _ (by omega), Nat.mul_lt_mul_of_pos_right (by omega) hpos⟩
    rw [hlog, show 52 + (e - 1) + 1 - 53 = e - 1 by omega, hv]
    have hnum : (2 ^ 52 + f) * 2 ^ (e - 1) * den = (2 ^ 52 + f) * (den * 2 ^ (e - 1)) := by ring
    have hD : 0 < den * 2 ^ (e - 1) := by positivity
    rw [hnum, Nat.mul_div_cancel _ hD, Nat.mul_mod_left, if_neg (by omega)]
    omega

theorem magBits_roundBits {num den : Nat} (hd : 0 < den) (h : num ≤ maxScaled * den) (b : Bool) :
    magBits (ofSignMag b (roundBits num den)) = roundBits num den := by
  rw [magBits_ofSignMag]
  have := roundBits_lt hd h
  exact Nat.mod_eq_of_lt (lt_trans this (by unfold infBits; norm_num))

theorem roundBits_zero (den : Nat) (hd : 0 < den) : roundBits 0 den = 0 := by
  have := roundBits_magVal 0 den hd
  rwa [magVal_zero, Nat.zero_mul] at this

/-- The nearest F64 to `± num / den` (in units of 2^-1074), ties to even, for a value within FMAX (R8 `rnd64`). -/
theorem round_nearest (isNeg : Bool) {num den : Nat} (hd : 0 < den) (h : num ≤ maxScaled * den) (t : Int)
    (ht : t = if isNeg then -(num : Int) else num) (y : F64) :
    let r := ofSignMag isNeg (roundBits num den)
    finite r = true ∧ (scaled r * den - t).natAbs ≤ (scaled y * den - t).natAbs ∧
      ((scaled r * den - t).natAbs = (scaled y * den - t).natAbs → scaled y = scaled r ∨ magBits r % 2 = 0) := by
  have hm := magBits_roundBits hd h isNeg
  have h1 := roundBits_nearest num den (magBits y) hd
  have h0 := roundBits_nearest num den 0 hd
  rw [magVal_zero] at h0
  have hs : scaled (ofSignMag isNeg (roundBits num den)) =
      if isNeg then -(magVal (roundBits num den) : Int) else magVal (roundBits num den) := by
    simp only [scaled, sign_ofSignMag, scaledMag_eq, hm]
  simp only [hs, hm]
  refine ⟨by simp [finite, hm, roundBits_lt hd h], ?_⟩
  subst ht
  have hy : scaled y = if sign y then -(magVal (magBits y) : Int) else magVal (magBits y) := by
    simp only [scaled, scaledMag_eq]
  rw [hy]
  simp only at h1 h0
  have hv : (0 : Int) ≤ magVal (magBits y) * den := by positivity
  have hv0 : (magVal (magBits y) : Int) * den = 0 → (magVal (magBits y) : Int) = 0 := by
    intro h
    rcases mul_eq_zero.1 h with h | h
    · exact h
    · exfalso; have : den = 0 := by exact_mod_cast h
      omega
  simp only [Nat.cast_zero, zero_mul] at h0
  generalize magVal (magBits y) = V at *
  generalize magVal (roundBits num den) = R at *
  have e1 : (-(R : Int)) * den = -(R * den) := by ring
  have e2 : (-(V : Int)) * den = -(V * den) := by ring
  cases isNeg <;> cases sign y <;> simp only [Bool.false_eq_true, if_false, if_true, e1, e2] <;>
    generalize (R : Int) * den = A at * <;> generalize (V : Int) * den = W at * <;> constructor <;> omega

end Sys2Proof.F64
end

