-- ==== Sys2Proof/Laws/Numerics.lean ====
section
/-! SUPPORT. The reference numerics on zeros, and their cosines (R163 of spec/43_transform.md). -/

namespace Sys2Proof.F64

theorem scaledMag_of_isZero {x : F64} (h : isZero x = true) : scaledMag x = 0 := (isZero_iff x).1 h

theorem scaled_of_isZero {x : F64} (h : isZero x = true) : scaled x = 0 := (isZero_iff_scaled x).1 h

/-! ### What the reference operations do on finite operands -/

/-- The IEEE 754 product and sum of finite operands with an exact result within ±FMAX round once. -/
theorem ieeeMul_of_le {a b : F64} (ha : finite a = true) (hb : finite b = true)
    (h : scaledMag a * scaledMag b ≤ maxScaled * 2 ^ 1074) :
    ieeeMul a b = some (ofSignMag (sign a != sign b) (roundBits (scaledMag a * scaledMag b) (2 ^ 1074))) := by
  rw [ieeeMul, if_pos (by simp [ha, hb]), Nat.min_eq_right (roundBits_lt (by positivity) h).le]

theorem ieeeAdd_of_le {a b : F64} (ha : finite a = true) (hb : finite b = true)
    (h : (scaled a + scaled b).natAbs ≤ maxScaled) :
    ieeeAdd a b = some (ofSignMag (if scaled a + scaled b = 0 then sign a && sign b else decide (scaled a + scaled b < 0))
      (roundBits (scaled a + scaled b).natAbs 1)) := by
  rw [ieeeAdd, if_pos (by simp [ha, hb])]; dsimp only; rw [Nat.min_eq_right (roundBits_lt one_pos (by rwa [Nat.mul_one])).le]

/-- Finite operands: the IEEE 754 result, or nothing beyond ±FMAX. -/
theorem refMul_of_le {a b : F64} (h : scaledMag a * scaledMag b ≤ maxScaled * 2 ^ 1074) : refMul a b = ieeeMul a b := by
  rw [refMul, if_neg]; rw [decide_eq_false (Nat.not_lt.2 h), Bool.and_false]; exact Bool.false_ne_true

theorem refMul_of_lt {a b : F64} (ha : finite a = true) (hb : finite b = true)
    (h : maxScaled * 2 ^ 1074 < scaledMag a * scaledMag b) : refMul a b = none := by
  rw [refMul, if_pos]; rw [ha, hb, decide_eq_true h]; rfl

theorem refAdd_of_le {a b : F64} (h : (scaled a + scaled b).natAbs ≤ maxScaled) : refAdd a b = ieeeAdd a b := by
  rw [refAdd, if_neg]; rw [decide_eq_false (Nat.not_lt.2 h), Bool.and_false]; exact Bool.false_ne_true

theorem refAdd_of_lt {a b : F64} (ha : finite a = true) (hb : finite b = true)
    (h : maxScaled < (scaled a + scaled b).natAbs) : refAdd a b = none := by
  rw [refAdd, if_pos]; rw [ha, hb, decide_eq_true h]; rfl

/-! ### Zeros -/

/-- A product with a zero is the zero of the product's sign. -/
theorem ieeeMul_of_zero {a b : F64} (ha : finite a = true) (hb : finite b = true)
    (h : isZero a = true ∨ isZero b = true) : ieeeMul a b = some (zeroOf (sign a != sign b)) := by
  have h0 : scaledMag a * scaledMag b = 0 := by
    rcases h with h | h <;> simp [scaledMag_of_isZero h]
  rw [ieeeMul_of_le ha hb (by rw [h0]; exact Nat.zero_le _), h0, roundBits_zero _ (by positivity)]; rfl

theorem refMul_of_zero {a b : F64} (ha : finite a = true) (hb : finite b = true)
    (h : isZero a = true ∨ isZero b = true) : refMul a b = some (zeroOf (sign a != sign b)) := by
  have h0 : scaledMag a * scaledMag b = 0 := by
    rcases h with h | h <;> simp [scaledMag_of_isZero h]
  rw [refMul_of_le (by rw [h0]; exact Nat.zero_le _), ieeeMul_of_zero ha hb h]

/-- The sum of two zeros is -0 only if both are. -/
theorem ieeeAdd_zeros {a b : F64} (ha : isZero a = true) (hb : isZero b = true) :
    ieeeAdd a b = some (zeroOf (sign a && sign b)) := by
  have h0 : scaled a + scaled b = 0 := by rw [scaled_of_isZero ha, scaled_of_isZero hb]; rfl
  rw [ieeeAdd_of_le (finite_of_isZero ha) (finite_of_isZero hb) (by rw [h0]; exact Nat.zero_le _), h0, if_pos rfl,
    Int.natAbs_zero, roundBits_zero 1 one_pos]; rfl

theorem refAdd_zeros {a b : F64} (ha : isZero a = true) (hb : isZero b = true) :
    refAdd a b = some (zeroOf (sign a && sign b)) := by
  rw [refAdd_of_le, ieeeAdd_zeros ha hb]
  rw [scaled_of_isZero ha, scaled_of_isZero hb]; exact Nat.zero_le _

/-- Adding a zero changes no other value. -/
theorem refAdd_of_zero {a b : F64} (ha : isZero a = true) (hb : finite b = true) (hb0 : isZero b = false) :
    refAdd a b = some b ∧ refAdd b a = some b := by
  have hne : scaled b ≠ 0 := by
    intro h; rw [← isZero_iff_scaled] at h; simp [h] at hb0
  have hr : roundBits (scaledMag b) 1 = magBits b := by
    have := roundBits_magVal (magBits b) 1 one_pos
    rwa [Nat.mul_one] at this
  have hsg : decide (scaled b < 0) = sign b := by
    have h := hne
    simp only [scaled] at h ⊢
    by_cases hs : sign b = true
    · simp [hs] at h ⊢; omega
    · simp [hs] at h ⊢
  have hle : (scaled b).natAbs ≤ maxScaled := by rw [scaled_natAbs]; exact scaledMag_le hb
  constructor
  · rw [refAdd_of_le (by rwa [scaled_of_isZero ha, zero_add]),
      ieeeAdd_of_le (finite_of_isZero ha) hb (by rwa [scaled_of_isZero ha, zero_add]), scaled_of_isZero ha, zero_add,
      if_neg hne, hsg, scaled_natAbs, hr, ofSignMag_sign_magBits]
  · rw [refAdd_of_le (by rwa [scaled_of_isZero ha, add_zero]),
      ieeeAdd_of_le hb (finite_of_isZero ha) (by rwa [scaled_of_isZero ha, add_zero]), scaled_of_isZero ha, add_zero,
      if_neg hne, hsg, scaled_natAbs, hr, ofSignMag_sign_magBits]

/-- The digits of π agree with Machin's formula, to 160 fraction bits. -/
theorem piFixed_digits : piFixed 200 / 2 ^ 40 = piFix := by decide +kernel

theorem cosQuarter_le (a d : Nat) : cosQuarter a d ≤ 2 ^ fixBits := by
  unfold cosQuarter cosFixed; exact Nat.min_le_right _ _

end Sys2Proof.F64

namespace Sys2Proof.Arith

open F64

/-- Every entry of `COS` is finite. -/
theorem cosEntry_finite (b n k : Nat) : finite (cosEntry b n k) = true := by
  have key : ∀ isNeg num, num ≤ 2 ^ fixBits → finite (ofRat isNeg num (2 ^ fixBits)) = true := by
    intro isNeg num h
    have hp : 0 < 2 ^ fixBits := by positivity
    have hle : num * 2 ^ 1074 ≤ maxScaled * 2 ^ fixBits := by
      rw [Nat.mul_comm]
      refine Nat.mul_le_mul ?_ h
      rw [maxScaled, show 2045 = 1074 + 971 from rfl, pow_add, Nat.mul_left_comm]
      exact Nat.le_mul_of_pos_right _ (by positivity)
    simp only [ofRat, finite, magBits_roundBits hp hle, roundBits_lt hp hle, decide_true]
  exact key _ _ (cosQuarter_le _ _)

/-- The sequential sum of products with zeros is +0. -/
theorem dotAcc_zeros (xs ys : List F64) (hx : ∀ x ∈ xs, isZero x = true) (hy : ∀ y ∈ ys, finite y = true) :
    dotAcc xs ys 0 = some 0 := by
  induction xs generalizing ys with
  | nil => cases ys <;> rfl
  | cons x xs ih =>
    cases ys with
    | nil => rfl
    | cons y ys =>
      simp only [List.mem_cons, forall_eq_or_imp] at hx hy
      have h0 : ieeeAdd 0 (zeroOf (sign x != sign y)) = some 0 := by
        cases (sign x != sign y) <;> decide +kernel
      rw [dotAcc, ieeeMul_of_zero (finite_of_isZero hx.1) hy.1 (.inl hx.1)]
      simp only [Option.bind_some, h0]
      exact ih ys hx.2 hy.2

theorem absSum_zeros (xs : List F64) (hx : ∀ x ∈ xs, isZero x = true) : absSum xs = 0 := by
  unfold absSum
  rw [List.sum_eq_zero]
  intro n hn
  obtain ⟨x, h, rfl⟩ := List.mem_map.1 hn
  exact scaledMag_of_isZero (hx x h)

/-- As a cosine is at most 1, a small `|scale| · Σ|x|` keeps every element of a kernel within ±FMAX. -/
theorem withinRange_of_le {b : Nat} {scale : F64} {xs : List F64} (angles : List Nat)
    (h : scaledMag scale * absSum xs ≤ maxScaled * 2 ^ 1074) : withinRange b scale xs angles = true := if_pos h

/-- An element of finite operands with a small `|scale| · Σ|x|` is what the numerics record computes. -/
theorem element_of_le {b : Nat} {scale : F64} {xs : List F64} (angles : List Nat) (value : Option F64)
    (hx : ∀ x ∈ xs, finite x = true) (h : scaledMag scale * absSum xs ≤ maxScaled * 2 ^ 1074) :
    element b scale xs angles value = value := by
  rw [element, List.all_eq_true.2 hx, withinRange_of_le angles h]; rfl

/-- An element is unspecified or what the numerics record computes. -/
theorem element_cases (b : Nat) (scale : F64) (xs : List F64) (angles : List Nat) (value : Option F64) :
    element b scale xs angles value = none ∨ element b scale xs angles value = value := by
  unfold element; split
  · exact .inr rfl
  · exact .inl rfl

/-- An element of zeros is what the numerics record computes. -/
theorem element_zeros (b : Nat) (scale : F64) {xs : List F64} (angles : List Nat) (value : Option F64)
    (hx : ∀ x ∈ xs, isZero x = true) : element b scale xs angles value = value :=
  element_of_le angles value (fun x h => finite_of_isZero (hx x h)) (by rw [absSum_zeros xs hx]; exact Nat.zero_le _)

/-- The reference's element of zeros is the zero of the scale's sign. -/
theorem refElement_zeros {scale : F64} {xs cs : List F64} (hs : finite scale = true)
    (hx : ∀ x ∈ xs, isZero x = true) (hy : ∀ y ∈ cs, finite y = true) :
    refElement scale xs cs = some (zeroOf (sign scale)) := by
  unfold refElement
  rw [dotAcc_zeros xs cs hx hy, Option.bind_some, ieeeMul_of_zero hs (by decide) (.inr (by decide)),
    show sign 0 = false by decide, Bool.bne_false]

/-- Another instance's element of zeros is +0. -/
theorem otherElement_zeros {xs : List F64} (value : F64) (hx : ∀ x ∈ xs, isZero x = true) :
    otherElement xs value = some 0 := if_pos (List.all_eq_true.2 hx)

end Sys2Proof.Arith
end

