-- ==== Sys2Proof/Laws/PerInstr.lean ====
section
/-! SUPPORT. Per-instruction statements about the encoding, one lemma per constructor of `Instr` (LAWS.json). -/

/-! ### The row of the opcode table -/

namespace Sys2Proof.Laws.OpcodeRow

/-- The word of a command is of exactly one row of spec/opcode_table.json, the one with its mnemonic, and its operand fits
the field (R91, R93). -/
def Statement (i : Instr) : Prop :=
  i.wf = true ∧ ((opRows.filter fun r => encode i &&& r.mask == r.pattern).map (·.mnemonic)) = [i.mnemonic]

theorem nop : Statement .nop := by unfold Statement; decide

theorem start : Statement .start := by unfold Statement; decide

theorem stop : Statement .stop := by unfold Statement; decide

theorem abort : Statement .abort := by unfold Statement; decide

theorem unpack : ∀ c, Statement (.unpack c) := by unfold Statement; decide

theorem deq : ∀ c, Statement (.deq c) := by unfold Statement; decide

theorem quant : ∀ c, Statement (.quant c) := by unfold Statement; decide

theorem pack : ∀ c, Statement (.pack c) := by unfold Statement; decide

theorem isdec : ∀ c, Statement (.isdec c) := by unfold Statement; decide

theorem isenc : ∀ c, Statement (.isenc c) := by unfold Statement; decide

theorem load : ∀ c, Statement (.load c) := by unfold Statement; decide

theorem imdct : ∀ c, Statement (.imdct c) := by unfold Statement; decide

theorem mdct : ∀ c, Statement (.mdct c) := by unfold Statement; decide

theorem rel : ∀ c, Statement (.rel c) := by unfold Statement; decide

end Sys2Proof.Laws.OpcodeRow
end

