-- ==== Sys2Proof/Laws/Tables.lean ====
section
/-! SUPPORT. The entries of the two closed-form tables that no rule reads are the correctly rounded values of their
formulas (R24, R26), checked by comparing 128th powers. -/

namespace Sys2Proof.Tables

theorem quantScale_nearest : ∀ x ∈ List.range 64,
    isNearestPow (quantScale (BitVec.ofNat 6 x)) (-(448 + 53 * ((x : Int) - 63))) = true := by decide +kernel

theorem scaleConv_nearest : ∀ x ∈ List.range' 2 125,
    isNearestPow (scaleConv (BitVec.ofNat 7 x)) (53 * ((x : Int) - 64)) = true := by decide +kernel

/-- SCALE_CONV is 0 outside 1 < x < 127 (R26). -/
theorem scaleConv_ends : scaleConv 0 = 0 ∧ scaleConv 1 = 0 ∧ scaleConv 127 = 0 := by decide

end Sys2Proof.Tables
end

