-- ==== Sys2Proof/Tests/Slice0.lean ====
section
/-! SUPPORT. The model's own tests: ill-formed words and instances are refused, the words of the opcode map decode to
their commands, one or two small steps per command with the numbers of spec/95_test_vectors.md, and for each obligation
with hypotheses a concrete state that meets them (`witness_…`). -/

open Sys2Proof Sys2Proof.Machine

namespace Sys2Proof.Tests

-- one kernel evaluation at a time: many at once ask for more memory than the sandbox gives
set_option Elab.async false

/-! ### Small states: the test instance of spec/95_test_vectors.md section 1, B = 4 -/

/-- What `f` sees in the next state of an outcome. -/
def see {α : Type} (o : Host.Outcome State Fault Refusal) (f : State → α) : Option α :=
  match o with
  | .next t => some (f t)
  | .fault _ => none
  | .refused _ => none

/-- A slot of zeros, Idle. -/
def slot : Chan where
  sf := [0, 0, 0, 0]
  res := [0, 0, 0, 0]
  q := [0, 0, 0, 0]
  x := [0, 0, 0, 0]
  t := [0, 0, 0, 0]
  ov := [0, 0, 0, 0]
  cpl := 0
  intens := 0
  fsm := .idle
  qvalid := false

/-- Primary of channel 1. -/
def primary : Chan := { slot with cpl := 0x11 }

/-- Secondary of channel 0. -/
def secondary : Chan := { slot with cpl := 0x02 }

/-- No session, two channels with the given slots; the frame is `8F 40`, its limit bit 10. -/
def closed (dir : BitVec 1) (a b : Chan) : State where
  cfg := Cfg.test 4 8
  chans := Vector.ofFn fun i => if i.val = 0 then a else if i.val = 1 then b else slot
  fb := [(0, 0x8F), (1, 0x40)]
  fbDraw := 0
  cfgNch := 2
  cfgBands := 4
  cfgDir := dir
  cplMode := 0
  bcPos := 0
  bcLimit := 10
  run := false
  cmd := 0
  resp := ⟨.success, 0⟩
  status := 0
  portData := 0
  pending := []
  draws := 1

/-- The same with a session open. -/
def session (dir : BitVec 1) (a b : Chan) : State := { closed dir a b with run := true }

/-- F64 patterns of small numbers: 1, 1/2, -1/2, 2, -2, 1/4, -1/4, 1/8. -/
def one : F64 := 0x3FF0000000000000
def half : F64 := 0x3FE0000000000000
def negHalf : F64 := 0xBFE0000000000000
def two : F64 := 0x4000000000000000
def negTwo : F64 := 0xC000000000000000
def quarter : F64 := 0x3FD0000000000000
def negQuarter : F64 := 0xBFD0000000000000
def eighth : F64 := 0x3FC0000000000000
/-- Infinity and a NaN. -/
def inf : F64 := 0x7FF0000000000000
def nan : F64 := 0x7FF8000000000001

/-- The bands of program 3 and section 6.4: `10` is 1 in band 0, `00111` is -3 in band 1, band 2 is silent, `101` is -2
in band 3. -/
def coded : Chan := { primary with sf := [32, 40, 0, 63], res := [1, 8, 5, 3] }

/-- A decode session before `UNPACK 0`. -/
def toUnpack : State := session 0 coded secondary

/-- A decode session before `DEQ 0`; the silent band holds 99. -/
def toDeq : State := session 0 { coded with q := [1, 0xFFFD, 99, 0xFFFE], qvalid := true } secondary

/-- An encode session before `QUANT 0` (section 6.5, step 7). -/
def toQuant : State :=
  session 1 { primary with
    sf := [56, 56, 56, 56], res := [7, 7, 7, 7], fsm := .transformed
    x := [0xBFD66E7BE7244F1C, 0x3F9F311572D4F7FC, 0x3FD51D4AC18D43FD, 0x3FC8AADEBF98CC94] } secondary

/-- An encode session before `PACK 0` (section 6.5, step 11). -/
def toPack : State :=
  { session 1 { primary with
      sf := [56, 56, 56, 56], res := [7, 7, 7, 7], q := [0xFFFE, 0, 2, 1], fsm := .transformed, qvalid := true }
      secondary with
    fb := [(0, 0xFF), (1, 0xFF), (2, 0xFF), (3, 0xFF)], bcLimit := 15 }

/-- A decode session before `ISDEC 1` with the given index (section 7). -/
def toIsdec (index : BitVec 4) : State :=
  session 0 { primary with x := [one, half, negHalf, 0], fsm := .loaded } { secondary with intens := index }

/-- An encode session before `ISENC 1` (section 7, fifth row). -/
def toIsenc : State :=
  session 1 { primary with x := [one, one, one, one], fsm := .transformed }
    { secondary with x := [0xBFF8000000000000, 0x3FF8000000000000, 0xBFF8000000000000, 0x3FF8000000000000]
                     fsm := .transformed }

/-- A decode session before `IMDCT 0` with `X[0]` = [1, 0, 0, 0] and the given overlap (section 8.1). -/
def toImdct (ov : List F64) : State := session 0 { primary with x := [one, 0, 0, 0], ov := ov, fsm := .loaded } secondary

/-- An encode session before `MDCT 0` (section 8.2). -/
def toMdct (ov t : List F64) : State := session 1 { primary with ov := ov, t := t, fsm := .loaded } secondary

/-- The buffers of the first and second `MDCT` vector of section 8.2. -/
def block1 : List F64 := [one, two, 0x4008000000000000, 0x4010000000000000]
def block2 : List F64 := [0xBFF0000000000000, half, quarter, 0x4020000000000000]

/-- The state with one host access pending. -/
def withAccess (s : State) (a : HostAccess) : State := { s with pending := [a] }

/-! ### WellFormed: ill-formed terms are refused -/

/-- Format N with a bit of 23:0 set (section 4). -/
theorem test_legalWord_refuses_operand_of_start : legalWord 0x01000001 = false := by decide
theorem test_legalWord_refuses_operand_of_nop : legalWord 0x00000001 = false := by decide
/-- Format C with a bit of 23:4 set (section 4). -/
theorem test_legalWord_refuses_bit4 : legalWord 0x31000010 = false := by decide
theorem test_legalWord_refuses_bit23 : legalWord 0x10800000 = false := by decide
/-- Reserved opcodes (section 4). -/
theorem test_legalWord_refuses_reserved_opcodes :
    ([0x04000000, 0x14000000, 0x22000000, 0x34000000, 0xFF000000, 0xFFFFFFFF] : List Word).all
      (fun w => !legalWord w) = true := by decide
/-- The fourteen words of section 4 are legal. -/
theorem test_legalWord_accepts_the_map :
    ([0x00000000, 0x01000000, 0x02000000, 0x03000000, 0x10000000, 0x11000000, 0x12000000, 0x13000000, 0x20000000,
      0x21000000, 0x30000000, 0x31000000, 0x32000000, 0x33000000, 0x3100000F] : List Word).all legalWord = true := by
  decide

/-- `B` odd, zero, above 2048 (R6). -/
theorem test_cfg_refuses_blockSize :
    ¬ { Cfg.test 4 8 with blockSize := 5 }.BlockSizeOk ∧ ¬ { Cfg.test 4 8 with blockSize := 0 }.BlockSizeOk ∧
    ¬ { Cfg.test 4 8 with blockSize := 2050 }.BlockSizeOk := by decide +kernel
/-- `FB_CAP` zero or above 2^20 (R6). -/
theorem test_cfg_refuses_fbCap : ¬ (Cfg.test 4 0).FbCapOk ∧ ¬ (Cfg.test 4 1048577).FbCapOk := by decide +kernel
/-- A scale of zero, an infinite scale (R161). -/
theorem test_cfg_refuses_scales :
    ¬ { Cfg.test 4 8 with sInv := 0 }.ScalesOk ∧ ¬ { Cfg.test 4 8 with sFwd := inf }.ScalesOk := by decide +kernel
/-- `DEQ_NORM` of the wrong length, with a zero, with a negative entry (R27). -/
theorem test_cfg_refuses_deqNorm :
    ¬ { Cfg.test 4 8 with deqNorm := [0, one] }.DeqNormOk ∧
    ¬ { Cfg.test 4 8 with deqNorm := 0 :: List.replicate 14 one ++ [0] }.DeqNormOk ∧
    ¬ { Cfg.test 4 8 with deqNorm := 0 :: List.replicate 14 one ++ [negHalf] }.DeqNormOk := by decide +kernel
/-- A window of the wrong length, an asymmetric one, one with an entry that is no binary32 value (R29). -/
theorem test_cfg_refuses_window :
    ¬ { Cfg.test 4 8 with window := [one, one] }.WindowOk ∧
    ¬ { Cfg.test 4 8 with window := one :: List.replicate 7 half }.WindowOk ∧
    ¬ { Cfg.test 4 8 with window := List.replicate 8 0x3FF0000000000001 }.WindowOk ∧
    ¬ { Cfg.test 4 8 with window := List.replicate 8 inf }.WindowOk := by decide +kernel
/-- An empty word, a word that begins another (W1). -/
theorem test_code_refuses_W1 :
    ¬ Code.W1 [⟨[], 0⟩] ∧ ¬ Code.W1 [⟨[true], 0⟩, ⟨[true, false], 1⟩] := by decide
/-- A missing word (W2), a missing and a repeated value (W3), 33 bits (W5). -/
theorem test_code_refuses_W2_W3_W5 :
    ¬ Code.W2 [⟨[true], 0⟩] 1 ∧ ¬ Code.W3 [⟨[false], 0⟩, ⟨[true], 1⟩] 1 ∧
    ¬ Code.W3 [⟨[false], 0⟩, ⟨[true], 0⟩] 0 ∧ ¬ Code.W5 [⟨List.replicate 33 true, 0⟩] := by decide
/-- The test instance is well-formed but for its code tables, which `ReferenceCodeIsWellFormed` is about. -/
theorem test_cfg_accepts_the_test_parameters :
    (Cfg.test 4 8).BlockSizeOk ∧ (Cfg.test 4 8).FbCapOk ∧ (Cfg.test 4 8).ScalesOk ∧ (Cfg.test 4 8).DeqNormOk ∧
    (Cfg.test 4 8).WindowOk := by decide +kernel
/-- The reference code of resolution 7 is well-formed (R99). -/
theorem test_code_accepts_reference_7 : Code.WfTable .reference 7 := by decide +kernel

/-! ### Decoding: words written out from R92, opcode byte, zeros, channel -/

theorem test_decode_NOP : decode 0b00000000000000000000000000000000 = .ok .nop := by decide
theorem test_decode_START : decode 0b00000001000000000000000000000000 = .ok .start := by decide
theorem test_decode_STOP : decode 0b00000010000000000000000000000000 = .ok .stop := by decide
theorem test_decode_ABORT : decode 0b00000011000000000000000000000000 = .ok .abort := by decide
theorem test_decode_UNPACK : decode 0b00010000000000000000000000000011 = .ok (.unpack 3) := by decide
theorem test_decode_DEQ : decode 0b00010001000000000000000000001000 = .ok (.deq 8) := by decide
theorem test_decode_QUANT : decode 0b00010010000000000000000000000101 = .ok (.quant 5) := by decide
theorem test_decode_PACK : decode 0b00010011000000000000000000001110 = .ok (.pack 14) := by decide
theorem test_decode_ISDEC : decode 0b00100000000000000000000000000001 = .ok (.isdec 1) := by decide
theorem test_decode_ISENC : decode 0b00100001000000000000000000001010 = .ok (.isenc 10) := by decide
theorem test_decode_LOAD : decode 0b00110000000000000000000000000010 = .ok (.load 2) := by decide
theorem test_decode_IMDCT : decode 0b00110001000000000000000000001111 = .ok (.imdct 15) := by decide
theorem test_decode_MDCT : decode 0b00110010000000000000000000000100 = .ok (.mdct 4) := by decide
theorem test_decode_REL : decode 0b00110011000000000000000000001100 = .ok (.rel 12) := by decide
/-- Illegal words, by reason (section 4). -/
theorem test_decode_refuses :
    decode 0x31000010 = .error .mustBeZero ∧ decode 0x00000001 = .error .mustBeZero ∧
    decode 0x10800000 = .error .mustBeZero ∧ decode 0x04000000 = .error .reservedOpcode ∧
    decode 0xFFFFFFFF = .error .reservedOpcode := by decide
/-- Words of section 4 and of the programs. -/
theorem test_encode_words :
    encode .abort = 0x03000000 ∧ encode (.imdct 1) = 0x31000001 ∧ encode (.isenc 10) = 0x2100000A ∧
    encode (.rel 15) = 0x3300000F := by decide
/-- The notation of R102. -/
theorem test_asm : (Instr.asm (.imdct 15)) = "IMDCT 15" ∧ Instr.asm .stop = "STOP" := by decide +kernel

/-! ### System commands (section 9) -/

theorem test_nop_clears_resp :
    see (exec .nop { toUnpack with resp := ⟨.sequenceError, 5⟩, status := 8 }) (fun t => (t.resp.word, t.status)) =
      some (0, 8) := by decide +kernel
/-- Step 8: a good configuration; both overlap buffers become +0. -/
theorem test_start_opens :
    see (exec .start (closed 0 { primary with ov := block1 } secondary))
      (fun t => (t.resp.word, t.stateWord, (t.chan 0).ov)) = some (0, 3, [0, 0, 0, 0]) := by decide +kernel
/-- Channel 2's partner 1 points to 0. -/
theorem test_start_wrong_pairing :
    see (exec .start (({ closed 0 primary secondary with cfgNch := 3 }).setChan 2 { slot with cpl := 0x11 }))
      (fun t => t.resp.word) = some 0x02030004 := by decide +kernel
theorem test_stop_closes :
    see (exec .stop (session 0 { primary with fsm := .loaded, ov := block1 } secondary))
      (fun t => (t.resp.word, t.stateWord, (t.chan 0).chstat, (t.chan 0).ov)) = some (0, 2, 0, block1) := by decide +kernel
theorem test_stop_without_session :
    see (exec .stop (closed 0 primary secondary)) (fun t => (t.resp.word, t.status)) = some (0x00010003, 8) := by
  decide +kernel
theorem test_abort_keeps_session :
    see (exec .abort (session 0 { primary with fsm := .transformed, ov := block1 } secondary))
      (fun t => (t.resp.word, t.stateWord, (t.chan 0).chstat, (t.chan 0).ov)) = some (0, 3, 0, block1) := by decide +kernel

/-! ### Quantizer commands (sections 6.4 and 6.5) -/

/-- Step 4 of section 6.4. -/
theorem test_unpack :
    see (exec (.unpack 0) toUnpack)
      (fun t => (t.resp.word, (t.chan 0).q.map (·.toInt), t.bcPos, (t.chan 0).chstat)) =
      some (0, [1, -3, 0, -2], 10, 4) := by decide +kernel
/-- Step 3 of section 6.4: the limit falls inside the last word. -/
theorem test_unpack_overrun :
    see (exec (.unpack 0) { toUnpack with bcLimit := 9 })
      (fun t => (t.resp.word, t.bcPos, (t.chan 0).chstat, t.status)) = some (0x00030006, 0, 0, 0x40) := by decide +kernel
/-- Step 6 of section 6.4: the silent band's 99 is ignored. -/
theorem test_deq :
    see (exec (.deq 0) toDeq) (fun t => (t.resp.word, (t.chan 0).x, (t.chan 0).chstat)) =
      some (0, [0x3F50E6D887DAE15F, 0xBF685FFE33D4300F, 0, 0xC019DC22BE484458], 1) := by decide +kernel
/-- Step 5 of section 6.4: |2| is above `QRANGE[1]`. -/
theorem test_deq_range :
    see (exec (.deq 0) (session 0 { coded with q := [2, 0xFFFD, 0, 0xFFFE], qvalid := true } secondary))
      (fun t => (t.resp.word, (t.chan 0).chstat)) = some (0x00000007, 4) := by decide +kernel
/-- Step 7 of section 6.5. -/
theorem test_quant :
    see (exec (.quant 0) toQuant) (fun t => (t.resp.word, (t.chan 0).q.map (·.toInt), (t.chan 0).chstat)) =
      some (0, [-2, 0, 2, 1], 6) := by decide +kernel
/-- Section 6.2: exactly half a level rounds away from zero, one unit in the last place below it to zero, and a large
value clamps. -/
theorem test_quant_ties :
    quantValue (Cfg.test 4 8) 0x3F40E6D887DAE15F 32 1 = some 1 ∧
    quantValue (Cfg.test 4 8) 0xBF40E6D887DAE15F 32 1 = some (-1) ∧
    quantValue (Cfg.test 4 8) 0x3F40E6D887DAE15E 32 1 = some 0 ∧
    quantValue (Cfg.test 4 8) 0xC1CDCD6500000000 32 8 = some (-15) := by decide +kernel
/-- Step 11 of section 6.5: bit 15 and the bytes after it keep their ones. -/
theorem test_pack :
    see (exec (.pack 0) toPack) (fun t => (t.resp.word, t.fb, t.bcPos, (t.chan 0).chstat)) =
      some (0, [(0, 0x50), (1, 0x85), (2, 0xFF), (3, 0xFF)], 15, 2) := by decide +kernel
/-- Step 8 of section 6.5: 15 bits do not fit into 14. -/
theorem test_pack_budget :
    see (exec (.pack 0) { toPack with bcLimit := 14 }) (fun t => (t.resp.word, t.fb == toPack.fb, t.bcPos)) =
      some (0x00030006, true, 0) := by decide +kernel
/-- Section 6.3. -/
theorem test_vlc :
    Code.vlcDecode (Code.reference 8) (fun i => [false, false, false, false, true].getD i false) 0 5 = .found 0 4 ∧
    Code.vlcDecode (Code.reference 8) (fun i => [false, false, false, true].getD i false) 0 4 = .overrun ∧
    Code.vlcEncode (Code.reference 7) (-2) = [false, true, false, true] ∧
    Code.vlcEncode (Code.reference 8) (-3) = [false, false, true, true, true] := by decide +kernel

/-! ### Stereo commands (section 7) -/

/-- The source's coupling example S7. -/
theorem test_isdec :
    see (exec (.isdec 1) (toIsdec 0)) (fun t => (t.resp.word, (t.chan 1).x, (t.chan 1).chstat)) =
      some (0, [two, one, 0xBFF0000000000000, 0], 1) := by decide +kernel
/-- Index 3, ratio 11/7. -/
theorem test_isdec_ratio3 :
    see (exec (.isdec 1) (toIsdec 3)) (fun t => (t.chan 1).x) =
      some [0x3FF9249249249249, 0x3FE9249249249249, 0xBFE9249249249249, 0] := by decide +kernel
/-- Fifth row: 11/7 is nearer to 1.5 than 10/7; signs are ignored. -/
theorem test_isenc :
    see (exec (.isenc 1) toIsenc) (fun t => (t.resp.word, (t.chan 1).intens, (t.chan 1).chstat, (t.chan 0).chstat)) =
      some (0, 3, 0, 2) := by decide +kernel
/-- Line 1 of the secondary is met before line 2 of the primary. -/
theorem test_isenc_nonFinite :
    see (exec (.isenc 1) (session 1 { primary with x := [one, one, inf, one], fsm := .transformed }
      { secondary with x := [one, nan, one, one], fsm := .transformed })) (fun t => t.resp.word) = some 0x00010008 := by
  decide +kernel

/-! ### Transform commands (sections 8.1 to 8.3) -/

theorem test_load :
    see (exec (.load 0) toUnpack) (fun t => (t.resp.word, (t.chan 0).chstat)) = some (0, 1) := by decide +kernel
/-- An old result is dropped: `CHSTAT` 4 becomes 1. -/
theorem test_load_drops_coefficients :
    see (exec (.load 0) toDeq) (fun t => (t.chan 0).chstat) = some 1 := by decide +kernel
/-- First vector of section 8.1. -/
theorem test_imdct :
    see (exec (.imdct 0) (toImdct [0, 0, 0, 0])) (fun t => (t.resp.word, (t.chan 0).t, (t.chan 0).chstat)) =
      some (0, [0x3FB39EBA47E54F37, 0x3FB39EBA4C0CEF38, 0xBFBD5D0AFE4AB8DE, 0xBFD8A8BD316230D4], 2) := by decide +kernel
/-- Fifth vector of section 8.1: the old tail is added once, the new one does not depend on it. -/
theorem test_imdct_overlap :
    see (exec (.imdct 0) (toImdct [one, negTwo, half, quarter])) (fun t => ((t.chan 0).t, (t.chan 0).ov)) =
      some ([0x3FF139EBA47E54F3, 0xBFFEC6145B3F310C, 0x3FD8A8BD406D51C8, 0xBFC1517A62C461A8],
        [0xBFE273D73F3F5B24, 0xBFE273D7425A7420, 0xBFD8A8BD46B145F4, 0xBFBD5D0B0C816CCB]) := by decide +kernel
/-- First vector of section 8.2. -/
theorem test_mdct :
    see (exec (.mdct 0) (toMdct [0, 0, 0, 0] block1)) (fun t => (t.resp.word, (t.chan 0).x, (t.chan 0).ov)) =
      some (0, [0xC00AC1C9CD0FB8AE, 0xBFFB6F519B8E5E45, 0xBFB62EFAFA6403A0, 0x3FCDC3CC8230E067], block1) := by
  decide +kernel
/-- Second vector of section 8.2. -/
theorem test_mdct_second_block :
    see (exec (.mdct 0) (toMdct block1 block2)) (fun t => ((t.chan 0).x, (t.chan 0).ov)) =
      some ([0xC0030C43EF597D6F, 0x40070FFCF13D6065, 0xBFF24ABB494FD567, 0xBFF14CAEF7100263], block2) := by
  decide +kernel
/-- Both lines at 0.9 FMAX, B = 2, scale 1: element 0 is -0.49 FMAX, within the range though 1.8 FMAX is not; element 2,
-1.18 FMAX, lies outside (R163; cos 3π/8 = 0.383, cos π/8 = 0.924). -/
theorem test_kernel_range :
    let x : F64 := 0x7FECCCCCCCCCCCCD
    Arith.withinRange 2 one [x, x] [Arith.kernelAngle 2 0 0, Arith.kernelAngle 2 0 1] = true ∧
    Arith.withinRange 2 one [x, x] [Arith.kernelAngle 2 2 0, Arith.kernelAngle 2 2 1] = false := by decide +kernel
/-- The product of infinity and a number, and FMAX plus FMAX in the sum of a kernel (IEEE 754). -/
theorem test_ieee_overflow :
    F64.ieeeMul inf negHalf = some 0xFFF0000000000000 ∧ F64.ieeeMul inf 0 = none ∧
    F64.ieeeAdd 0x7FEFFFFFFFFFFFFF 0x7FEFFFFFFFFFFFFF = some inf ∧
    F64.refAdd 0x7FEFFFFFFFFFFFFF 0x7FEFFFFFFFFFFFFF = none := by decide +kernel
theorem test_rel :
    see (exec (.rel 0) toQuant) (fun t => (t.resp.word, (t.chan 0).chstat)) = some (0, 0) := by decide +kernel
/-- An Idle channel cannot be released (section 6.5, step 1). -/
theorem test_rel_idle : see (exec (.rel 0) toUnpack) (fun t => t.resp.word) = some 0x00050003 := by decide +kernel

/-! ### Host port and bit cursor (section 5) -/

theorem test_port_reads :
    (toUnpack.hostRead 0x000000).portData = 0x48534231 ∧ (toUnpack.hostRead 0x000001).portData = 4 ∧
    ((closed 0 slot slot).hostRead 0x000005).portData = 2 ∧
    (toUnpack.hostRead 0x500004).status = 0x8000 ∧ (toUnpack.hostRead 0x010000).status = 0x8000 ∧
    (toUnpack.hostRead 0x100003).status = 0x8000 ∧ (toUnpack.hostRead 0x800008).status = 0x8000 ∧
    (toUnpack.hostRead 0x900000).portData = 0 := by decide +kernel
theorem test_port_writes :
    see ((closed 0 slot slot).hostWrite 0x000008 0x25) (·.cfgNch) = some 5 ∧
    see (toUnpack.hostWrite 0x00000C 0x1000003) (·.bcPos) = some 3 ∧
    see (toUnpack.hostWrite 0x400000 0x1FFFF) (fun t => (t.hostRead 0x400000).portData) = some 0xFFFFFFFFFFFFFFFF ∧
    see ((closed 0 slot slot).hostWrite 0x100000 0xFF) (fun t => (t.hostRead 0x100000).portData) = some 0xF3 ∧
    see (toUnpack.hostWrite 0x000008 2) (fun t => (t.cfgNch, t.status)) = some (2, 0x8000) ∧
    see (toUnpack.hostWrite 0x000002 0x100000000) (fun t => (t.cmd, t.resp.word)) = some (0, 0) := by decide +kernel
theorem test_status_write_one_to_clear :
    see ({ toUnpack with status := 0x48 }.hostWrite 0x000004 0x0008) (·.status) = some 0x40 := by decide +kernel
theorem test_bit_reads :
    toUnpack.bitRead 0 2 = 2 ∧ toUnpack.bitRead 2 5 = 7 ∧ toUnpack.bitRead 7 3 = 5 ∧ toUnpack.bitRead 6 4 = 13 ∧
    toUnpack.bitRead 0 16 = 0x8F40 ∧ toUnpack.bitRead 5 0 = 0 := by decide +kernel
theorem test_bit_writes :
    ({ toUnpack with fb := [(0, 0xFF), (1, 0xFF)] }.bitWrite 3 4 5).fb = [(0, 0xEB), (1, 0xFF)] ∧
    ({ toUnpack with fb := [(0, 0xFF), (1, 0xFF)] }.bitWrite 6 4 0).fb = [(0, 0xFC), (1, 0x3F)] ∧
    ({ toUnpack with fb := [(0, 0), (1, 0)] }.bitWrite 0 12 0x2CD).fb = [(0, 0x2C), (1, 0xD0)] := by decide +kernel
/-- An illegal word (section 4): `RESP` = 0x31000002, `STATUS` bit 2, `CMD` holds the word. -/
theorem test_illegal_word :
    see (toUnpack.hostWrite cmdLoc 0x31000010) (fun t => (t.resp.word, t.status, t.cmd)) =
      some (0x31000002, 4, 0x31000010) := by decide +kernel
/-- The first step from reset with a word placed runs its command: no session is open (section 9, step 2). -/
theorem test_step_from_reset :
    see (step (State.reset.withFetchWord 32 0x30000000)) (fun t => (t.resp.word, t.cmd, t.pending)) =
      some (0x00010003, 0x30000000, []) := by decide +kernel
/-- `DECFRAME` of a coupled pair (R103). -/
theorem test_decframe :
    toUnpack.decFrame = [.unpack 0, .deq 0, .isdec 1, .imdct 0, .imdct 1] ∧ toUnpack.decFrameEnd = [.rel 0, .rel 1] := by
  decide +kernel
/-- `ENCFRAME` of a coupled pair (R103). -/
theorem test_encframe :
    toQuant.encFrame = [.load 0, .mdct 0, .load 1, .mdct 1, .isenc 1] ∧
    toQuant.encFrameEnd = [.quant 0, .pack 0, .rel 0] := by decide +kernel

/-! ### Witnesses: for each obligation with hypotheses, a state and operands that meet them all -/

/-- Both members of a test pair are in the session, and the tables are good. -/
theorem ready_session (dir : BitVec 1) (a b : Chan) (c : ChanIx) (h : c.toNat < 2) : (session dir a b).Ready c :=
  ⟨rfl, rfl, h⟩

theorem witness_IllegalWordsAreThoseOfNoRow :
    toUnpack.cfg.tablesOk = true ∧ legalWord 0x31000010 = false ∧ legalWord 0x34000000 = false ∧
    legalWord 0x3300000F = true ∧ decode 0x3300000F = .ok (.rel 15) := ⟨rfl, by decide, by decide, by decide, by decide⟩

/-- The high half of the datum plays no part. -/
theorem witness_StepRunsTheDecodedCommand :
    (withAccess toUnpack (.write cmdLoc 0xFFFFFFFF10000000)).pending = .write cmdLoc 0xFFFFFFFF10000000 :: [] ∧
    decode ((0xFFFFFFFF10000000 : PortWord).setWidth 32) = .ok (.unpack 0) := ⟨rfl, by decide⟩

theorem witness_StepTakesAccessesInOrder :
    toUnpack.pending = [] ∧
    ∃ t, step { toUnpack with pending := [.read 0, .hardReset] } = .next t ∧ t.pending = [.hardReset] :=
  ⟨rfl, _, rfl, rfl⟩

theorem witness_ParametersNeverChange : ∃ t, step (withAccess toUnpack .hardReset) = .next t := ⟨_, rfl⟩

theorem witness_HardResetSetsControlState :
    (withAccess toUnpack .hardReset).pending = .hardReset :: [] ∧ toUnpack.run = true ∧ toUnpack.bcLimit ≠ 0 :=
  ⟨rfl, rfl, by decide⟩

/-- A session in the middle of a frame meets the invariant, and a step from it answers. -/
theorem witness_StepKeepsTheInvariant :
    (withAccess toDeq (commandWrite 0x11000000)).Inv ∧
    ∃ t, step (withAccess toDeq (commandWrite 0x11000000)) = .next t := by
  refine ⟨⟨fun c => ⟨?_, ?_, ?_, ?_, ?_, ?_⟩, ?_, ?_, ?_, ?_, fun h => ?_, ?_, fun _ => ?_, fun _ => ?_, ?_⟩, _, rfl⟩
  all_goals first | exact absurd h (by decide +kernel) | skip
  · revert c; decide +kernel
  · revert c; decide +kernel
  · revert c; decide +kernel
  · revert c; decide +kernel
  · revert c; decide +kernel
  · revert c; decide +kernel
  · decide +kernel
  · decide +kernel
  · decide +kernel
  · decide +kernel
  · decide +kernel
  · decide +kernel
  · unfold State.Paired; decide +kernel
  · decide +kernel

/-- A host write to an element, `START` over a non-zero tail, a transform: each changes `OV[0]`. -/
theorem witness_OverlapChangesOnlyByItsWriters :
    see (step (withAccess toUnpack (.write 0x700000 one))) (fun t => (t.chan 0).ov == (toUnpack.chan 0).ov) = some false ∧
    see (step (withAccess (closed 0 { primary with ov := block1 } secondary) (commandWrite 0x01000000)))
      (fun t => (t.chan 0).ov == block1) = some false ∧
    see (step (withAccess (toMdct [0, 0, 0, 0] block1) (commandWrite 0x32000000)))
      (fun t => (t.chan 0).ov == [0, 0, 0, 0]) = some false := by decide +kernel

/-- `LOAD`, `REL`, `ABORT` and a hard reset each move a machine. -/
theorem witness_FsmMovesOnlyAlongItsTable :
    see (step (withAccess toUnpack (commandWrite 0x30000000))) (fun t => (t.chan 0).fsm) = some .loaded ∧
    see (step (withAccess toQuant (commandWrite 0x33000000))) (fun t => (t.chan 0).fsm) = some .idle ∧
    see (step (withAccess toQuant (commandWrite 0x03000000))) (fun t => (t.chan 0).fsm) = some .idle ∧
    see (step (withAccess toQuant .hardReset)) (fun t => (t.chan 0).fsm) = some .idle ∧
    (toUnpack.chan 0).fsm = .idle ∧ (toQuant.chan 0).fsm = .transformed ∧
    see (exec (.load 0) toUnpack) (·.resp.cause) = some .success ∧
    see (exec (.isenc 1) toIsenc) (·.resp.cause) = some .success := by decide +kernel

theorem witness_ConfigurationIsLockedWhileRunning :
    itemAt toUnpack.cfg 0x000008 = some .cfgNch ∧ itemAt toUnpack.cfg 0x000009 = some .cfgBands ∧
    itemAt toUnpack.cfg 0x00000A = some .cfgDir ∧ itemAt toUnpack.cfg 0x1F0000 = some (.cpl 15) ∧
    (withAccess toUnpack (.write 0x000008 7)).run = true ∧
    (∃ t, step (withAccess toUnpack (.write 0x000008 7)) = .next t) ∧
    ∀ rest, (withAccess toUnpack (.write 0x000008 7)).pending ≠ .hardReset :: rest :=
  ⟨by decide +kernel, by decide +kernel, by decide +kernel, by decide +kernel, rfl, ⟨_, rfl⟩, fun _ h => by cases h⟩

/-- A fault of sequence, and the overrun of `UNPACK`. -/
theorem witness_FaultChangesOnlyItsReport :
    see (execWord 0x33000000 toUnpack) (·.resp.cause) = some .sequenceError ∧
    see (execWord 0x10000000 { toUnpack with bcLimit := 9 }) (·.resp.cause) = some .bitstreamOverrun := by decide +kernel

theorem witness_BadTablesFailEveryCommand :
    { toUnpack with cfg := { Cfg.test 4 8 with tablesOk := false } }.cfg.tablesOk = false := rfl

/-- One witness for each sub-reason, at the boundaries: channel 1 is the last of the session, channel 2 the first outside. -/
theorem witness_SequenceErrorsInOrder :
    ((closed 0 primary secondary).cfg.tablesOk = true ∧ (closed 0 primary secondary).run = false) ∧
    (toUnpack.run = true ∧ direction (.mdct 0) = some 1 ∧ toUnpack.cfgDir ≠ 1) ∧
    (Instr.operand (.imdct 2) = some 2 ∧ direction (.imdct 2) = some toUnpack.cfgDir ∧
      toUnpack.cfgNch.toNat ≤ (2 : ChanIx).toNat) ∧
    ((1 : ChanIx).toNat < toUnpack.cfgNch.toNat ∧ ¬ toUnpack.RoleOk (.unpack 1)) ∧
    (toUnpack.RoleOk (.imdct 1) ∧ ¬ toUnpack.StateOk (.imdct 1)) :=
  ⟨⟨rfl, rfl⟩, ⟨rfl, rfl, by decide⟩, ⟨rfl, rfl, by decide⟩, ⟨by decide, by unfold State.RoleOk; decide +kernel⟩,
    ⟨trivial, by unfold State.StateOk; decide +kernel⟩⟩

theorem witness_NopOnlyClearsResp :
    toUnpack.cfg.tablesOk = true ∧ { Cfg.test 4 8 with tablesOk := false }.tablesOk = false := ⟨rfl, rfl⟩

/-- Two channels, a pair, all B bands. -/
theorem witness_StartOpensTheSession :
    let s := closed 0 primary secondary
    s.cfg.tablesOk = true ∧ s.run = false ∧ 1 ≤ s.cfgNch.toNat ∧ s.cfgNch.toNat ≤ 16 ∧ 1 ≤ s.bands ∧
      s.bands ≤ s.blockSize ∧ ∀ c : ChanIx, c.toNat < s.cfgNch.toNat → (s.chan c).role = 0 ∨ s.Paired c := by
  unfold State.Paired; decide +kernel

/-- 0 and 17 channels; 0 and B + 1 bands; a wrong pairing at channel 0, and at channel 2 with the lower two right. -/
theorem witness_StartRejectsBadConfigurations :
    let s := closed 0 primary secondary
    let u := ({ closed 0 primary secondary with cfgNch := 3 }).setChan 2 { slot with cpl := 0x11 }
    let v := closed 0 { slot with cpl := 0x01 } secondary
    s.cfg.tablesOk = true ∧ (session 0 primary secondary).run = true ∧ s.run = false ∧
    { s with cfgNch := 0 }.cfgNch.toNat < 1 ∧ 16 < { s with cfgNch := 17 }.cfgNch.toNat ∧
    { s with cfgBands := 0 }.bands < 1 ∧ s.blockSize < { s with cfgBands := 5 }.bands ∧
    (¬ ((u.chan 2).role = 0 ∨ u.Paired 2) ∧
      ∀ d : ChanIx, d.toNat < (2 : ChanIx).toNat → (u.chan d).role = 0 ∨ u.Paired d) ∧
    ¬ ((v.chan 0).role = 0 ∨ v.Paired 0) := by
  unfold State.Paired; decide +kernel

theorem witness_StopClosesTheSession :
    (closed 0 primary secondary).run = false ∧ toUnpack.run = true ∧ toUnpack.cfg.tablesOk = true := ⟨rfl, rfl, rfl⟩

theorem witness_AbortDropsTheFrame :
    (closed 0 primary secondary).run = false ∧ toQuant.run = true ∧ toQuant.cfg.tablesOk = true := ⟨rfl, rfl, rfl⟩

/-- The words and values of the bands of `coded`. -/
def codedWords (b : Nat) : List Bool :=
  [[true, false], [false, false, true, true, true], [], [true, false, true]].getD b []
def codedValues (b : Nat) : Int := [1, -3, 0, -2].getD b 0

theorem codedWords_coded (n : Nat) (h : n ≤ 4) : toUnpack.CodeWords (toUnpack.chan 0) n codedWords codedValues := by
  have all : toUnpack.CodeWords (toUnpack.chan 0) 4 codedWords codedValues := by
    unfold State.CodeWords; decide +kernel
  exact fun b hb => all b (by omega)

/-- The last word ends at the limit, 10. -/
theorem witness_UnpackReadsTheCodeWords :
    toUnpack.Ready 0 ∧ toUnpack.cfgDir = 0 ∧ (toUnpack.chan 0).role ≠ 2 ∧ (toUnpack.chan 0).fsm = .idle ∧
    toUnpack.PrefixFree (toUnpack.chan 0) toUnpack.bands ∧
    toUnpack.CodeWords (toUnpack.chan 0) toUnpack.bands codedWords codedValues ∧
    toUnpack.BitsAt toUnpack.bcPos.toNat (wordsOf codedWords toUnpack.bands) ∧
    toUnpack.bcPos.toNat + (wordsOf codedWords toUnpack.bands).length = toUnpack.bitLimit := by
  refine ⟨ready_session _ _ _ 0 (by decide), rfl, by decide +kernel, by decide +kernel, ?_,
    codedWords_coded 4 (by decide), ?_, by decide +kernel⟩
  · unfold State.PrefixFree; decide +kernel
  · unfold State.BitsAt; decide +kernel

/-- Limit 9: the words of bands 0 to 2 end at bit 7, no word of band 3 ends by bit 9. -/
theorem witness_UnpackStopsAtTheLimit :
    let s := { toUnpack with bcLimit := 9 }
    3 < s.bands ∧ s.PrefixFree (s.chan 0) 4 ∧ s.BitsAt s.bcPos.toNat (wordsOf codedWords 3) ∧
    s.CodeWords (s.chan 0) 3 codedWords codedValues ∧
    s.bcPos.toNat + (wordsOf codedWords 3).length ≤ s.bitLimit ∧ (s.chan 0).reff 3 ≠ 0 ∧
    ∀ x ∈ s.codeRows ((s.chan 0).reff 3),
      ¬ (s.bcPos.toNat + (wordsOf codedWords 3).length + x.word.length ≤ s.bitLimit ∧
        s.BitsAt (s.bcPos.toNat + (wordsOf codedWords 3).length) x.word) := by
  refine ⟨by decide +kernel, ?_, ?_, codedWords_coded 3 (by decide), by decide +kernel, by decide +kernel, ?_⟩
  · unfold State.PrefixFree; decide +kernel
  · unfold State.BitsAt; decide +kernel
  · unfold State.BitsAt; decide +kernel

theorem exactValues_toUnpack : toUnpack.ExactValues (toUnpack.chan 0) toUnpack.bands := by
  unfold State.ExactValues; decide +kernel

theorem witness_UnpackStaysInRange :
    toUnpack.bands ≤ toUnpack.blockSize ∧ toUnpack.ExactValues (toUnpack.chan 0) toUnpack.bands ∧
    see (exec (.unpack 0) toUnpack) (·.resp.cause) = some .success :=
  ⟨by decide +kernel, exactValues_toUnpack, by decide +kernel⟩

/-- Band 0 stands at the end of its range; the silent band's 99 is no obstacle; the products are specified. -/
theorem witness_DeqWritesTheSpectrum :
    toDeq.Ready 0 ∧ toDeq.cfgDir = 0 ∧ (toDeq.chan 0).fsm = .idle ∧ (toDeq.chan 0).qvalid = true ∧
    (∀ b, b < toDeq.bands → (toDeq.chan 0).reff b ≠ 0 →
      ((toDeq.chan 0).qAt b).natAbs ≤ Tables.qRange ((toDeq.chan 0).reff b)) ∧
    (∀ b, b < toDeq.bands → (toDeq.chan 0).reff b ≠ 0 → (deqValue toDeq.cfg ((toDeq.chan 0).qAt b)
      ((toDeq.chan 0).sfAt b) ((toDeq.chan 0).reff b)).isSome = true) :=
  ⟨ready_session _ _ _ 0 (by decide), rfl, by decide +kernel, by decide +kernel, by decide +kernel, by decide +kernel⟩

/-- Every normalizer of the reference table is finite and positive; 2047 is the largest integer. -/
theorem witness_DeqRespectsZeroAndSign :
    (∀ r, r < 15 → PositiveFinite ((Cfg.test 4 8).deqNorm.getD (r + 1) 0)) ∧ (2047 : Int) ≠ 0 ∧
    (2047 : Int).natAbs ≤ 2047 := by
  unfold PositiveFinite; decide +kernel

/-- Band 3 holds -4, one beyond `QRANGE[3]`, in a decode and in an encode session. -/
theorem witness_RangeErrorNamesTheLowestBand :
    let d := session 0 { coded with q := [1, 0xFFFD, 99, 0xFFFC], qvalid := true } secondary
    let e := session 1 { coded with q := [1, 0xFFFD, 99, 0xFFFC], fsm := .transformed, qvalid := true } secondary
    (d.Ready 0 ∧ e.Ready 0) ∧ (d.chan 0).qvalid = true ∧ (e.chan 0).qvalid = true ∧ 3 < d.bands ∧ 3 < e.bands ∧
    (d.chan 0).reff 3 ≠ 0 ∧ Tables.qRange ((d.chan 0).reff 3) < ((d.chan 0).qAt 3).natAbs ∧
    (∀ b, b < 3 → (d.chan 0).reff b ≠ 0 → ((d.chan 0).qAt b).natAbs ≤ Tables.qRange ((d.chan 0).reff b)) ∧
    d.cfgDir = 0 ∧ (d.chan 0).fsm = .idle ∧ e.cfgDir = 1 ∧ (e.chan 0).fsm = .transformed ∧ (e.chan 0).role ≠ 2 ∧
    ∀ b, b < 3 → (e.chan 0).reff b ≠ 0 →
      e.bcPos.toNat + (wordsOf (e.bandWord (e.chan 0)) (b + 1)).length ≤ e.bitLimit :=
  ⟨⟨ready_session _ _ _ 0 (by decide), ready_session _ _ _ 0 (by decide)⟩, by decide +kernel⟩

/-- Every level of resolution 7 at scale factor 56 is specified. -/
theorem levels_56_7 : ∀ i : Nat, i < 15 → (levelOf (Cfg.test 4 8) 56 7 (Int.ofNat i - 7)).isSome = true := by
  decide +kernel

theorem levelsSpecified_56_7 : LevelsSpecified (Cfg.test 4 8) 56 7 := by
  intro q h
  have h7 : Tables.qRange 7 = 7 := by decide
  have := levels_56_7 (q + 7).toNat (by omega)
  rwa [show Int.ofNat (q + 7).toNat - 7 = q by simp only [Int.ofNat_eq_natCast]; omega] at this

theorem witness_QuantChoosesTheNearestLevel :
    toQuant.Ready 0 ∧ toQuant.cfgDir = 1 ∧ (toQuant.chan 0).role ≠ 2 ∧ (toQuant.chan 0).fsm = .transformed ∧
    (∀ b, b < toQuant.bands → F64.finite ((toQuant.chan 0).xAt b) = true) ∧
    LevelsSpecified toQuant.cfg ((toQuant.chan 0).sfAt 3) ((toQuant.chan 0).reff 3) :=
  ⟨ready_session _ _ _ 0 (by decide), rfl, by decide +kernel, by decide +kernel, by decide +kernel,
    by rw [show (toQuant.chan 0).sfAt 3 = 56 by decide +kernel, show (toQuant.chan 0).reff 3 = 7 by decide +kernel]
       exact levelsSpecified_56_7⟩

/-- The largest integer of resolution 1, whose three levels are specified and increasing. -/
theorem witness_QuantInvertsDeq :
    (1 : Int).natAbs ≤ Tables.qRange 1 ∧ LevelsSpecified (Cfg.test 4 8) 32 1 ∧
    (∀ p p' : Int, p.natAbs ≤ Tables.qRange 1 → p'.natAbs ≤ Tables.qRange 1 → p < p' →
      ∀ y y' : Int, levelOf (Cfg.test 4 8) 32 1 p = some y → levelOf (Cfg.test 4 8) 32 1 p' = some y' → y < y') ∧
    deqValue (Cfg.test 4 8) 1 32 1 = some 0x3F50E6D887DAE15F := by
  have h1 : Tables.qRange 1 = 1 := by decide
  have three : ∀ q : Int, q.natAbs ≤ Tables.qRange 1 → q = -1 ∨ q = 0 ∨ q = 1 := by intro q h; omega
  refine ⟨by decide, ?_, ?_, by decide +kernel⟩
  · intro q hq
    obtain rfl | rfl | rfl := three q hq <;> decide +kernel
  · have order : ∀ i : Fin 3, ∀ j : Fin 3, i < j → ∀ y ∈ levelOf (Cfg.test 4 8) 32 1 ((i.val : Int) - 1),
        ∀ z ∈ levelOf (Cfg.test 4 8) 32 1 ((j.val : Int) - 1), y < z := by decide +kernel
    intro p p' hp hp' hlt y y' hy hy'
    have a := three p hp
    have b := three p' hp'
    exact order ⟨(p + 1).toNat, by omega⟩ ⟨(p' + 1).toNat, by omega⟩ (by simp only [Fin.lt_def]; omega) y
      (by simp only [show (((p + 1).toNat : Int) - 1) = p by omega]; exact hy) y'
      (by simp only [show (((p' + 1).toNat : Int) - 1) = p' by omega]; exact hy')

/-- The words and values of the bands of `toPack`: they end at its limit, 15. -/
def packWordsOf (b : Nat) : List Bool :=
  [[false, true, false, true], [false, false, false], [false, true, false, false], [false, false, true, false]].getD b []
def packValues (b : Nat) : Int := [-2, 0, 2, 1].getD b 0

theorem witness_PackStoresTheCodeWords :
    toPack.Ready 0 ∧ toPack.cfgDir = 1 ∧ (toPack.chan 0).role ≠ 2 ∧ (toPack.chan 0).fsm = .transformed ∧
    (toPack.chan 0).qvalid = true ∧ toPack.ExactValues (toPack.chan 0) toPack.bands ∧
    toPack.CodeWords (toPack.chan 0) toPack.bands packWordsOf packValues ∧
    (∀ b, b < toPack.bands → (toPack.chan 0).reff b ≠ 0 → packValues b = (toPack.chan 0).qAt b) ∧
    toPack.bcPos.toNat + (wordsOf packWordsOf toPack.bands).length = toPack.bitLimit := by
  refine ⟨⟨rfl, rfl, by decide⟩, rfl, by decide +kernel, by decide +kernel, by decide +kernel, ?_, ?_, by decide +kernel,
    by decide +kernel⟩
  · unfold State.ExactValues; decide +kernel
  · unfold State.CodeWords; decide +kernel

/-- Limit 14: the word of band 3 is the first to cross it. -/
theorem witness_PackRefusesToExceedTheBudget :
    let s := { toPack with bcLimit := 14 }
    s.Ready 0 ∧ s.cfgDir = 1 ∧ (s.chan 0).role ≠ 2 ∧ (s.chan 0).fsm = .transformed ∧ (s.chan 0).qvalid = true ∧
    3 < s.bands ∧ (s.chan 0).reff 3 ≠ 0 ∧
    (∀ b, b ≤ 3 → (s.chan 0).reff b ≠ 0 → ((s.chan 0).qAt b).natAbs ≤ Tables.qRange ((s.chan 0).reff b)) ∧
    (∀ b, b < 3 → (s.chan 0).reff b ≠ 0 →
      s.bcPos.toNat + (wordsOf (s.bandWord (s.chan 0)) (b + 1)).length ≤ s.bitLimit) ∧
    s.bitLimit < s.bcPos.toNat + (wordsOf (s.bandWord (s.chan 0)) 4).length :=
  ⟨⟨rfl, rfl, by decide⟩, by decide +kernel⟩

theorem witness_RepackingReproducesTheFrame :
    toUnpack.bands ≤ toUnpack.blockSize ∧ toUnpack.ExactValues (toUnpack.chan 0) toUnpack.bands ∧
    (∃ t, exec (.unpack 0) toUnpack = .next t) ∧ see (exec (.unpack 0) toUnpack) (·.resp.cause) = some .success :=
  ⟨by decide +kernel, exactValues_toUnpack, ⟨_, rfl⟩, by decide +kernel⟩

theorem witness_IsdecScalesThePrimary :
    let s := toIsdec 3
    s.Ready 1 ∧ s.cfgDir = 0 ∧ (s.chan 1).role = 2 ∧ (s.chan (s.chan 1).partner).fsm = .loaded ∧
    (s.chan 1).fsm = .idle ∧ s.cplMode = 0 ∧
    (∀ k, k < s.blockSize → F64.finite ((s.chan (s.chan 1).partner).xAt k) = true) ∧
    (Arith.mul s.cfg.numerics ((s.chan (s.chan 1).partner).xAt 0) (Tables.iRatio (s.chan 1).intens)).isSome = true :=
  ⟨ready_session _ _ _ 1 (by decide), by decide +kernel⟩

/-- Another mode; a NaN in the last line of the primary (`ISDEC`); a NaN in the secondary's line 1 before an infinity in the
primary's line 2 (`ISENC`). -/
theorem witness_StereoFaultsNameModeThenLine :
    let d := session 0 { primary with x := [one, half, one, nan], fsm := .loaded } secondary
    let e := session 1 { primary with x := [one, one, inf, one], fsm := .transformed }
      { secondary with x := [one, nan, one, one], fsm := .transformed }
    (d.Ready 1 ∧ e.Ready 1) ∧ (d.chan 1).role = 2 ∧ (e.chan 1).role = 2 ∧ d.cfgDir = 0 ∧ e.cfgDir = 1 ∧
    (d.chan (d.chan 1).partner).fsm = .loaded ∧ (d.chan 1).fsm = .idle ∧
    (e.chan (e.chan 1).partner).fsm = .transformed ∧ (e.chan 1).fsm = .transformed ∧
    { d with cplMode := 15 }.cplMode ≠ 0 ∧ d.cplMode = 0 ∧ e.cplMode = 0 ∧ 3 < d.blockSize ∧
    F64.finite ((d.chan (d.chan 1).partner).xAt 3) = false ∧
    (∀ k, k < 3 → F64.finite ((d.chan (d.chan 1).partner).xAt k) = true) ∧
    F64.finite ((e.chan 1).xAt 1) = false ∧
    ∀ k, k < 1 → F64.finite ((e.chan (e.chan 1).partner).xAt k) = true ∧ F64.finite ((e.chan 1).xAt k) = true :=
  ⟨⟨ready_session _ _ _ 1 (by decide), ready_session _ _ _ 1 (by decide)⟩, by decide +kernel⟩

theorem witness_IsencChoosesAnIndex :
    let s := toIsenc
    s.Ready 1 ∧ s.cfgDir = 1 ∧ (s.chan 1).role = 2 ∧ (s.chan (s.chan 1).partner).fsm = .transformed ∧
    (s.chan 1).fsm = .transformed ∧ s.cplMode = 0 ∧
    ∀ k, k < s.blockSize →
      F64.finite ((s.chan (s.chan 1).partner).xAt k) = true ∧ F64.finite ((s.chan 1).xAt k) = true :=
  ⟨ready_session _ _ _ 1 (by decide), by decide +kernel⟩

/-- Index 15 is the last; here all distances are equal and the tie goes to index 0 (section 7, fourth row). -/
theorem witness_IsencReferenceIsLeastSquares :
    15 < 16 ∧ (Arith.isencChoice .reference [0, 0] [one, two]).toNat = 0 ∧ Arith.isencDistance [0, 0] [one, two] (Arith.isencChoice .reference [0, 0] [one, two]).toNat =
      Arith.isencDistance [0, 0] [one, two] 15 := by decide +kernel

/-- The smallest subnormal number. -/
theorem witness_RatioOneCopiesTheLine : F64.finite 1 = true ∧ F64.isZero 1 = false := by decide

theorem witness_LoadMakesTheChannelLoaded :
    (closed 0 primary secondary).run = false ∧ toUnpack.cfgNch.toNat ≤ (2 : ChanIx).toNat ∧
    (1 : ChanIx).toNat < toUnpack.cfgNch.toNat ∧ (toQuant.chan 0).fsm ≠ .idle ∧ (toUnpack.chan 1).fsm = .idle ∧
    toUnpack.run = true ∧ toUnpack.cfg.tablesOk = true := by decide +kernel

/-- The kernel's elements, the products and the sums are specified. -/
theorem witness_ImdctOverlapAdds :
    let s := toImdct [one, negTwo, half, quarter]
    s.Ready 0 ∧ s.cfgDir = 0 ∧ (s.chan 0).fsm = .loaded ∧
    (∀ k, k < s.blockSize → F64.finite ((s.chan 0).xAt k) = true ∧ F64.finite ((s.chan 0).ovAt k) = true) ∧
    (s.imdctWindowed 0).all (·.isSome) = true :=
  ⟨ready_session _ _ _ 0 (by decide), by decide +kernel⟩

/-- The windowed samples and the kernel's elements are specified. -/
theorem witness_MdctTransformsTheConcatenation :
    let s := toMdct block1 block2
    s.Ready 0 ∧ s.cfgDir = 1 ∧ (s.chan 0).fsm = .loaded ∧
    (∀ k, k < s.blockSize → F64.finite ((s.chan 0).ovAt k) = true ∧ F64.finite ((s.chan 0).tAt k) = true) ∧
    (s.mdctWindowed 0).isSome = true ∧ (s.mdctElements 0).all (·.isSome) = true :=
  ⟨ready_session _ _ _ 0 (by decide), by decide +kernel⟩

/-- The last and the first line of each buffer; the silent band of `QUANT`. -/
theorem witness_NonFiniteInputIsReported :
    let a := session 0 { primary with x := [one, 0, 0, inf], fsm := .loaded } secondary
    let b := session 0 { primary with ov := [nan, 0, 0, 0], fsm := .loaded } secondary
    let d := session 1 { primary with ov := [0, 0, nan, 0], fsm := .loaded } secondary
    let e := session 1 { primary with t := [one, inf, 0, 0], fsm := .loaded } secondary
    let f := session 1 { primary with x := [one, 0, 0, nan], fsm := .transformed } secondary
    (a.Ready 0 ∧ b.Ready 0 ∧ d.Ready 0 ∧ e.Ready 0 ∧ f.Ready 0) ∧
    (F64.finite ((a.chan 0).xAt 3) = false ∧ ∀ k, k < 3 → F64.finite ((a.chan 0).xAt k) = true) ∧
    ((∀ k, k < b.blockSize → F64.finite ((b.chan 0).xAt k) = true) ∧ F64.finite ((b.chan 0).ovAt 0) = false) ∧
    (F64.finite ((d.chan 0).ovAt 2) = false ∧ ∀ k, k < 2 → F64.finite ((d.chan 0).ovAt k) = true) ∧
    ((∀ k, k < e.blockSize → F64.finite ((e.chan 0).ovAt k) = true) ∧ F64.finite ((e.chan 0).tAt 1) = false ∧
      ∀ k, k < 1 → F64.finite ((e.chan 0).tAt k) = true) ∧
    (f.chan 0).role ≠ 2 ∧ 3 < f.bands ∧ F64.finite ((f.chan 0).xAt 3) = false ∧
    ∀ k, k < 3 → F64.finite ((f.chan 0).xAt k) = true :=
  ⟨⟨⟨rfl, rfl, by decide⟩, ⟨rfl, rfl, by decide⟩, ⟨rfl, rfl, by decide⟩, ⟨rfl, rfl, by decide⟩, ⟨rfl, rfl, by decide⟩⟩,
    by decide +kernel⟩

theorem witness_RelEndsTheFrame :
    (closed 0 primary secondary).run = false ∧ toQuant.cfgNch.toNat ≤ (2 : ChanIx).toNat ∧
    (1 : ChanIx).toNat < toQuant.cfgNch.toNat ∧ (toQuant.chan 1).fsm ≠ .transformed ∧
    (toQuant.chan 0).fsm = .transformed ∧ toQuant.run = true ∧ toQuant.cfg.tablesOk = true := by decide +kernel

/-- Zeros of both signs, in both directions. -/
theorem witness_SilenceInSilenceOut :
    let d := session 0 { primary with x := [0, 0x8000000000000000, 0, 0], fsm := .loaded } secondary
    let e := session 1 { primary with t := [0, 0x8000000000000000, 0, 0], fsm := .loaded } secondary
    (d.Ready 0 ∧ e.Ready 0) ∧ (d.chan 0).fsm = .loaded ∧ (e.chan 0).fsm = .loaded ∧ d.cfg.ScalesOk ∧
    (∀ n, n < 2 * d.blockSize → F64.finite (d.windowAt n) = true) ∧
    (∀ n, n < d.blockSize → F64.isZero ((d.chan 0).ovAt n) = true) ∧ d.cfgDir = 0 ∧ e.cfgDir = 1 ∧
    (∀ k, k < d.blockSize → F64.isZero ((d.chan 0).xAt k) = true) ∧
    ∀ n, n < e.blockSize → F64.isZero ((e.chan 0).tAt n) = true :=
  ⟨⟨ready_session _ _ _ 0 (by decide), ready_session _ _ _ 0 (by decide)⟩, by decide +kernel⟩

theorem witness_ZeroSpectrumFlushesTheTail :
    let d := session 0 { primary with ov := block1, fsm := .loaded } secondary
    d.Ready 0 ∧ d.cfgDir = 0 ∧ (d.chan 0).fsm = .loaded ∧ d.cfg.ScalesOk ∧
    (∀ n, n < 2 * d.blockSize → F64.finite (d.windowAt n) = true) ∧
    (∀ n, n < d.blockSize → F64.finite ((d.chan 0).ovAt n) = true) ∧
    ∀ k, k < d.blockSize → F64.isZero ((d.chan 0).xAt k) = true :=
  ⟨ready_session _ _ _ 0 (by decide), by decide +kernel⟩

/-- A product within the range, one beyond it: FMAX times 1, FMAX times 2. -/
theorem witness_ReferenceProductIsNearest :
    F64.finite 0x7FEFFFFFFFFFFFFF = true ∧ F64.finite one = true ∧ F64.finite two = true ∧
    (F64.scaled 0x7FEFFFFFFFFFFFFF * F64.scaled one).natAbs = F64.maxScaled * 2 ^ 1074 ∧
    F64.maxScaled * 2 ^ 1074 < (F64.scaled 0x7FEFFFFFFFFFFFFF * F64.scaled two).natAbs := by decide +kernel

/-- FMAX plus 0, FMAX plus the smallest subnormal number. -/
theorem witness_ReferenceSumIsNearest :
    F64.finite 0x7FEFFFFFFFFFFFFF = true ∧ (F64.scaled 0x7FEFFFFFFFFFFFFF + F64.scaled 0).natAbs = F64.maxScaled ∧
    F64.maxScaled < (F64.scaled 0x7FEFFFFFFFFFFFFF + F64.scaled 1).natAbs := by decide +kernel

/-- `X` = [1, 0, 0, 0], and the partial sums of element `n` of its transform. -/
def unitLine (k : Nat) : F64 := if k = 0 then one else 0
def partialSum (n : Nat) : Nat → F64
  | 0 => 0
  | k + 1 => (F64.refAdd (partialSum n k) ((F64.refMul (unitLine k) (Arith.cosEntry 4 n k)).getD 0)).getD 0

/-- The last element of the inverse transform and, as 2B terms, the last line of the forward one. -/
theorem witness_ReferenceKernelsSumAscending :
    let cfg := Cfg.test 4 8
    (∀ k, k < 8 → F64.finite (unitLine k) = true) ∧
    F64.scaledMag cfg.sInv * ∑ k ∈ Finset.range 4, F64.scaledMag (unitLine k) ≤ F64.maxScaled * 2 ^ 1074 ∧
    F64.scaledMag cfg.sFwd * ∑ n ∈ Finset.range 8, F64.scaledMag (unitLine n) ≤ F64.maxScaled * 2 ^ 1074 ∧
    (∀ k, k < 4 → ∃ p, F64.refMul (unitLine k) (Arith.cosEntry 4 7 k) = some p ∧
      F64.refAdd (partialSum 7 k) p = some (partialSum 7 (k + 1))) ∧
    (F64.refMul cfg.sInv (partialSum 7 4)).isSome = true ∧
    ∃ acc : Nat → F64, acc 0 = 0 ∧ ∀ n, n < 8 → ∃ p, F64.refMul 0 (Arith.cosEntry 4 n 3) = some p ∧
      F64.refAdd (acc n) p = some (acc (n + 1)) := by
  refine ⟨by decide +kernel, by decide +kernel, by decide +kernel, fun k hk => ?_, by decide +kernel, fun _ => 0, rfl,
    fun n hn => ?_⟩
  · exact ⟨(F64.refMul (unitLine k) (Arith.cosEntry 4 7 k)).getD 0, by revert k; decide +kernel,
      by revert k; decide +kernel⟩
  · exact ⟨(F64.refMul 0 (Arith.cosEntry 4 n 3)).getD 0, by revert n; decide +kernel, by revert n; decide +kernel⟩

theorem witness_ReferenceCosinesAreNear : 1 ≤ 2048 ∧ 1 ≤ 1 := by decide

theorem witness_NumericsRespectZerosAndSigns :
    (Cfg.test 4 8).ScalesOk ∧ { Cfg.test 4 8 with numerics := .other 0 }.ScalesOk := by decide +kernel

/-- An element, a locked register with no session open, and the last byte of `FB`. -/
theorem witness_HostWriteIsReadBack :
    let s := closed 0 primary secondary
    (∀ c, (s.chan c).Sized s.blockSize) ∧ itemAt s.cfg 0x500003 = some (.x 0 3) ∧
    itemAt s.cfg 0x000008 = some .cfgNch ∧ itemAt s.cfg 0x800007 = some (.fb 7) ∧
    Item.readBack 0x1FF (.fb 7) = some 0xFF ∧ (Item.readBack nan (.x 0 3)).isSome = true ∧
    (Item.locked .cfgNch = true → s.run = false) ∧ Item.fb 7 ≠ Item.x 0 3 :=
  ⟨fun c => ⟨by revert c; decide +kernel, by revert c; decide +kernel, by revert c; decide +kernel,
    by revert c; decide +kernel, by revert c; decide +kernel, by revert c; decide +kernel⟩, by decide +kernel⟩

/-- The first index outside a buffer, the byte after the last of `FB`; a read-only item; a locked one in a session. -/
theorem witness_RefusedAccessOnlySetsAccerr :
    itemAt toUnpack.cfg 0x500004 = none ∧ itemAt toUnpack.cfg 0x800008 = none ∧
    itemAt toUnpack.cfg 0x100002 = some (.chstat 0) ∧ Item.readOnly (.chstat 0) = true ∧
    itemAt toUnpack.cfg 0x110000 = some (.cpl 1) ∧ Item.locked (.cpl 1) = true ∧ toUnpack.run = true := by decide +kernel

theorem witness_HostReadHasNoSideEffect :
    itemAt toUnpack.cfg 0x000003 = some .resp ∧ itemAt toUnpack.cfg 0x500004 = none := by decide +kernel

theorem witness_SpecialRegistersReadAsTheirWords :
    toUnpack.blockSize ≤ 2048 ∧ { Cfg.test 4 8 with blockSize := 2048 }.blockSize ≤ 2048 := by decide +kernel

/-- A `RESP` with each cause is a state's; a fault of `exec` is reached. -/
theorem witness_RespReadsCodeAndInfo :
    (∀ cause info, { toUnpack with resp := ⟨cause, info⟩ }.resp = ⟨cause, info⟩) ∧
    see (exec (.rel 0) toUnpack) (·.resp.cause) = some .sequenceError := ⟨fun _ _ => rfl, by decide +kernel⟩

theorem witness_StatusIsStickyAndWriteOneToClear :
    see (execWord 0x33000000 toUnpack) (·.resp.cause) = some .sequenceError ∧
    itemAt toUnpack.cfg 0x500004 = none ∧ (withAccess toUnpack .hardReset).pending = .hardReset :: [] ∧
    itemAt toUnpack.cfg 0x000004 = some .status ∧
    (∃ t, step (withAccess { toUnpack with status := 0x48 } (commandWrite 0)) = .next t) ∧
    (∀ rest, (withAccess toUnpack (commandWrite 0)).pending ≠ .hardReset :: rest) ∧
    ∀ loc d rest, (withAccess toUnpack (commandWrite 0)).pending = .write loc d :: rest →
      itemAt toUnpack.cfg loc ≠ some .status := by
  refine ⟨by decide +kernel, by decide +kernel, rfl, by decide +kernel, ⟨_, rfl⟩, fun _ h => by simp [withAccess, commandWrite] at h, ?_⟩
  intro loc d rest h
  simp only [withAccess, commandWrite, List.cons.injEq, HostAccess.write.injEq] at h
  obtain ⟨⟨rfl, -⟩, -⟩ := h
  decide +kernel

theorem witness_DataWritesLeaveSequencing :
    itemAt toUnpack.cfg 0x500000 ≠ some .cmd ∧ ∃ t, toUnpack.hostWrite 0x500000 nan = .next t :=
  ⟨by decide +kernel, _, rfl⟩

theorem witness_BitReadIsBigEndian : 4 ≤ 32 ∧ toUnpack.bitRead 6 4 = 13 := by decide +kernel

theorem witness_BitWriteStoresTheField : 32 ≤ 32 ∧ 0xFFFFFFFF < 2 ^ 32 ∧ 5 < 2 ^ 4 := by decide

end Sys2Proof.Tests
end

section
/-! PROOFS. What a command, a host write and a step can do to the state, as one inductive relation each; proofs about
every step start from `step_stepped`. -/

namespace Sys2Proof.Machine

variable {s t : State}

/-! ### Slots -/

/-- What the new slot shares with the old one is shared by every slot after the replacement. -/
theorem State.setChan_apply {α : Type} (f : Chan → α) {c : ChanIx} {k : Chan} (h : f k = f (s.chan c)) (d : ChanIx) :
    f ((s.setChan c k).chan d) = f (s.chan d) := by
  rw [s.setChan_chan]
  split
  · subst d; exact h
  · rfl

/-- A property of the new slot and of all old ones holds of every slot after the replacement. -/
theorem State.setChan_forall (P : ChanIx → Chan → Prop) {c : ChanIx} {k : Chan} (hc : P c k)
    (hs : ∀ d, P d (s.chan d)) (d : ChanIx) : P d ((s.setChan c k).chan d) := by
  rw [s.setChan_chan]
  split
  · subst d; exact hc
  · exact hs d

/-! ### The frame buffer under PACK -/

/-- The memory `m` keeps what the invariant asks of `FB` in `s`. -/
structure State.KeepsFrame (s : State) (m : Memory) : Prop where
  form   : s.fb.wf = true → m.wf = true
  within : s.fb.within s.cfg.fbCap = true → m.within s.cfg.fbCap = true

theorem State.keepsFrame_refl (s : State) : s.KeepsFrame s.fb := ⟨id, id⟩

theorem State.keepsFrame_trans {m : Memory} (h : s.KeepsFrame t.fb) (hc : t.cfg = s.cfg) (hm : t.KeepsFrame m) :
    s.KeepsFrame m :=
  ⟨fun h' => hm.form (h.form h'), fun h' => by simpa only [hc] using hm.within (by simpa only [hc] using h.within h')⟩

theorem State.keepsFrame_setFbByte (s : State) {i : Nat} (b : Byte) (hi : i < s.cfg.fbCap) :
    s.KeepsFrame (s.setFbByte i b).fb :=
  ⟨Memory.write_wf _ _ _, fun h => Memory.write_within _ _ _ _ h hi⟩

theorem State.keepsFrame_writeBits (s : State) (w : List Bool) (p : Nat)
    (hw : w ≠ [] → p + w.length ≤ 8 * s.cfg.fbCap) : s.KeepsFrame (s.writeBits p w).fb := by
  induction w generalizing s p with
  | nil => exact s.keepsFrame_refl
  | cons b rest ih =>
    have hp := hw (by simp)
    rw [List.length_cons] at hp
    have hbit : s.KeepsFrame (s.setFrameBit p b).fb := s.keepsFrame_setFbByte _ (by omega)
    exact State.keepsFrame_trans hbit rfl (ih (s.setFrameBit p b) (p + 1) fun _ => by
      change _ ≤ 8 * s.cfg.fbCap; omega)

theorem State.bitWrite_cfg (s : State) (p n v : Nat) : (s.bitWrite p n v).cfg = s.cfg := by
  rw [State.bitWrite, State.writeBits_fb]

/-- The write loop changes no field but `fb`. -/
theorem State.packWords_fb (s : State) (p : Nat) (ws : List (List Bool)) :
    (s.packWords p ws).1 = { s with fb := (s.packWords p ws).1.fb } := by
  induction ws generalizing s p with
  | nil => rfl
  | cons w rest ih =>
    rw [State.packWords, ih, State.bitWrite, State.writeBits_fb]

/-- A dry run that finds no fault at a band found its word empty or inside the limit, and goes on after it (R138). -/
theorem State.packFault_cons {k : Chan} {b p : Nat} {rest : List Nat} (h : s.packFault k (b :: rest) p = none) :
    (s.bandWord k b = [] ∨ p + (s.bandWord k b).length ≤ s.bitLimit) ∧
      s.packFault k rest (p + (s.bandWord k b).length) = none := by
  rw [State.packFault] at h
  split at h
  · next hsilent =>
    have hnil : s.bandWord k b = [] := if_pos hsilent
    rw [hnil]
    exact ⟨.inl rfl, h⟩
  · split at h
    · cases h
    · split at h
      · cases h
      · next hlim => exact ⟨.inr (Nat.not_lt.1 hlim), h⟩

/-- A dry run of `s` that finds no fault keeps the words of its bands, written into `u`, inside the frame buffer. -/
theorem State.keepsFrame_packWords (s : State) (k : Chan) (bands : List Nat) (u : State) (p : Nat)
    (hu : u.cfg = s.cfg) (h : s.packFault k bands p = none) :
    u.KeepsFrame (u.packWords p (bands.map (s.bandWord k))).1.fb := by
  induction bands generalizing u p with
  | nil => exact u.keepsFrame_refl
  | cons b rest ih =>
    obtain ⟨hfits, hrest⟩ := State.packFault_cons h
    have hword : u.KeepsFrame (u.bitWrite p (s.bandWord k b).length (Code.natOf (s.bandWord k b))).fb := by
      rw [State.bitWrite, Code.bitsOf_natOf]
      refine u.keepsFrame_writeBits _ p fun hne => ?_
      rw [hu]
      exact (hfits.resolve_left hne).trans (Nat.min_le_right _ _)
    have hcfg := u.bitWrite_cfg p (s.bandWord k b).length (Code.natOf (s.bandWord k b))
    exact State.keepsFrame_trans hword hcfg (ih _ _ (hcfg.trans hu) hrest)

/-! ### What a command can do -/

/-- The session parameters are consistent (R57 I-c): the counts and the pairing. -/
structure State.Consistent (s : State) : Prop where
  counts  : 1 ≤ s.cfgNch.toNat ∧ s.cfgNch.toNat ≤ 16 ∧ 1 ≤ s.bands ∧ s.bands ≤ s.blockSize
  pairing : ∀ c : ChanIx, c.toNat < s.cfgNch.toNat → (s.chan c).role = 0 ∨ s.Paired c

/-- The checks of `START` are (I-c) and that no session is open (R122). -/
theorem State.startChecks_consistent (h : firstFault s.startChecks = none) : s.run = false ∧ s.Consistent := by
  obtain ⟨hrun, ⟨h1, h16⟩, ⟨hb, hB⟩, hp⟩ := s.startChecks_none.1 h
  refine ⟨hrun, ⟨h1, h16, hb, hB⟩, fun c hc => ?_⟩
  have := s.pairingFault_none.1 hp c.toNat hc
  rwa [BitVec.ofNat_toNat, BitVec.setWidth_eq, State.pairingOk_iff] at this

/-- What the command `i` may make of slot `c`: the coupling register stays, the buffers keep their sizes, `OV[c]` is new
after a transform only, and `QVALID[c]` is 1 only where (I-b) allows it or where a Loaded slot had it already. -/
structure SlotEffect (s : State) (i : Instr) (c : ChanIx) (k : Chan) : Prop where
  run     : s.run = true
  inRange : c.toNat < s.cfgNch.toNat
  cpl     : k.cpl = (s.chan c).cpl
  sized   : (s.chan c).Sized s.blockSize → k.Sized s.blockSize
  qvalid  : k.qvalid = true → (s.cfgDir = 0 ∧ k.fsm = .idle) ∨ (s.cfgDir = 1 ∧ k.fsm = .transformed) ∨
    ((s.chan c).fsm = .loaded ∧ (s.chan c).qvalid = true)
  ov      : k.ov = (s.chan c).ov ∨ i = .imdct c ∨ i = .mdct c

/-- The state after a successful channel command: slot `c`, the memory of `FB`, the cursor and the number of the next
draw are the given ones, and `RESP` is 0. -/
def State.afterSlot (s : State) (c : ChanIx) (k : Chan) (m : Memory) (p : BitVec 24) (n : Nat) : State :=
  { s.setChan c k with fb := m, bcPos := p, draws := n, resp := ⟨.success, 0⟩ }

/-- What the command `i` can make of the state `s`: it raises and changes nothing else; it overruns (`UNPACK`); it only
completes; it opens a session; it makes every slot Idle, the session staying open or not; or it works on one slot. -/
inductive Commanded (s : State) (i : Instr) : State → Prop
  | raises {r : Resp} (hr : r.cause ≠ .success) : Commanded s i (s.raise r)
  | overruns {c : ChanIx} {k : Chan} (b : BitVec 16) (hi : i = .unpack c) (hk : SlotEffect s i c k) :
      Commanded s i ((s.setChan c k).drawn.raise ⟨.bitstreamOverrun, b⟩)
  | completes : Commanded s i s.complete
  | opens (hi : i = .start) (hrun : s.run = false) (hs : s.Consistent) :
      Commanded s i ((s.mapChans (Chan.opened s.blockSize)).setRun true).complete
  | idles {b : Bool} (hb : b = true → s.run = true) :
      Commanded s i ((s.mapChans Chan.toIdle).setRun b).complete
  | works {c : ChanIx} {k : Chan} {m : Memory} (p : BitVec 24) (n : Nat) (hk : SlotEffect s i c k)
      (hm : s.KeepsFrame m) : Commanded s i (s.afterSlot c k m p n)

theorem packBody_eq_afterSlot (s : State) (c : ChanIx) :
    (s.packBody c).complete = s.afterSlot c { s.chan c with qvalid := false }
      (s.packWords s.bcPos.toNat ((List.range s.bands).map (s.bandWord (s.chan c)))).1.fb
      (s.packBody c).bcPos s.draws := by
  rw [State.packBody, State.packWords_fb]
  rfl

/-- A command whose checks all passed completes, moves the session, or works on the slot of its operand. -/
theorem effect_commanded {i : Instr} (hc : firstFault (checksOf s i) = none) (he : Effect s t i) : Commanded s i t := by
  cases i with
  | nop => exact he ▸ .completes
  | start =>
    obtain ⟨hrun, hs⟩ := State.startChecks_consistent hc
    exact he ▸ .opens rfl hrun hs
  | stop => exact he ▸ .idles (b := false) nofun
  | abort =>
    have hrun : s.run = true := by simpa [checksOf, firstFault_eq_none] using hc
    exact he ▸ .idles (b := s.run) fun _ => hrun
  | unpack c =>
    obtain ⟨hrun, hdir, hr, -, hf⟩ := (s.unpackChecks_none c).1 hc
    obtain ⟨q, p, -, rfl⟩ := he
    exact .works _ _ ⟨hrun, hr, rfl, fun h => { h with q := by simp [qRow] }, fun _ => .inl ⟨hdir, hf⟩, .inl rfl⟩
      s.keepsFrame_refl
  | deq c =>
    obtain ⟨hrun, -, hr, -⟩ := (s.deqChecks_none c).1 hc
    exact he ▸ .works _ _ ⟨hrun, hr, rfl, fun h => { h with x := by simp }, nofun, .inl rfl⟩ s.keepsFrame_refl
  | quant c =>
    obtain ⟨hrun, hdir, hr, -, hf, -⟩ := (s.quantChecks_none c).1 hc
    exact he ▸ .works _ _ ⟨hrun, hr, rfl, fun h => { h with q := by simp }, fun _ => .inr (.inl ⟨hdir, hf⟩), .inl rfl⟩
      s.keepsFrame_refl
  | pack c =>
    obtain ⟨hrun, -, hr, -, -, hdry⟩ := (s.packChecks_none c).1 hc
    have hm := s.keepsFrame_packWords (s.chan c) _ s _ rfl hdry
    exact (he.trans (packBody_eq_afterSlot s c)) ▸ .works _ _ ⟨hrun, hr, rfl, fun h => { h with }, nofun, .inl rfl⟩ hm
  | isdec c =>
    obtain ⟨hrun, -, hr, -⟩ := (s.isdecChecks_none c).1 hc
    exact he ▸ .works _ _ ⟨hrun, hr, rfl, fun h => { h with x := by simp }, nofun, .inl rfl⟩ s.keepsFrame_refl
  | isenc c =>
    obtain ⟨hrun, -, hr, -⟩ := (s.isencChecks_none c).1 hc
    exact he ▸ .works _ _ ⟨hrun, hr, rfl, fun h => { h with x := by simp [freeXRow] }, nofun, .inl rfl⟩
      s.keepsFrame_refl
  | load c =>
    obtain ⟨hrun, hr, -⟩ := (s.loadChecks_none c).1 hc
    exact he ▸ .works _ _ ⟨hrun, hr, rfl, fun h => { h with }, nofun, .inl rfl⟩ s.keepsFrame_refl
  | imdct c =>
    obtain ⟨hrun, -, hr, hf, -⟩ := (s.imdctChecks_none c).1 hc
    exact he ▸ .works _ _ ⟨hrun, hr, rfl, fun h => { h with t := by simp, ov := by simp },
      fun hq => .inr (.inr ⟨hf, hq⟩), .inr (.inl rfl)⟩ s.keepsFrame_refl
  | mdct c =>
    obtain ⟨hrun, -, hr, hf, -⟩ := (s.mdctChecks_none c).1 hc
    exact he ▸ .works _ _ ⟨hrun, hr, rfl, fun h => { h with x := by simp, ov := by simp },
      fun hq => .inr (.inr ⟨hf, hq⟩), .inr (.inr rfl)⟩ s.keepsFrame_refl
  | rel c =>
    obtain ⟨hrun, hr, -⟩ := (s.relChecks_none c).1 hc
    exact he ▸ .works _ _ ⟨hrun, hr, rfl, fun h => { h with }, nofun, .inl rfl⟩ s.keepsFrame_refl

/-- Every command does one of the things of `Commanded` (R120, R184). -/
theorem exec_commanded {i : Instr} (h : exec i s = .next t) : Commanded s i t := by
  rcases exec_cases i s with ⟨r, hr, he⟩ | ⟨c, b, rfl, hc, -, he⟩ | ⟨-, hc, t', ht', he⟩
  · obtain rfl := Host.Outcome.next.inj (he.symm.trans h)
    exact .raises hr
  · obtain rfl := Host.Outcome.next.inj (he.symm.trans h)
    obtain ⟨hrun, -, hr, -⟩ := (s.unpackChecks_none c).1 hc
    exact .overruns _ rfl ⟨hrun, hr, rfl, fun h => { h with q := by simp [freeQRow] }, nofun, .inl rfl⟩
  · obtain rfl := Host.Outcome.next.inj (he.symm.trans h)
    exact effect_commanded hc ht'

/-- `Exec(w)` raises, or does what the command that `w` encodes can do. -/
theorem execWord_commanded {w : Word} (h : execWord w s = .next t) :
    (∃ r : Resp, r.cause ≠ .success ∧ t = s.raise r) ∨ ∃ i, decode w = .ok i ∧ Commanded s i t := by
  rcases execWord_cases w s with ⟨r, hr, he⟩ | ⟨i, hi, he⟩
  · exact .inl ⟨r, hr, Host.Outcome.next.inj (h.symm.trans he)⟩
  · exact .inr ⟨i, hi, exec_commanded (he.symm.trans h)⟩

/-! ### What a host write can do -/

/-- A slot with elements of its buffers or `INTENS` written: the sequencing registers and the sizes stay. -/
structure DataWrite (k k' : Chan) : Prop where
  cpl    : k'.cpl = k.cpl
  fsm    : k'.fsm = k.fsm
  qvalid : k'.qvalid = k.qvalid
  sized  : ∀ b, k.Sized b → k'.Sized b

/-- What a write to `item`, which is not `CMD`, can make of the state `s` (R44, R54, R64): it is refused; it clears bits
of `STATUS`; it changes the configuration with no session open; it changes registers that are never locked; it changes
one slot's data; or it stores a byte of `FB`. -/
inductive Written (s : State) (item : Item) : State → Prop
  | refused (h : item.readOnly = true ∨ (item.locked = true ∧ s.run = true)) : Written s item s.accessError
  | clears (v : BitVec 16) (hi : item = .status) : Written s item (s.clearStatus v)
  | configures (n : BitVec 5) (b : BitVec 12) (d : BitVec 1) (hrun : s.run = false) :
      Written s item { s with cfgNch := n, cfgBands := b, cfgDir := d }
  | couples (c : ChanIx) (v : BitVec 8) (hrun : s.run = false) :
      Written s item (s.setChan c { s.chan c with cpl := v &&& 0xF3 })
  | registers (m : BitVec 4) (p l : BitVec 24) : Written s item { s with cplMode := m, bcPos := p, bcLimit := l }
  | data {c : ChanIx} {k : Chan} (hk : DataWrite (s.chan c) k) (hov : k.ov = (s.chan c).ov ∨ ∃ n, item = .ov c n) :
      Written s item (s.setChan c k)
  | frame (a : Nat) (v : Byte) (hi : item = .fb a) : Written s item (s.setFbByte a v)

/-- A write to a locked item is refused while a session is open, and otherwise has its effect (R44). -/
theorem writeLocked_written {item : Item} {write : State → State} (hl : item.locked = true)
    (hw : s.run = false → Written s item (write s)) : Written s item (s.writeLocked write) := by
  rcases s.writeLocked_cases write with ⟨hrun, he⟩ | ⟨hrun, he⟩
  · exact he ▸ .refused (.inr ⟨hl, hrun⟩)
  · exact he ▸ hw hrun

/-- Every write to an item other than `CMD` does one of the things of `Written` (R64). -/
theorem writeItem_written (s : State) (d : PortWord) (item : Item) (hc : item ≠ .cmd) :
    Written s item (s.writeItem d item) := by
  cases item with
  | id | paramB | resp | state | chstat => exact .refused (.inl rfl)
  | cmd => exact absurd rfl hc
  | status => exact .clears _ rfl
  | cfgNch => unfold State.writeItem; exact writeLocked_written rfl fun hrun => .configures _ s.cfgBands s.cfgDir hrun
  | cfgBands => unfold State.writeItem; exact writeLocked_written rfl fun hrun => .configures s.cfgNch _ s.cfgDir hrun
  | cfgDir => unfold State.writeItem; exact writeLocked_written rfl fun hrun => .configures s.cfgNch s.cfgBands _ hrun
  | cpl c => unfold State.writeItem; exact writeLocked_written rfl fun hrun => .couples c _ hrun
  | cplMode => exact .registers _ s.bcPos s.bcLimit
  | bcPos => exact .registers s.cplMode _ s.bcLimit
  | bcLimit => exact .registers s.cplMode s.bcPos _
  | intens c => exact .data ⟨rfl, rfl, rfl, fun _ h => { h with }⟩ (.inl rfl)
  | sf c b => exact .data ⟨rfl, rfl, rfl, fun _ h => { h with sf := by simp [h.sf] }⟩ (.inl rfl)
  | res c b => exact .data ⟨rfl, rfl, rfl, fun _ h => { h with res := by simp [h.res] }⟩ (.inl rfl)
  | q c b => exact .data ⟨rfl, rfl, rfl, fun _ h => { h with q := by simp [h.q] }⟩ (.inl rfl)
  | x c k => exact .data ⟨rfl, rfl, rfl, fun _ h => { h with x := by simp [h.x] }⟩ (.inl rfl)
  | t c n => exact .data ⟨rfl, rfl, rfl, fun _ h => { h with t := by simp [h.t] }⟩ (.inl rfl)
  | ov c n => exact .data ⟨rfl, rfl, rfl, fun _ h => { h with ov := by simp [h.ov] }⟩ (.inr ⟨n, rfl⟩)
  | fb a => exact .frame a _ rfl

/-! ### The location map -/

/-- A mapped location is one of region 0, channel 0; of region 1; an element of a buffer, below B; or a byte of `FB`
that exists (R61, R62). -/
theorem itemAt_cases {cfg : Cfg} {loc : Loc} {item : Item} (h : itemAt cfg loc = some item) :
    ((loc.extractLsb' 20 4).toNat = 0 ∧ loc.extractLsb' 16 4 = 0 ∧
      itemGlobal (loc.extractLsb' 0 16).toNat = some item) ∨
    (∃ c index, itemChannel c index = some item) ∨
    (∃ c b, b < cfg.blockSize ∧ item ∈ [.sf c b, .res c b, .q c b, .x c b, .t c b, .ov c b]) ∨
    ∃ a, a < cfg.fbCap ∧ item = .fb a := by
  simp only [itemAt] at h
  split at h
  · next hregion =>
    obtain ⟨hc, hi⟩ := Option.ite_none_right_eq_some.1 h
    exact .inl ⟨hregion, hc, hi⟩
  · exact .inr (.inl ⟨_, _, h⟩)
  iterate 6
    obtain ⟨hb, hi⟩ := Option.ite_none_right_eq_some.1 h
    exact .inr (.inr (.inl ⟨loc.extractLsb' 16 4, _, hb, by simp [← Option.some.inj hi]⟩))
  · obtain ⟨ha, hi⟩ := Option.ite_none_right_eq_some.1 h
    exact .inr (.inr (.inr ⟨_, ha, (Option.some.inj hi).symm⟩))
  · cases h

/-- Region 0 holds no byte of `FB`, and `CMD` at index 2 only (R62). -/
theorem itemGlobal_cases {index : Nat} {item : Item} (h : itemGlobal index = some item) :
    (∀ a, item ≠ .fb a) ∧ (item = .cmd → index = 2) := by
  unfold itemGlobal at h
  split at h <;> cases h <;> simp

/-- Region 1 holds neither `CMD` nor a byte of `FB` (R62). -/
theorem itemChannel_cases {c : ChanIx} {index : Nat} {item : Item} (h : itemChannel c index = some item) :
    (∀ a, item ≠ .fb a) ∧ item ≠ .cmd := by
  unfold itemChannel at h
  split at h <;> cases h <;> simp

/-- `CMD` has one location (R62). -/
theorem eq_cmdLoc_of_itemAt {cfg : Cfg} {loc : Loc} (h : itemAt cfg loc = some .cmd) : loc = cmdLoc := by
  rcases itemAt_cases h with ⟨hregion, hc, hi⟩ | ⟨c, index, hi⟩ | ⟨c, b, -, hi⟩ | ⟨a, -, hi⟩
  · have hc : (loc.extractLsb' 16 4).toNat = 0 := congrArg BitVec.toNat hc
    have hi := (itemGlobal_cases hi).2 rfl
    simp only [BitVec.extractLsb'_toNat, Nat.shiftRight_eq_div_pow] at hregion hc hi
    apply BitVec.eq_of_toNat_eq
    change loc.toNat = 2
    omega
  · exact absurd rfl (itemChannel_cases hi).2
  · simp at hi
  · cases hi

/-- A mapped byte of `FB` exists (R39, R62). -/
theorem fb_lt_of_itemAt {cfg : Cfg} {loc : Loc} {a : Nat} (h : itemAt cfg loc = some (.fb a)) : a < cfg.fbCap := by
  rcases itemAt_cases h with ⟨-, -, hi⟩ | ⟨c, index, hi⟩ | ⟨c, b, -, hi⟩ | ⟨a', ha, hi⟩
  · exact absurd rfl ((itemGlobal_cases hi).1 a)
  · exact absurd rfl ((itemChannel_cases hi).1 a)
  · simp at hi
  · cases hi; exact ha

/-! ### The host port -/

/-- A read of a mapped location returns what `readItem` says (R63). -/
theorem State.hostRead_mapped {loc : Loc} {item : Item} (h : itemAt s.cfg loc = some item) :
    s.hostRead loc = s.setPortData (s.readItem item) := by
  simp [State.hostRead, h]

/-- A read of an unmapped location sets `ACCERR` and returns 0 (R65). -/
theorem State.hostRead_unmapped {loc : Loc} (h : itemAt s.cfg loc = none) :
    s.hostRead loc = s.accessError.setPortData 0 := by
  simp [State.hostRead, h]

/-- A read changes the port's datum and, where it is refused, `ACCERR`. -/
theorem State.hostRead_cases (s : State) (loc : Loc) :
    ∃ d, s.hostRead loc = s.setPortData d ∨ s.hostRead loc = s.accessError.setPortData d := by
  cases h : itemAt s.cfg loc with
  | none => exact ⟨_, .inr (State.hostRead_unmapped h)⟩
  | some item => exact ⟨_, .inl (State.hostRead_mapped h)⟩

/-- A write to a mapped location other than `CMD` is `writeItem` (R64). -/
theorem State.hostWrite_mapped {loc : Loc} {item : Item} (d : PortWord) (h : itemAt s.cfg loc = some item)
    (hc : item ≠ .cmd) : s.hostWrite loc d = .next (s.writeItem d item) := by
  cases item with
  | cmd => exact absurd rfl hc
  | _ => simp [State.hostWrite, h]

theorem State.hostWrite_unmapped {loc : Loc} (d : PortWord) (h : itemAt s.cfg loc = none) :
    s.hostWrite loc d = .next s.accessError := by
  simp [State.hostWrite, h]

/-- A read-only item, and a locked one while a session is open, refuse every write (R44, R64). -/
theorem State.writeItem_refused {item : Item} (d : PortWord)
    (h : item.readOnly = true ∨ (item.locked = true ∧ s.run = true)) : s.writeItem d item = s.accessError := by
  cases item with
  | id | paramB | resp | state | chstat => rfl
  | cfgNch | cfgBands | cfgDir | cpl => exact if_pos (by simpa [Item.readOnly, Item.locked] using h)
  | _ => simp [Item.readOnly, Item.locked] at h

theorem State.hostWrite_refused {loc : Loc} {item : Item} (d : PortWord) (hi : itemAt s.cfg loc = some item)
    (h : item.readOnly = true ∨ (item.locked = true ∧ s.run = true)) : s.hostWrite loc d = .next s.accessError := by
  have hc : item ≠ .cmd := by rintro rfl; simp [Item.readOnly, Item.locked] at h
  rw [State.hostWrite_mapped d hi hc, s.writeItem_refused d h]

/-! ### A step -/

/-- What a step can make of the state `s`, in terms of what a host write and a command can do (R73, R200). -/
inductive Stepped (s : State) : State → Prop
  | rests (hp : s.pending = []) : Stepped s s
  | resets {rest : List HostAccess} (hp : s.pending = .hardReset :: rest) : Stepped s (s.setPending rest).hardReset
  | reads {rest : List HostAccess} {loc : Loc} (hp : s.pending = .read loc :: rest) :
      Stepped s ((s.setPending rest).hostRead loc)
  | refuses {rest : List HostAccess} {loc : Loc} {d : PortWord} (hp : s.pending = .write loc d :: rest)
      (hi : itemAt s.cfg loc = none) : Stepped s (s.setPending rest).accessError
  | writes {rest : List HostAccess} {loc : Loc} {d : PortWord} {item : Item} {t : State}
      (hp : s.pending = .write loc d :: rest) (hi : itemAt s.cfg loc = some item)
      (ht : Written (s.setPending rest) item t) : Stepped s t
  | faults {rest : List HostAccess} {d : PortWord} {r : Resp} (hp : s.pending = .write cmdLoc d :: rest)
      (hr : r.cause ≠ .success) : Stepped s (((s.setPending rest).setCmd (d.setWidth 32)).raise r)
  | commands {rest : List HostAccess} {d : PortWord} {i : Instr} {t : State}
      (hp : s.pending = .write cmdLoc d :: rest) (hi : decode (d.setWidth 32) = .ok i)
      (ht : Commanded ((s.setPending rest).setCmd (d.setWidth 32)) i t) : Stepped s t

/-- Every step does one of the things of `Stepped`. -/
theorem step_stepped (h : step s = .next t) : Stepped s t := by
  rcases step_cases s with ⟨hp, he⟩ | ⟨rest, hp, he⟩ | ⟨loc, rest, hp, he⟩ | ⟨loc, d, rest, hp, hi, he⟩ |
    ⟨loc, d, rest, item, hp, hi, hc, he⟩ | ⟨loc, d, rest, hp, hi, he⟩ <;> rw [he] at h
  · cases h; exact .rests hp
  · cases h; exact .resets hp
  · cases h; exact .reads hp
  · cases h; exact .refuses hp hi
  · cases h; exact .writes hp hi (writeItem_written _ d item hc)
  · obtain rfl := eq_cmdLoc_of_itemAt hi
    rcases execWord_commanded h with ⟨r, hr, rfl⟩ | ⟨i, hi, ht⟩
    · exact .faults hp hr
    · exact .commands hp hi ht

end Sys2Proof.Machine
end

section
/-! PROOFS. The invariant of R57: one rule per operation of the state, then commands, host writes and steps. -/

namespace Sys2Proof.Machine

variable {s t : State}

/-! ### The invariant after each operation -/

/-- The pairing reads the coupling registers and `CFG_NCH` only. -/
theorem State.paired_congr (hcpl : ∀ c, (t.chan c).cpl = (s.chan c).cpl) (hn : t.cfgNch = s.cfgNch) (c : ChanIx)
    (h : (s.chan c).role = 0 ∨ s.Paired c) : (t.chan c).role = 0 ∨ t.Paired c := by
  simpa only [State.Paired, Chan.role, Chan.partner, hcpl, hn] using h

/-- No clause speaks of the registers that are never locked, of the report, or of the port; of `STATUS` it asks that no
reserved bit is set. -/
theorem State.Inv.withReport (h : s.Inv) {m : BitVec 4} {p l : BitVec 24} {w : Word} {r : Resp} {v : BitVec 16}
    {x : PortWord} {q : List HostAccess} {n : Nat} (hv : v &&& ~~~statusMask = 0) :
    { s with cplMode := m, bcPos := p, bcLimit := l, cmd := w, resp := r, status := v, portData := x, pending := q,
             draws := n : State }.Inv :=
  { h with status := hv }

/-- A slot value that the invariant admits as slot `c` of `s`. -/
structure State.Admits (s : State) (c : ChanIx) (k : Chan) : Prop where
  sized  : k.Sized s.blockSize
  cpl    : k.cpl &&& 0x0C = 0
  locked : s.run = true → k.cpl = (s.chan c).cpl
  closed : s.run = false → k.fsm = .idle ∧ k.qvalid = false
  qvalid : k.qvalid = true → (s.cfgDir = 0 ∧ k.fsm = .idle) ∨ (s.cfgDir = 1 ∧ k.fsm = .transformed)
  active : k.fsm ≠ .idle → c.toNat < s.cfgNch.toNat

theorem State.Inv.setChan (h : s.Inv) {c : ChanIx} {k : Chan} (hk : s.Admits c k) : (s.setChan c k).Inv where
  sized := State.setChan_forall (fun _ k => k.Sized s.blockSize) hk.sized h.sized
  fbForm := h.fbForm
  fbWithin := h.fbWithin
  status := h.status
  cpl := State.setChan_forall (fun _ k => k.cpl &&& 0x0C = 0) hk.cpl h.cpl
  closed hrun := State.setChan_forall (fun _ k => k.fsm = .idle ∧ k.qvalid = false) (hk.closed hrun) (h.closed hrun)
  qvalid := State.setChan_forall
    (fun _ k => k.qvalid = true → (s.cfgDir = 0 ∧ k.fsm = .idle) ∨ (s.cfgDir = 1 ∧ k.fsm = .transformed))
    hk.qvalid h.qvalid
  counts := h.counts
  pairing hrun c' hc' :=
    State.paired_congr (State.setChan_apply Chan.cpl (hk.locked hrun)) rfl c' (h.pairing hrun c' hc')
  active := State.setChan_forall (fun c k => k.fsm ≠ .idle → c.toNat < s.cfgNch.toNat) hk.active h.active

/-- The memory of `FB` may become any that keeps the form and the bound. -/
theorem State.Inv.withFrame (h : s.Inv) {m : Memory} (hm : s.KeepsFrame m) : { s with fb := m : State }.Inv :=
  { h with fbForm := hm.form h.fbForm, fbWithin := hm.within h.fbWithin }

/-- Every slot made Idle by `f`, which keeps sizes and coupling, the session being open afterwards only with consistent
parameters (R122 to R124). -/
theorem State.Inv.mapIdle (h : s.Inv) {f : Chan → Chan} {b : Bool}
    (hsized : ∀ k, k.Sized s.blockSize → (f k).Sized s.blockSize)
    (hcpl : ∀ k, (f k).cpl = k.cpl) (hidle : ∀ k, (f k).fsm = .idle ∧ (f k).qvalid = false)
    (hb : b = true → s.Consistent) : ((s.mapChans f).setRun b).Inv where
  sized c := by simpa using hsized _ (h.sized c)
  fbForm := by simpa using h.fbForm
  fbWithin := by simpa using h.fbWithin
  status := by simpa using h.status
  cpl c := by simpa [hcpl] using h.cpl c
  closed _ c := by simpa using hidle (s.chan c)
  qvalid c hq := by simp [hidle] at hq
  counts hrun := by simpa using (hb hrun).counts
  pairing hrun c hc :=
    State.paired_congr (s := s) (by simp [hcpl]) (by simp) c ((hb hrun).pairing c (by simpa using hc))
  active c hc := by simp [hidle] at hc

/-- With no session open the configuration may become anything (R44). -/
theorem State.Inv.reconfigure (h : s.Inv) (hrun : s.run = false) (n : BitVec 5) (b : BitVec 12) (d : BitVec 1) :
    { s with cfgNch := n, cfgBands := b, cfgDir := d : State }.Inv :=
  { h with
    qvalid := fun c hq => absurd ((h.closed hrun c).2.symm.trans hq) nofun
    counts := fun hr => absurd (hrun.symm.trans hr) nofun
    pairing := fun hr => absurd (hrun.symm.trans hr) nofun
    active := fun c hf => absurd (h.closed hrun c).1 hf }

/-- An open session of a state that meets the invariant is consistent (I-c). -/
theorem State.Inv.consistent (h : s.Inv) (hrun : s.run = true) : s.Consistent := ⟨h.counts hrun, h.pairing hrun⟩

/-! ### The reserved bits of STATUS -/

theorem Cause.statusBit_reserved {k : Cause} (h : k ≠ .success) : k.statusBit &&& ~~~statusMask = 0 := by
  cases k with
  | success => exact absurd rfl h
  | _ => decide

/-- Setting a bit that exists sets no reserved bit. -/
theorem State.Inv.status_or (h : s.Inv) {v : BitVec 16} (hv : v &&& ~~~statusMask = 0) :
    (s.status ||| v) &&& ~~~statusMask = 0 := by
  rw [BitVec.and_comm, BitVec.and_or_distrib_left, BitVec.and_comm, h.status, BitVec.and_comm, hv]
  exact BitVec.or_zero

/-- Clearing bits sets no reserved bit. -/
theorem State.Inv.status_and (h : s.Inv) (v : BitVec 16) : (s.status &&& v) &&& ~~~statusMask = 0 := by
  rw [BitVec.and_assoc, BitVec.and_comm v, ← BitVec.and_assoc, h.status]
  exact BitVec.zero_and

theorem State.Inv.raise (h : s.Inv) {r : Resp} (hr : r.cause ≠ .success) : (s.raise r).Inv :=
  h.withReport (h.status_or (Cause.statusBit_reserved hr))

theorem State.Inv.accessError (h : s.Inv) : s.accessError.Inv := h.withReport (h.status_or (by decide))

/-! ### Hard reset -/

theorem Chan.powerOn_sized (b draw c : Nat) : (Chan.powerOn b draw c).Sized b := by
  constructor <;> simp [Chan.powerOn]

/-- The invariant holds after hard reset, whatever the parameters (R56, R57). -/
theorem State.powerOn_inv (cfg : Cfg) (draw : Nat) (pending : List HostAccess) :
    (State.powerOn cfg draw pending).Inv where
  sized c := by rw [State.powerOn_chan]; exact Chan.powerOn_sized _ _ _
  fbForm := rfl
  fbWithin := rfl
  status := by simp [State.powerOn]
  cpl c := by simp [Chan.powerOn]
  closed _ c := by simp [Chan.powerOn]
  qvalid c hq := by simp [Chan.powerOn] at hq
  counts := nofun
  pairing := nofun
  active c hf := by simp [Chan.powerOn] at hf

/-! ### Commands and host writes -/

/-- A slot after a command on it is admitted: a Loaded slot has no valid `Q` (I-b). -/
theorem State.Inv.admits_slotEffect (h : s.Inv) {i : Instr} {c : ChanIx} {k : Chan} (hk : SlotEffect s i c k) :
    s.Admits c k where
  sized := hk.sized (h.sized c)
  cpl := hk.cpl ▸ h.cpl c
  locked _ := hk.cpl
  closed hrun := absurd (hrun.symm.trans hk.run) nofun
  qvalid hq := by
    rcases hk.qvalid hq with hd | hd | ⟨hf, hq'⟩
    · exact .inl hd
    · exact .inr hd
    · rcases h.qvalid c hq' with ⟨-, hf'⟩ | ⟨-, hf'⟩ <;> simp [hf] at hf'
  active _ := hk.inRange

theorem State.Inv.admits_dataWrite (h : s.Inv) {c : ChanIx} {k : Chan} (hk : DataWrite (s.chan c) k) :
    s.Admits c k where
  sized := hk.sized _ (h.sized c)
  cpl := hk.cpl ▸ h.cpl c
  locked _ := hk.cpl
  closed hrun := by rw [hk.fsm, hk.qvalid]; exact h.closed hrun c
  qvalid hq := by rw [hk.fsm]; exact h.qvalid c (hk.qvalid ▸ hq)
  active hf := h.active c (hk.fsm ▸ hf)

/-- With no session open, a coupling register with its reserved bits 0 is admitted (R43, R44). -/
theorem State.Inv.admits_coupling (h : s.Inv) (c : ChanIx) (v : BitVec 8) (hrun : s.run = false) :
    s.Admits c { s.chan c with cpl := v &&& 0xF3 } where
  sized := { h.sized c with }
  cpl := by
    change v &&& 0xF3#8 &&& 0x0C#8 = 0
    rw [BitVec.and_assoc]
    exact BitVec.and_zero
  locked hr := absurd (hrun.symm.trans hr) nofun
  closed _ := h.closed hrun c
  qvalid hq := absurd ((h.closed hrun c).2.symm.trans hq) nofun
  active hf := absurd (h.closed hrun c).1 hf

/-- Every command keeps the invariant (R57). -/
theorem State.Inv.commanded {i : Instr} (h : s.Inv) (ht : Commanded s i t) : t.Inv := by
  cases ht with
  | raises hr => exact h.raise hr
  | overruns b _ hk =>
    have h' := h.setChan (h.admits_slotEffect hk)
    exact h'.withReport (h'.status_or (Cause.statusBit_reserved (k := .bitstreamOverrun) nofun))
  | completes => exact h.withReport h.status
  | opens _ _ hs =>
    have h' := h.mapIdle (f := Chan.opened s.blockSize) (b := true) (fun _ hk => { hk with ov := by simp })
      (fun _ => rfl) (fun _ => ⟨rfl, rfl⟩) fun _ => hs
    exact h'.withReport h'.status
  | idles hb =>
    have h' := h.mapIdle (f := Chan.toIdle) (fun _ hk => { hk with }) (fun _ => rfl) (fun _ => ⟨rfl, rfl⟩)
      fun hr => h.consistent (hb hr)
    exact h'.withReport h'.status
  | works p n hk hm =>
    have h' := (h.setChan (h.admits_slotEffect hk)).withFrame ⟨hm.form, hm.within⟩
    exact h'.withReport h'.status

/-- Every host write to an item other than `CMD` keeps the invariant, a byte of `FB` being one that exists. -/
theorem State.Inv.written {item : Item} (h : s.Inv) (hfb : ∀ a, item = .fb a → a < s.cfg.fbCap)
    (ht : Written s item t) : t.Inv := by
  cases ht with
  | refused _ => exact h.accessError
  | clears v _ => exact h.withReport (h.status_and _)
  | configures n b d hrun => exact h.reconfigure hrun n b d
  | couples c v hrun => exact h.setChan (h.admits_coupling c v hrun)
  | registers m p l => exact h.withReport h.status
  | data hk _ => exact h.setChan (h.admits_dataWrite hk)
  | frame a v hi => exact h.withFrame (s.keepsFrame_setFbByte v (hfb a hi))

theorem State.Inv.hostRead (h : s.Inv) (loc : Loc) : (s.hostRead loc).Inv := by
  obtain ⟨d, he | he⟩ := s.hostRead_cases loc
  · rw [he]; exact h.withReport h.status
  · rw [he]; exact h.accessError.withReport h.accessError.status

/-- Every step keeps the invariant. -/
theorem State.Inv.stepped (h : s.Inv) (ht : Stepped s t) : t.Inv := by
  cases ht with
  | rests _ => exact h
  | resets _ => exact State.powerOn_inv _ _ _
  | reads _ => exact (h.withReport h.status).hostRead _
  | refuses _ _ => exact (h.withReport h.status).accessError
  | writes _ hi ht => exact (h.withReport h.status).written (fun _ ha => fb_lt_of_itemAt (ha ▸ hi)) ht
  | faults _ hr => exact (h.withReport h.status).raise hr
  | commands _ _ ht => exact (h.withReport h.status).commanded ht

end Sys2Proof.Machine
end

section
/-! PROOFS. What commands and host writes leave as it was (parameters, configuration, overlap, `STATUS`), and the
statements about every step. -/

namespace Sys2Proof.Machine

variable {s t : State}

/-! ### Parameters and configuration -/

/-- The configuration that is locked while a session is open is as before (R44). -/
structure SameConfiguration (s t : State) : Prop where
  cfgNch   : t.cfgNch = s.cfgNch
  cfgBands : t.cfgBands = s.cfgBands
  cfgDir   : t.cfgDir = s.cfgDir
  cpl      : ∀ c, (t.chan c).cpl = (s.chan c).cpl

theorem SameConfiguration.trans {u : State} (h : SameConfiguration s u) (h' : SameConfiguration u t) :
    SameConfiguration s t :=
  ⟨h'.cfgNch.trans h.cfgNch, h'.cfgBands.trans h.cfgBands, h'.cfgDir.trans h.cfgDir,
    fun c => (h'.cpl c).trans (h.cpl c)⟩

theorem Commanded.cfg {i : Instr} (h : Commanded s i t) : t.cfg = s.cfg := by
  cases h with
  | opens _ _ _ | idles _ => simp
  | _ => rfl

theorem Written.cfg {item : Item} (h : Written s item t) : t.cfg = s.cfg := by
  cases h <;> rfl

/-- No command changes the configuration. -/
theorem Commanded.sameConfiguration {i : Instr} (h : Commanded s i t) : SameConfiguration s t := by
  cases h with
  | raises _ => exact ⟨rfl, rfl, rfl, fun _ => rfl⟩
  | overruns _ _ hk => exact ⟨rfl, rfl, rfl, State.setChan_apply Chan.cpl hk.cpl⟩
  | completes => exact ⟨rfl, rfl, rfl, fun _ => rfl⟩
  | opens _ _ _ | idles _ => constructor <;> simp
  | works _ _ hk _ => exact ⟨rfl, rfl, rfl, State.setChan_apply Chan.cpl hk.cpl⟩

/-- No host write changes the configuration while a session is open (R44). -/
theorem Written.sameConfiguration {item : Item} (h : Written s item t) (hrun : s.run = true) :
    SameConfiguration s t := by
  cases h with
  | refused _ => exact ⟨rfl, rfl, rfl, fun _ => rfl⟩
  | clears _ _ => exact ⟨rfl, rfl, rfl, fun _ => rfl⟩
  | configures _ _ _ hr => exact absurd (hrun.symm.trans hr) nofun
  | couples _ _ hr => exact absurd (hrun.symm.trans hr) nofun
  | registers _ _ _ => exact ⟨rfl, rfl, rfl, fun _ => rfl⟩
  | data hk _ => exact ⟨rfl, rfl, rfl, State.setChan_apply Chan.cpl hk.cpl⟩
  | frame _ _ _ => exact ⟨rfl, rfl, rfl, fun _ => rfl⟩

theorem State.hostRead_cfg (s : State) (loc : Loc) : (s.hostRead loc).cfg = s.cfg := by
  obtain ⟨d, he | he⟩ := s.hostRead_cases loc <;> rw [he] <;> rfl

theorem State.hostRead_sameConfiguration (s : State) (loc : Loc) : SameConfiguration s (s.hostRead loc) := by
  obtain ⟨d, he | he⟩ := s.hostRead_cases loc <;> rw [he] <;> exact ⟨rfl, rfl, rfl, fun _ => rfl⟩

/-- No step changes a parameter (R20). -/
theorem Stepped.cfg (h : Stepped s t) : t.cfg = s.cfg := by
  cases h with
  | rests _ | resets _ | refuses _ _ | faults _ _ => rfl
  | reads _ => exact State.hostRead_cfg _ _
  | writes _ _ ht => exact ht.cfg
  | commands _ _ ht => exact ht.cfg

/-- No step but a hard reset changes the configuration of an open session (R44). -/
theorem Stepped.sameConfiguration (h : Stepped s t) (hrun : s.run = true)
    (hreset : ∀ rest, s.pending ≠ .hardReset :: rest) : SameConfiguration s t := by
  have hpending (rest : List HostAccess) : SameConfiguration s (s.setPending rest) := ⟨rfl, rfl, rfl, fun _ => rfl⟩
  have hcmd (rest : List HostAccess) (w : Word) : SameConfiguration s ((s.setPending rest).setCmd w) :=
    ⟨rfl, rfl, rfl, fun _ => rfl⟩
  cases h with
  | rests _ | refuses _ _ | faults _ _ => exact ⟨rfl, rfl, rfl, fun _ => rfl⟩
  | resets hp => exact absurd hp (hreset _)
  | reads _ => exact (hpending _).trans (State.hostRead_sameConfiguration _ _)
  | writes _ _ ht => exact (hpending _).trans (ht.sameConfiguration hrun)
  | commands _ _ ht => exact (hcmd _ _).trans ht.sameConfiguration

/-! ### The overlap buffers -/

/-- A command that changes `OV[d]` succeeds, and is `START` or a transform of channel `d` (I-e). -/
theorem Commanded.ov {i : Instr} (h : Commanded s i t) (d : ChanIx) :
    (t.chan d).ov = (s.chan d).ov ∨ (t.resp.cause = .success ∧ (i = .start ∨ i = .imdct d ∨ i = .mdct d)) := by
  cases h with
  | raises _ | completes => exact .inl rfl
  | overruns _ hi hk =>
    subst hi
    exact .inl (State.setChan_apply Chan.ov (by simpa using hk.ov) d)
  | opens hi _ _ => exact .inr ⟨rfl, .inl hi⟩
  | idles _ => exact .inl (by simp)
  | @works c k m p n hk _ =>
    rcases hk.ov with hov | hi
    · exact .inl (State.setChan_apply Chan.ov hov d)
    · by_cases hd : d = c
      · exact .inr ⟨rfl, .inr (hd ▸ hi)⟩
      · exact .inl (congrArg Chan.ov (s.setChan_chan_other k hd))

/-- A host write that changes `OV[d]` is to an element of it (I-e). -/
theorem Written.ov {item : Item} (h : Written s item t) (d : ChanIx) :
    (t.chan d).ov = (s.chan d).ov ∨ ∃ n, item = .ov d n := by
  cases h with
  | refused _ | clears _ _ | configures _ _ _ _ | registers _ _ _ | frame _ _ _ => exact .inl rfl
  | couples c v _ => exact .inl (State.setChan_apply (k := { s.chan c with cpl := v &&& 0xF3 }) Chan.ov rfl d)
  | @data c k _ hov =>
    rcases hov with hov | ⟨n, hi⟩
    · exact .inl (State.setChan_apply Chan.ov hov d)
    · by_cases hd : d = c
      · exact .inr ⟨n, hd ▸ hi⟩
      · exact .inl (congrArg Chan.ov (s.setChan_chan_other k hd))

theorem State.hostRead_chan (s : State) (loc : Loc) (d : ChanIx) : (s.hostRead loc).chan d = s.chan d := by
  obtain ⟨x, he | he⟩ := s.hostRead_cases loc <;> rw [he] <;> rfl

/-! ### STATUS -/

/-- A command sets the sticky bit of its fault and changes `STATUS` in no other way (R54). -/
theorem Commanded.status {i : Instr} (h : Commanded s i t) :
    (t.resp.cause = .success ∧ t.status = s.status) ∨
    (t.resp.cause ≠ .success ∧ t.status = s.status ||| t.resp.cause.statusBit) := by
  cases h with
  | raises hr => exact .inr ⟨hr, rfl⟩
  | overruns _ _ _ => exact .inr ⟨nofun, rfl⟩
  | opens _ _ _ | idles _ => exact .inl (by simp)
  | completes | works _ _ _ _ => exact .inl ⟨rfl, rfl⟩

/-- `Exec` of any word that does not succeed sets the sticky bit of its fault (R54). -/
theorem execWord_status {w : Word} (h : execWord w s = .next t) (hf : t.resp.cause ≠ .success) :
    t.status = s.status ||| t.resp.cause.statusBit := by
  rcases execWord_commanded h with ⟨r, hr, rfl⟩ | ⟨i, -, ht⟩
  · rfl
  · exact (ht.status.resolve_left fun h => hf h.1).2

/-- No bit of `v` is lost on the way from `v` to `w`. -/
def Sticky (v w : BitVec 16) : Prop := w &&& v = v

theorem sticky_refl (v : BitVec 16) : Sticky v v := BitVec.and_self

theorem sticky_or (v w : BitVec 16) : Sticky v (v ||| w) := by
  unfold Sticky
  ext i hi
  simp only [BitVec.getElem_and, BitVec.getElem_or]
  cases v[i] <;> simp

theorem Commanded.sticky {i : Instr} (h : Commanded s i t) : Sticky s.status t.status := by
  rcases h.status with ⟨-, hs⟩ | ⟨-, hs⟩ <;> rw [hs]
  · exact sticky_refl _
  · exact sticky_or _ _

/-- No host write but one to `STATUS` clears a bit. -/
theorem Written.sticky {item : Item} (h : Written s item t) (hi : item ≠ .status) : Sticky s.status t.status := by
  cases h with
  | refused _ => exact sticky_or _ _
  | clears _ h => exact absurd h hi
  | configures _ _ _ _ | couples _ _ _ | registers _ _ _ | data _ _ | frame _ _ _ => exact sticky_refl _

theorem State.hostRead_sticky (s : State) (loc : Loc) : Sticky s.status (s.hostRead loc).status := by
  obtain ⟨d, he | he⟩ := s.hostRead_cases loc <;> rw [he]
  · exact sticky_refl _
  · exact sticky_or _ _

/-- No step but a hard reset and a write to `STATUS` clears a bit of `STATUS` (R54). -/
theorem Stepped.sticky (h : Stepped s t) (hreset : ∀ rest, s.pending ≠ .hardReset :: rest)
    (hclear : ∀ loc d rest, s.pending = .write loc d :: rest → itemAt s.cfg loc ≠ some .status) :
    Sticky s.status t.status := by
  cases h with
  | rests _ => exact sticky_refl _
  | resets hp => exact absurd hp (hreset _)
  | reads _ => exact (s.setPending _).hostRead_sticky _
  | refuses _ _ | faults _ _ => exact sticky_or _ _
  | writes hp hi ht => exact ht.sticky (s := s.setPending _) fun h => hclear _ _ _ hp (h ▸ hi)
  | commands _ _ ht => exact ht.sticky

theorem Cause.statusBit_eq_twoPow (k : Cause) : k.statusBit = BitVec.ofNat 16 (2 ^ k.code.toNat) := by
  cases k <;> rfl

/-- A refused access leaves `ACCERR` set (R65). -/
theorem State.accessError_bit (s : State) : s.accessError.status.getLsbD 15 = true := by
  rw [State.accessError_status, BitVec.getLsbD_or, Bool.or_eq_true]
  exact .inr rfl

/-- Bits 0 and 9 to 14 of `STATUS` read 0 (R54). -/
theorem statusWord_reserved (v : BitVec 16) : (v &&& statusMask).setWidth 64 &&& 0x7E01#64 = 0 := by
  rw [BitVec.setWidth_and, BitVec.and_assoc]
  exact BitVec.and_zero

theorem Cause.code_pos {k : Cause} (h : k ≠ .success) : 1 ≤ k.code.toNat ∧ k.code.toNat ≤ 8 := by
  cases k with
  | success => exact absurd rfl h
  | _ => decide

/-! ### The words of the special registers -/

theorem State.stateWord_toNat (s : State) : s.stateWord.toNat = s.run.toNat + 2 * s.cfg.tablesOk.toNat := by
  unfold State.stateWord
  cases s.run <;> cases s.cfg.tablesOk <;> rfl

theorem Chan.chstat_toNat (k : Chan) : k.chstat.toNat = k.fsm.bits.toNat + 4 * k.qvalid.toNat := by
  unfold Chan.chstat
  cases k.fsm <;> cases k.qvalid <;> rfl

/-- `RESP` as a number: `INFO` above, the code below (R53). -/
theorem Resp.word_toNat (r : Resp) : r.word.toNat = r.info.toNat * 2 ^ 16 + r.cause.code.toNat := by
  rw [Resp.word, BitVec.toNat_append, BitVec.toNat_append, ← Nat.shiftLeft_add_eq_or_of_lt r.cause.code.isLt]
  simp [Nat.shiftLeft_eq]
  omega

/-- The location of `CHSTAT[c]` (R62). -/
theorem itemAt_chstat (cfg : Cfg) (c : ChanIx) :
    itemAt cfg (0x100002#24 ||| (c.setWidth 24 <<< 16)) = some (.chstat c) := by
  have hregion : ∀ c : ChanIx, (0x100002#24 ||| (c.setWidth 24 <<< 16)).extractLsb' 20 4 = 1 ∧
      (0x100002#24 ||| (c.setWidth 24 <<< 16)).extractLsb' 16 4 = c ∧
      (0x100002#24 ||| (c.setWidth 24 <<< 16)).extractLsb' 0 16 = 2 := by decide
  obtain ⟨hr, hc, hi⟩ := hregion c
  simp only [itemAt, hr, hc, hi]
  rfl

/-- The code of a cause as R180 lists it. -/
theorem Cause.code_of_table : ∀ x ∈ [(Cause.success, 0), (.initializationError, 1), (.illegalCommand, 2),
    (.sequenceError, 3), (.invalidConfiguration, 4), (.unsupportedMode, 5), (.bitstreamOverrun, 6), (.rangeError, 7),
    (.nonFinite, 8)], x.1.code.toNat = x.2 := by decide

/-! ### The command behind a write to CMD -/

/-- Without good tables every command raises `InitializationError` (R190). -/
theorem exec_badTables (i : Instr) (ht : s.cfg.tablesOk = false) :
    exec i s = .next (s.raise ⟨.initializationError, 0⟩) := by
  have hg : ∃ body, exec i s = .next (s.guarded (checksOf s i) body) := by
    cases i <;> exact ⟨_, rfl⟩
  obtain ⟨body, he⟩ := hg
  rw [he, s.guarded_badTables ht]

/-- `Exec` of a legal word is the command it encodes (R120). -/
theorem execWord_decoded {w : Word} {i : Instr} (h : decode w = .ok i) : execWord w s = exec i s := by
  unfold execWord
  split
  · rw [h]
  · next ht => rw [exec_badTables i (by simpa using ht)]

end Sys2Proof.Machine

namespace Sys2Proof.Tables

/-- The entries of `DEQ_SCALE` are the correctly rounded values of R23's formula. -/
theorem deqScale_nearest : ∀ x ∈ List.range 64,
    isNearestPow (deqScale (BitVec.ofNat 6 x)) (448 + 53 * ((x : Int) - 63)) = true := by decide +kernel

/-- The entries of `IRATIO` lie within half a unit in the last place of (14 - x) / 7 (R25). -/
theorem iRatio_nearest : ∀ x ∈ List.range 14,
    2 * (7 * F64.scaled (iRatio (BitVec.ofNat 4 x)) - (14 - (x : Int)) * 2 ^ 1074).natAbs <
      7 * 2 ^ (F64.magBits (iRatio (BitVec.ofNat 4 x)) / 2 ^ 52 - 1) := by decide +kernel

/-- `IRATIO` is 0 at 14 and beyond (R25). -/
theorem iRatio_ends : iRatio 14 = 0 ∧ iRatio 15 = 0 := by decide +kernel

/-- The level counts and the ranges as R21 and R22 list them. -/
theorem levels_qRange_values :
    (List.range 16).map levels = [1, 3, 5, 7, 9, 11, 13, 15, 31, 63, 127, 255, 511, 1023, 2047, 4095] ∧
    (List.range 16).map qRange = [0, 1, 2, 3, 4, 5, 6, 7, 15, 31, 63, 127, 255, 511, 1023, 2047] := by decide

end Sys2Proof.Tables

namespace Sys2Proof.Machine

/-- Settles O10: what a step can do (`Stepped`), each case by the rule of its operation for the invariant. -/
theorem stepKeepsTheInvariant : Obligations.StepKeepsTheInvariant :=
  fun _ _ h ht => h.stepped (step_stepped ht)

/-- Settles O7, by the cases of a step. -/
theorem parametersNeverChange : Obligations.ParametersNeverChange :=
  fun _ _ ht => (step_stepped ht).cfg

/-- Settles O11: the writers are read off the cases of a step. -/
theorem overlapChangesOnlyByItsWriters : Obligations.OverlapChangesOnlyByItsWriters := by
  intro s t c ht hne
  cases step_stepped ht with
  | rests _ | refuses _ _ | faults _ _ => exact absurd rfl hne
  | resets hp => exact .inl ⟨_, hp⟩
  | reads _ => exact absurd (congrArg Chan.ov ((s.setPending _).hostRead_chan _ c)) hne
  | writes hp hi hw =>
    obtain ⟨n, rfl⟩ := (hw.ov c).resolve_left hne
    exact .inr (.inl ⟨_, _, n, _, hp, hi⟩)
  | commands hp hi hc => exact .inr (.inr ⟨_, _, _, hp, hi, (hc.ov c).resolve_left hne⟩)

/-- Settles O13: a locked item refuses, and no other access or command writes the configuration. -/
theorem configurationIsLockedWhileRunning : Obligations.ConfigurationIsLockedWhileRunning := by
  intro s hrun
  refine ⟨fun loc d hloc => ?_, fun t ht hreset => ?_⟩
  · rcases hloc with hi | hi | hi | ⟨c, hi⟩ <;> exact State.hostWrite_refused d hi (.inr ⟨rfl, hrun⟩)
  · obtain ⟨hn, hb, hd, hc⟩ := (step_stepped ht).sameConfiguration hrun hreset
    exact ⟨hn, hb, hd, hc⟩

/-- Settles O55: each location's item, and the word of `STATE` and of `CHSTAT` as a number. -/
theorem specialRegistersReadAsTheirWords : Obligations.SpecialRegistersReadAsTheirWords := by
  intro s
  refine ⟨rfl, fun hB => ?_, rfl, rfl, ?_, fun c => ?_⟩
  · change ((BitVec.ofNat 12 s.blockSize).setWidth 64).toNat = s.blockSize
    rw [BitVec.toNat_setWidth, BitVec.toNat_ofNat]
    omega
  · change (s.stateWord.setWidth 64).toNat = _
    rw [BitVec.toNat_setWidth_of_le (by decide), s.stateWord_toNat]
  · rw [State.hostRead_mapped (itemAt_chstat s.cfg c)]
    change ((s.chan c).chstat.setWidth 64).toNat = _
    rw [BitVec.toNat_setWidth_of_le (by decide), Chan.chstat_toNat]
    cases (s.chan c).fsm <;> rfl

/-- Settles O56, by `RESP` as a number and the bit a command sets (`Commanded.status`). -/
theorem respReadsCodeAndInfo : Obligations.RespReadsCodeAndInfo := by
  intro cause code hmem
  obtain rfl : cause.code.toNat = code := Cause.code_of_table _ hmem
  refine ⟨fun s info hr => ?_, fun s t i ht hcause hne => ?_⟩
  · change (s.resp.word.setWidth 64).toNat = _
    rw [BitVec.toNat_setWidth_of_le (by decide), Resp.word_toNat, hr]
  · obtain ⟨-, hs⟩ := (exec_commanded ht).status.resolve_left fun h => hne (hcause.symm.trans h.1)
    rw [hs, hcause, Cause.statusBit_eq_twoPow]

/-- Settles O57, by what a command, a refused access and a step do to `STATUS`. -/
theorem statusIsStickyAndWriteOneToClear : Obligations.StatusIsStickyAndWriteOneToClear := by
  refine ⟨fun w s t ht hf => ?_, fun s loc => ⟨fun hi => ?_, fun hi d => ⟨s.accessError, ?_, ?_⟩⟩,
    fun s loc hi => ?_, fun s t rest hp ht => ?_, fun s loc d hi => State.hostWrite_mapped d hi nofun,
    fun s t ht => (step_stepped ht).sticky⟩
  · obtain ⟨h1, h8⟩ := Cause.code_pos hf
    exact ⟨h1, h8, execWord_status ht hf⟩
  · rw [State.hostRead_unmapped hi]
    exact s.accessError_bit
  · rcases hi with hi | ⟨item, hi, hr⟩
    · exact State.hostWrite_unmapped d hi
    · exact State.hostWrite_refused d hi hr
  · exact s.accessError_bit
  · rw [State.hostRead_mapped hi]
    exact statusWord_reserved s.status
  · rw [step, s.stepNext_cons hp] at ht
    cases ht
    rfl

/-- Settles O4: with bad tables too, `exec` answers as `Exec` of the word does. -/
theorem stepRunsTheDecodedCommand : Obligations.StepRunsTheDecodedCommand := by
  intro s d rest i hp hi
  rw [step, s.stepNext_cons hp]
  exact (State.hostWrite_cmd _ d).trans (execWord_decoded hi)

/-- Settles O8. The state after the step is written out by `State.powerOn`. -/
theorem hardResetSetsControlState : Obligations.HardResetSetsControlState := by
  intro s rest hp
  refine ⟨(s.setPending rest).hardReset, by rw [step, s.stepNext_cons hp]; rfl, rfl, rfl, rfl, rfl, rfl, rfl, rfl, rfl,
    rfl, rfl, rfl, fun c => ?_⟩
  rw [State.hardReset, State.powerOn_chan]
  exact ⟨rfl, rfl, rfl, rfl, Chan.powerOn_sized _ _ _⟩

/-- Settles O9, the state of `State.reset` being a case of every `State.powerOn`. -/
theorem resetMeetsTheInvariant : Obligations.ResetMeetsTheInvariant :=
  ⟨State.powerOn_inv, State.powerOn_inv _ _ _⟩

/-- Settles O50: table by table. -/
theorem closedFormTablesMeetTheirFormulas : Obligations.ClosedFormTablesMeetTheirFormulas :=
  ⟨Tables.levels_qRange_values.1, Tables.levels_qRange_values.2, Tables.deqScale_nearest, Tables.iRatio_nearest,
    Tables.iRatio_ends.1, Tables.iRatio_ends.2, Tables.quantScale_nearest, Tables.scaleConv_nearest,
    Tables.scaleConv_ends⟩

end Sys2Proof.Machine
end

section
/-! PROOFS. The statements of spec/20_memory.md: the order of accesses, what a host read and a host write change, what a
write leaves to be read back, and the bit cursor. -/

namespace Sys2Proof.Machine

variable {s t : State}

/-! ### The accesses still to come -/

/-- No command takes or adds a host access. -/
theorem Commanded.pending {i : Instr} (h : Commanded s i t) : t.pending = s.pending := by
  cases h with
  | opens _ _ _ | idles _ => simp
  | _ => rfl

/-- No host write takes or adds one. -/
theorem Written.pending {item : Item} (h : Written s item t) : t.pending = s.pending := by
  cases h <;> rfl

theorem State.hostRead_pending (s : State) (loc : Loc) : (s.hostRead loc).pending = s.pending := by
  obtain ⟨d, he | he⟩ := s.hostRead_cases loc <;> rw [he] <;> rfl

/-- A step takes the first pending access, if there is one (R73; log 2). A hard reset too keeps the later ones (log 17). -/
theorem Stepped.pending (h : Stepped s t) : t.pending = s.pending.tail := by
  cases h with
  | rests hp => rw [hp]; rfl
  | resets hp | refuses hp _ | faults hp _ => rw [hp]; rfl
  | reads hp => rw [hp]; exact State.hostRead_pending _ _
  | writes hp _ ht => rw [hp]; exact ht.pending
  | commands hp _ ht => rw [hp]; exact ht.pending

/-! ### The sequencing registers under host writes -/

/-- The registers that only commands and hard reset change (R64): `RUN`, `RESP`, `CMD` and each slot's `FSM` and
`QVALID`. -/
structure SameSequencing (s t : State) : Prop where
  run  : t.run = s.run
  resp : t.resp = s.resp
  cmd  : t.cmd = s.cmd
  slot : ∀ c, (t.chan c).fsm = (s.chan c).fsm ∧ (t.chan c).qvalid = (s.chan c).qvalid

/-- A replaced slot with the old `FSM` and `QVALID` moves no sequencing register. -/
theorem sameSequencing_setChan {c : ChanIx} {k : Chan} (hf : k.fsm = (s.chan c).fsm)
    (hq : k.qvalid = (s.chan c).qvalid) : SameSequencing s (s.setChan c k) :=
  ⟨rfl, rfl, rfl, fun d => ⟨State.setChan_apply Chan.fsm hf d, State.setChan_apply Chan.qvalid hq d⟩⟩

theorem Written.sameSequencing {item : Item} (h : Written s item t) : SameSequencing s t := by
  cases h with
  | refused _ | clears _ _ | configures _ _ _ _ | registers _ _ _ | frame _ _ _ =>
    exact ⟨rfl, rfl, rfl, fun _ => ⟨rfl, rfl⟩⟩
  | couples _ _ _ => exact sameSequencing_setChan rfl rfl
  | data hk _ => exact sameSequencing_setChan hk.fsm hk.qvalid

/-! ### Reading an item of a slot -/

/-- The slot that a read of an item looks into, and what it makes of that slot; `none` for an item that lies in no slot. -/
def Item.slotRead : Item → Option (ChanIx × (Chan → PortWord))
  | .cpl c => some (c, fun k => (k.cpl &&& 0xF3).setWidth 64)
  | .intens c => some (c, fun k => k.intens.setWidth 64)
  | .chstat c => some (c, fun k => k.chstat.setWidth 64)
  | .sf c b => some (c, fun k => (k.sfAt b).setWidth 64)
  | .res c b => some (c, fun k => (k.resAt b).setWidth 64)
  | .q c b => some (c, fun k => (k.q.getD b 0).signExtend 64)
  | .x c b => some (c, fun k => k.xAt b)
  | .t c b => some (c, fun k => k.tAt b)
  | .ov c b => some (c, fun k => k.ovAt b)
  | _ => none

theorem State.readItem_slot {item : Item} {c : ChanIx} {f : Chan → PortWord} (h : item.slotRead = some (c, f)) :
    s.readItem item = f (s.chan c) := by
  cases item <;> cases h <;> rfl

/-- An item outside the slots reads as before when a slot is replaced. -/
theorem State.readItem_setChan_global {item : Item} (h : item.slotRead = none) (c : ChanIx) (k : Chan) :
    (s.setChan c k).readItem item = s.readItem item := by
  cases item with
  | cpl | intens | chstat | sf | res | q | x | t | ov => cases h
  | _ => rfl

/-- An item reads as before when a slot is replaced by one that looks the same to that item. -/
theorem State.readItem_setChan {item : Item} {c : ChanIx} {k : Chan}
    (h : ∀ f, item.slotRead = some (c, f) → f k = f (s.chan c)) : (s.setChan c k).readItem item = s.readItem item := by
  cases hi : item.slotRead with
  | none => exact State.readItem_setChan_global hi c k
  | some x =>
    obtain ⟨d, f⟩ := x
    rw [State.readItem_slot hi, State.readItem_slot hi]
    by_cases hd : d = c
    · subst hd; exact State.setChan_apply f (h f hi) d
    · rw [s.setChan_chan_other k hd]

/-! ### What a host write leaves to be read -/

/-- The index of an element of a slot's buffer. -/
def Item.element : Item → Option Nat
  | .sf _ b | .res _ b | .q _ b | .x _ b | .t _ b | .ov _ b => some b
  | _ => none

/-- A mapped element exists (R32, R62). -/
theorem element_lt_of_itemAt {cfg : Cfg} {loc : Loc} {item : Item} {b : Nat} (h : itemAt cfg loc = some item)
    (hb : item.element = some b) : b < cfg.blockSize := by
  rcases itemAt_cases h with ⟨-, -, hi⟩ | ⟨c, index, hi⟩ | ⟨c, b', hb', hi⟩ | ⟨a, -, rfl⟩
  · unfold itemGlobal at hi
    split at hi <;> cases hi <;> cases hb
  · unfold itemChannel at hi
    split at hi <;> cases hi <;> cases hb
  · simp only [List.mem_cons, List.not_mem_nil, or_false] at hi
    rcases hi with rfl | rfl | rfl | rfl | rfl | rfl <;> cases hb <;> exact hb'
  · cases hb

/-- With no session open a locked register takes the write (R44). -/
theorem State.writeLocked_open (h : s.run = false) (write : State → State) : s.writeLocked write = write s :=
  if_neg (by simp [h])

/-- A write that takes effect is read back as the item's low bits (R63, R64, R66). -/
theorem State.readItem_writeItem_same {item : Item} {d v : PortWord} (hs : ∀ c, (s.chan c).Sized s.blockSize)
    (hb : ∀ b, item.element = some b → b < s.blockSize) (hv : item.readBack d = some v)
    (hl : item.locked = true → s.run = false) : (s.writeItem d item).readItem item = v := by
  cases item with
  | id | paramB | cmd | resp | status | state | chstat => cases hv
  | cfgNch | cfgBands | cfgDir =>
    rw [State.writeItem, State.writeLocked_open (hl rfl)]
    exact Option.some.inj hv
  | cplMode | bcPos | bcLimit => exact Option.some.inj hv
  | cpl c =>
    rw [State.writeItem, State.writeLocked_open (hl rfl), State.readItem, State.setChan_chan_same]
    simpa [BitVec.and_assoc] using Option.some.inj hv
  | intens c =>
    rw [State.writeItem, State.readItem, State.setChan_chan_same]
    exact Option.some.inj hv
  | sf c b | res c b | q c b | x c b | t c b | ov c b =>
    obtain ⟨hsf, hres, hq, hx, ht, hov⟩ := hs c
    have hb : b < s.blockSize := hb b rfl
    rw [State.writeItem, State.readItem, State.setChan_chan_same]
    simpa [Chan.sfAt, Chan.resAt, Chan.xAt, Chan.tAt, Chan.ovAt, *] using Option.some.inj hv
  | fb a =>
    rw [State.writeItem, State.readItem, State.setFbByte_fbByte, if_pos rfl]
    exact Option.some.inj hv

/-- A write that takes effect disturbs no other item (R64). -/
theorem State.readItem_writeItem_other {item other : Item} {d v : PortWord} (hv : item.readBack d = some v)
    (hl : item.locked = true → s.run = false) (h : other ≠ item) :
    (s.writeItem d item).readItem other = s.readItem other := by
  cases item with
  | id | paramB | cmd | resp | status | state | chstat => cases hv
  | cfgNch =>
    rw [State.writeItem, State.writeLocked_open (hl rfl)]
    cases other with | cfgNch => exact absurd rfl h | _ => rfl
  | cfgBands =>
    rw [State.writeItem, State.writeLocked_open (hl rfl)]
    cases other with | cfgBands => exact absurd rfl h | _ => rfl
  | cfgDir =>
    rw [State.writeItem, State.writeLocked_open (hl rfl)]
    cases other with | cfgDir => exact absurd rfl h | _ => rfl
  | cplMode => cases other with | cplMode => exact absurd rfl h | _ => rfl
  | bcPos => cases other with | bcPos => exact absurd rfl h | _ => rfl
  | bcLimit => cases other with | bcLimit => exact absurd rfl h | _ => rfl
  | cpl c =>
    rw [State.writeItem, State.writeLocked_open (hl rfl)]
    refine State.readItem_setChan fun f hf => ?_
    cases other with | cpl => cases hf; exact absurd rfl h | _ => cases hf <;> rfl
  | intens c =>
    refine State.readItem_setChan fun f hf => ?_
    cases other with | intens => cases hf; exact absurd rfl h | _ => cases hf <;> rfl
  | sf c b | res c b | q c b | x c b | t c b | ov c b =>
    -- an item of another kind looks at another field of the slot, one of the same kind at another index
    refine State.readItem_setChan fun f hf => ?_
    cases other <;> cases hf <;>
      simp_all [Chan.sfAt, Chan.resAt, Chan.xAt, Chan.tAt, Chan.ovAt, Chan.chstat, List.getElem?_set_ne, Ne.symm]
  | fb a =>
    cases other with
    | fb a' =>
      rw [State.writeItem, State.readItem, State.setFbByte_fbByte, if_neg (by rintro rfl; exact h rfl)]
      rfl
    | _ => rfl

/-! ### The bit cursor -/

/-- A frame bit as a number: the bit of weight `7 - p mod 8` of its byte (R68). -/
theorem State.frameBit_toNat (s : State) (p : Nat) :
    (s.frameBit p).toNat = (s.fbByte (p / 8)).toNat / 2 ^ (7 - p % 8) % 2 :=
  Nat.toNat_testBit _ _

end Sys2Proof.Machine

namespace Sys2Proof.Code

/-- A string of `n` bits as a number: bit `i` has weight `2^(n-1-i)`. -/
theorem natOf_map_range (bit : Nat → Bool) (n : Nat) :
    natOf ((List.range n).map bit) = ∑ i ∈ Finset.range n, (bit i).toNat * 2 ^ (n - 1 - i) := by
  induction n with
  | zero => rfl
  | succ n ih =>
    have hdouble : ∀ i ∈ Finset.range n, 2 * ((bit i).toNat * 2 ^ (n - 1 - i)) = (bit i).toNat * 2 ^ (n - i) := by
      intro i hi
      have hi := Finset.mem_range.1 hi
      rw [mul_left_comm, ← Nat.pow_succ', show (n - 1 - i).succ = n - i by omega]
    rw [List.range_succ, List.map_append, List.map_singleton, natOf_append, ih, Finset.mul_sum,
      Finset.sum_congr rfl hdouble, Finset.sum_range_succ]
    simp

end Sys2Proof.Code

namespace Sys2Proof.Machine

/-- Settles O6, by what a step does to the pending accesses. -/
theorem stepTakesAccessesInOrder : Obligations.StepTakesAccessesInOrder := by
  refine ⟨fun s hp => s.stepNext_nil hp, fun s t a rest hp ht => ?_⟩
  rw [(step_stepped ht).pending, hp]
  rfl

/-- Settles O52: the written item and every other one, each by its rule for `writeItem`. -/
theorem hostWriteIsReadBack : Obligations.HostWriteIsReadBack := by
  intro s loc d v item hs hi hv hl
  have hc : item ≠ .cmd := by rintro rfl; cases hv
  refine ⟨s.writeItem d item, State.hostWrite_mapped d hi hc, ?_, fun other => State.readItem_writeItem_other hv hl⟩
  have hi' : itemAt (s.writeItem d item).cfg loc = some item := by rw [(writeItem_written s d item hc).cfg, hi]
  rw [State.hostRead_mapped hi']
  exact State.readItem_writeItem_same hs (fun _ => element_lt_of_itemAt hi) hv hl

/-- Settles O58: what a write can do (`Written`) moves no sequencing register. -/
theorem dataWritesLeaveSequencing : Obligations.DataWritesLeaveSequencing := by
  intro s t loc d hc ht
  have hsame : SameSequencing s t := by
    cases hi : itemAt s.cfg loc with
    | none =>
      cases (State.hostWrite_unmapped d hi).symm.trans ht
      exact ⟨rfl, rfl, rfl, fun _ => ⟨rfl, rfl⟩⟩
    | some item =>
      have hc : item ≠ .cmd := fun h => hc (h ▸ hi)
      cases (State.hostWrite_mapped d hi hc).symm.trans ht
      exact (writeItem_written s d item hc).sameSequencing
  exact ⟨hsame.run, hsame.resp, hsame.cmd, hsame.slot⟩

/-- Settles O59: the bit string as a number, and each frame bit as one. -/
theorem bitReadIsBigEndian : Obligations.BitReadIsBigEndian := by
  intro s p n _
  rw [State.bitRead, Code.natOf_map_range]
  simp only [State.frameBit_toNat]

/-- Settles O60: the field is the bit string of `v`, stored bit by bit. -/
theorem bitWriteStoresTheField : Obligations.BitWriteStoresTheField := by
  intro s p n v _ _
  refine ⟨fun j => ?_, congrArg (fun t : State => { t with fb := s.fb }) (s.writeBits_fb p (Code.bitsOf n v))⟩
  rw [State.bitWrite, State.writeBits_frameBit, Code.bitsOf_length]
  split
  · next hj => exact Code.bitsOf_getD n v (j - p) (by omega)
  · rfl

/-- Settles O53, by the rules of the port for refused accesses. -/
theorem refusedAccessOnlySetsAccerr : Obligations.RefusedAccessOnlySetsAccerr :=
  fun _ _ => ⟨fun hi => ⟨State.hostRead_unmapped hi, fun d => State.hostWrite_unmapped d hi⟩,
    fun _ hi hr d => State.hostWrite_refused d hi hr⟩

/-- Settles O54: a read changes the port's datum, and `ACCERR` where the location is unmapped. -/
theorem hostReadHasNoSideEffect : Obligations.HostReadHasNoSideEffect := by
  refine fun s loc => ⟨fun item hi => ?_, fun hi => ?_⟩
  · rw [State.hostRead_mapped hi]; rfl
  · rw [State.hostRead_unmapped hi]; rfl

end Sys2Proof.Machine
end

section
/-! PROOFS. The statements of spec/30_encoding.md about command words: the fields of a word, what decodes, and the rows
of the opcode table. -/

namespace Sys2Proof

/-! ### The fields of a word -/

/-- Appended bit strings agree exactly when both parts do. -/
theorem append_eq_append_iff {m n : Nat} {a c : BitVec m} {b d : BitVec n} : a ++ b = c ++ d ↔ a = c ∧ b = d := by
  refine ⟨fun h => ⟨?_, ?_⟩, fun ⟨ha, hb⟩ => ha ▸ hb ▸ rfl⟩
  · simpa only [BitVec.extractLsb'_append_eq_left] using congrArg (BitVec.extractLsb' n m) h
  · simpa only [BitVec.extractLsb'_append_eq_right] using congrArg (BitVec.extractLsb' 0 n) h

/-- A word is its opcode byte, then bits 23:0 (format N of R90). -/
theorem word_eq_opcode_low (w : Word) : w = opcodeOf w ++ w.extractLsb' 0 24 :=
  BitVec.extractLsb'_eq_self.symm.trans
    (BitVec.extractLsb'_append_extractLsb'_eq_extractLsb' (start₁ := 0) (len₂ := 8) (Nat.zero_add 24).symm).symm

/-- Bits 23:0 are bits 23:4, then the channel field (format C of R90). -/
theorem low_eq_middle_channel (w : Word) : w.extractLsb' 0 24 = w.extractLsb' 4 20 ++ w.extractLsb' 0 4 :=
  (BitVec.extractLsb'_append_extractLsb'_eq_extractLsb' (start₁ := 0) (len₂ := 20) (Nat.zero_add 4).symm).symm

/-- The fields of `w` are those of the command `i`: the opcode byte, the channel operand, zeros elsewhere (R90, R91). -/
def HasFields (w : Word) (i : Instr) : Prop :=
  opcodeOf w = opcode i ∧
  match i.operand with
  | none => w.extractLsb' 0 24 = 0
  | some c => w.extractLsb' 4 20 = 0 ∧ w.extractLsb' 0 4 = c

theorem hasFields_none {w : Word} {i : Instr} (h : i.operand = none) :
    HasFields w i ↔ opcodeOf w = opcode i ∧ w.extractLsb' 0 24 = 0 := by
  rw [HasFields, h]

theorem hasFields_some {w : Word} {i : Instr} {c : ChanIx} (h : i.operand = some c) :
    HasFields w i ↔ opcodeOf w = opcode i ∧ w.extractLsb' 4 20 = 0 ∧ w.extractLsb' 0 4 = c := by
  rw [HasFields, h]

theorem encode_none {i : Instr} (h : i.operand = none) : encode i = opcode i ++ 0#24 := by
  simp only [encode, h]
  rfl

theorem encode_some {i : Instr} {c : ChanIx} (h : i.operand = some c) : encode i = opcode i ++ (0#20 ++ c) := by
  simp only [encode, h]
  exact BitVec.append_assoc

/-- A word has the fields of a command exactly when it is that command's word. -/
theorem eq_encode_iff (w : Word) (i : Instr) : w = encode i ↔ HasFields w i := by
  conv_lhs => rw [word_eq_opcode_low w]
  cases h : i.operand with
  | none => rw [encode_none h, append_eq_append_iff, hasFields_none h]; rfl
  | some c =>
    rw [encode_some h, low_eq_middle_channel, append_eq_append_iff, append_eq_append_iff, hasFields_some h]
    rfl

/-! ### Decoding -/

theorem decodeN_ok_iff {w : Word} {i j : Instr} : decodeN w j = .ok i ↔ w.extractLsb' 0 24 = 0 ∧ j = i := by
  by_cases hz : w.extractLsb' 0 24 = 0
  · rw [decodeN, if_pos hz, Except.ok.injEq, and_iff_right hz]
  · rw [decodeN, if_neg hz]
    exact iff_of_false nofun fun h => hz h.1

theorem decodeC_ok_iff {w : Word} {f : ChanIx → Instr} {i : Instr} :
    decodeC w f = .ok i ↔ w.extractLsb' 4 20 = 0 ∧ f (w.extractLsb' 0 4) = i := by
  by_cases hz : w.extractLsb' 4 20 = 0
  · rw [decodeC, if_pos hz, Except.ok.injEq, and_iff_right hz]
  · rw [decodeC, if_neg hz]
    exact iff_of_false nofun fun h => hz h.1

/-- A word that decodes has the fields of its command: the arms of R95, four of format N, ten of format C. -/
theorem hasFields_of_decode {w : Word} {i : Instr} (h : decode w = .ok i) : HasFields w i := by
  unfold decode at h
  split at h
  iterate 4
    · next hop =>
      obtain ⟨hz, rfl⟩ := decodeN_ok_iff.1 h
      exact ⟨BitVec.eq_of_toNat_eq hop, hz⟩
  iterate 10
    · next hop =>
      obtain ⟨hz, rfl⟩ := decodeC_ok_iff.1 h
      exact ⟨BitVec.eq_of_toNat_eq hop, hz, rfl⟩
  · cases h

/-- A word with the fields of a command decodes to it: its opcode selects the arm. -/
theorem decode_of_hasFields {w : Word} {i : Instr} (h : HasFields w i) : decode w = .ok i := by
  cases i with
  | nop | start | stop | abort =>
    obtain ⟨hop, hz⟩ := h
    rw [decode, hop]
    exact decodeN_ok_iff.2 ⟨hz, rfl⟩
  | _ c =>
    obtain ⟨hop, hz, rfl⟩ := h
    rw [decode, hop]
    exact decodeC_ok_iff.2 ⟨hz, rfl⟩

/-- A word decodes to a command exactly when it has that command's fields (R95). -/
theorem decode_ok_iff {w : Word} {i : Instr} : decode w = .ok i ↔ HasFields w i :=
  ⟨hasFields_of_decode, decode_of_hasFields⟩

/-- The word of a command decodes to it. -/
theorem decode_encode (i : Instr) : decode (encode i) = .ok i :=
  decode_ok_iff.2 ((eq_encode_iff _ i).1 rfl)

/-- Settles O2: both sides say that the word has the command's fields. -/
theorem decodeAndEncodeAreInverse : Obligations.DecodeAndEncodeAreInverse :=
  fun w i => decode_ok_iff.trans (eq_encode_iff w i).symm

/-- Settles O1: the legal words are encodings, the others end in the refusing branch of their arm. -/
theorem decodesWordsOfTheOpcodeMap : Obligations.DecodesWordsOfTheOpcodeMap :=
  ⟨decode_encode .start, decode_encode (.pack 5), decode_encode (.isenc 10), decode_encode (.imdct 1),
    decode_encode (.imdct 15), rfl, rfl, rfl, rfl⟩

end Sys2Proof

namespace Sys2Proof.Machine

/-! ### The opcode map -/

/-- The commands of format N, in the order of R92. -/
def plainCommands : List Instr := [.nop, .start, .stop, .abort]

/-- The commands of format C with the operand `c`, in the order of R92. -/
def channelCommands (c : ChanIx) : List Instr :=
  [.unpack c, .deq c, .quant c, .pack c, .isdec c, .isenc c, .load c, .imdct c, .mdct c, .rel c]

theorem mem_plainCommands {i : Instr} : i ∈ plainCommands ↔ i.operand = none := by
  cases i <;> simp [plainCommands, Instr.operand]

theorem mem_channelCommands {i : Instr} {c : ChanIx} : i ∈ channelCommands c ↔ i.operand = some c := by
  cases i <;> simp [channelCommands, Instr.operand]

theorem formatN_eq_map : formatN = plainCommands.map opcode := rfl

theorem formatC_eq_map (c : ChanIx) : formatC = (channelCommands c).map opcode := rfl

/-- No opcode is of both formats. -/
theorem not_mem_formatC_of_formatN : ∀ op ∈ formatN, op ∉ formatC := by decide

/-- Some command has the opcode, the must-be-zero bits being 0: what both the decoder and the opcode table accept. -/
def IsCommandWord (w : Word) : Prop :=
  (opcodeOf w ∈ formatN ∧ w.extractLsb' 0 24 = 0) ∨ (opcodeOf w ∈ formatC ∧ w.extractLsb' 4 20 = 0)

/-- A word decodes exactly when its opcode is in the map of R92 and its must-be-zero bits are 0. -/
theorem exists_decode_iff (w : Word) : (∃ i, decode w = .ok i) ↔ IsCommandWord w := by
  simp only [decode_ok_iff, IsCommandWord]
  constructor
  · rintro ⟨i, hi⟩
    cases ho : i.operand with
    | none =>
      obtain ⟨hop, hz⟩ := (hasFields_none ho).1 hi
      exact .inl ⟨hop ▸ formatN_eq_map ▸ List.mem_map_of_mem (mem_plainCommands.2 ho), hz⟩
    | some c =>
      obtain ⟨hop, hz, -⟩ := (hasFields_some ho).1 hi
      exact .inr ⟨hop ▸ formatC_eq_map c ▸ List.mem_map_of_mem (mem_channelCommands.2 ho), hz⟩
  · rintro (⟨hop, hz⟩ | ⟨hop, hz⟩)
    · obtain ⟨i, hi, hop⟩ := List.mem_map.1 (formatN_eq_map ▸ hop)
      exact ⟨i, (hasFields_none (mem_plainCommands.1 hi)).2 ⟨hop.symm, hz⟩⟩
    · obtain ⟨i, hi, hop⟩ := List.mem_map.1 (formatC_eq_map (w.extractLsb' 0 4) ▸ hop)
      exact ⟨i, (hasFields_some (mem_channelCommands.1 hi)).2 ⟨hop.symm, hz, rfl⟩⟩

/-! ### The opcode table -/

/-- Masks and match values of the opcode table: format N tests every bit, format C all but the channel field. -/
theorem opRows_masks : opRows.map (fun r => (r.mask, r.pattern)) =
    formatN.map (fun op => (0xFFFFFFFF#32, op ++ 0#24)) ++ formatC.map (fun op => (0xFFFFFFF0#32, op ++ 0#24)) := rfl

/-- A word is of a row of format N when it has the row's opcode and then zeros. -/
theorem and_maskN_eq_iff (w : Word) (op : BitVec 8) :
    w &&& 0xFFFFFFFF#32 = op ++ 0#24 ↔ opcodeOf w = op ∧ w.extractLsb' 0 24 = 0 := by
  conv_lhs => rw [show 0xFFFFFFFF#32 = BitVec.allOnes 32 from rfl, BitVec.and_allOnes, word_eq_opcode_low w]
  exact append_eq_append_iff

/-- A word is of a row of format C when it has the row's opcode and then zeros up to the channel field. -/
theorem and_maskC_eq_iff (w : Word) (op : BitVec 8) :
    w &&& 0xFFFFFFF0#32 = op ++ 0#24 ↔ opcodeOf w = op ∧ w.extractLsb' 4 20 = 0 := by
  conv_lhs =>
    rw [show 0xFFFFFFF0#32 = BitVec.allOnes 8 ++ (BitVec.allOnes 20 ++ 0#4) from rfl,
      show 0#24 = 0#20 ++ 0#4 from rfl, word_eq_opcode_low w, low_eq_middle_channel, BitVec.and_append,
      BitVec.and_append, BitVec.and_allOnes, BitVec.and_allOnes, BitVec.and_zero]
  rw [append_eq_append_iff, append_eq_append_iff, and_iff_left rfl]
  rfl

/-- The rows of the opcode table accept the command words. -/
theorem legalWord_iff (w : Word) : legalWord w = true ↔ IsCommandWord w := by
  have hrows : legalWord w = (opRows.map fun r => (r.mask, r.pattern)).any fun x => w &&& x.1 == x.2 := by
    rw [List.any_map]; rfl
  rw [hrows, opRows_masks]
  simp [and_maskN_eq_iff, and_maskC_eq_iff, IsCommandWord]

/-- An illegal word raises `IllegalCommand` and changes nothing else (R93). -/
theorem execWord_illegal {w : Word} {s : State} (ht : s.cfg.tablesOk = true) (h : ¬ ∃ i, decode w = .ok i) :
    Raises s ⟨.illegalCommand, w.extractLsb' 16 16⟩ (execWord w s) := by
  cases hd : decode w with
  | ok i => exact absurd ⟨i, hd⟩ h
  | error e => simp only [execWord, ht, hd]; rfl

/-- Settles O3: decoder and table accept the same words, and no opcode is of both formats. -/
theorem illegalWordsAreThoseOfNoRow : Obligations.IllegalWordsAreThoseOfNoRow := by
  intro w
  have hdecode : legalWord w = true ↔ ∃ i, decode w = .ok i := (legalWord_iff w).trans (exists_decode_iff w).symm
  refine ⟨hdecode, ?_, fun s ht hl => execWord_illegal ht fun hi => ?_⟩
  · have hdisjoint := not_mem_formatC_of_formatN (opcodeOf w)
    rw [← Bool.not_eq_true, legalWord_iff, IsCommandWord]
    tauto
  · exact Bool.false_ne_true (hl.symm.trans (hdecode.2 hi))

end Sys2Proof.Machine
end

section
/-! PROOFS. The reference code of R99 and R100: its words, from which W1, W2, W5 and the greatest lengths follow, and
its values. -/

namespace Sys2Proof.Code

/-! ### Bit strings and prefixes -/

/-- The bits of a number are those of its high part, then the low ones. -/
theorem bitsOf_add (n d v : Nat) : bitsOf (n + d) v = bitsOf n (v / 2 ^ d) ++ bitsOf d v := by
  simp only [bitsOf, List.range_add, List.map_append, List.map_map]
  congr 1
  · refine List.map_congr_left fun i hi => ?_
    rw [Nat.testBit_div_two_pow]
    congr 1
    have := List.mem_range.1 hi
    omega
  · refine List.map_congr_left fun i _ => ?_
    rw [Function.comp_apply]
    congr 1
    omega

theorem natOf_bitsOf (n v : Nat) : natOf (bitsOf n v) = v % 2 ^ n := by
  induction n generalizing v with
  | zero => exact (Nat.mod_one v).symm
  | succ n ih =>
    have hbit : bitsOf 1 v = [v.testBit 0] := rfl
    rw [bitsOf_add, hbit, natOf_append, ih, Nat.pow_one, Nat.toNat_testBit, Nat.pow_zero, Nat.div_one, Nat.pow_succ',
      Nat.mod_mul, Nat.add_comm]

/-- A bit string that begins another one is its high part. -/
theorem eq_of_bitsOf_prefix {n d u v : Nat} (h : bitsOf n u <+: bitsOf (n + d) v) (hu : u < 2 ^ n)
    (hv : v < 2 ^ (n + d)) : u = v / 2 ^ d := by
  have hhigh : bitsOf n (v / 2 ^ d) <+: bitsOf (n + d) v := ⟨_, (bitsOf_add n d v).symm⟩
  have heq : bitsOf n u = bitsOf n (v / 2 ^ d) :=
    (List.prefix_of_prefix_length_le h hhigh (by simp)).eq_of_length (by simp)
  have hlt : v / 2 ^ d < 2 ^ n := Nat.div_lt_of_lt_mul (by rwa [← Nat.pow_add, Nat.add_comm])
  simpa only [natOf_bitsOf, Nat.mod_eq_of_lt, hu, hlt] using congrArg natOf heq

/-- Different numbers in `n` bits: neither bit string begins the other. -/
theorem not_bitsOf_prefix {n u v : Nat} (h : u < v) (hv : v < 2 ^ n) :
    ¬ bitsOf n u <+: bitsOf n v ∧ ¬ bitsOf n v <+: bitsOf n u :=
  ⟨fun hp => by simpa [h.ne] using eq_of_bitsOf_prefix (d := 0) hp (h.trans hv) hv,
    fun hp => by simpa [h.ne'] using eq_of_bitsOf_prefix (d := 0) hp hv (h.trans hv)⟩

/-! ### Tables by their words -/

/-- W1 is a property of the words alone. -/
theorem w1_iff_words (table : List CodeRow) : W1 table ↔ (∀ w ∈ table.map (·.word), w ≠ []) ∧
    (table.map (·.word)).Pairwise fun w w' => ¬ w <+: w' ∧ ¬ w' <+: w := by
  rw [W1, List.forall_mem_map, List.pairwise_map]

/-- The words of the reference code for r = 8 to 15 (R100): `k` zeros, and the numbers from 2 on in `k + 1` bits. -/
theorem referenceLarge_words (k q : Nat) : (referenceLarge (k + 1) q).map (·.word) =
    bitsOf k 0 :: (List.range' 2 (2 * q)).map (bitsOf (k + 1)) := by
  rw [referenceLarge, List.map_cons]
  congr 1
  induction q with
  | zero => rfl
  | succ q ih =>
    rw [List.range_succ, List.flatMap_append, List.map_append, ih, Nat.mul_succ, ← List.range'_append,
      List.map_append]
    simp [signedRows, row, List.range'_succ, Nat.mul_add, Nat.add_comm]

theorem referenceLarge_lengths (k q : Nat) : (referenceLarge (k + 1) q).map (·.word.length) =
    k :: List.replicate (2 * q) (k + 1) := by
  have h := congrArg (List.map List.length) (referenceLarge_words k q)
  simpa [Function.comp_def] using h

/-! ### The reference code for r = 8 to 15 -/

/-- The greatest length is `MAXBITS[r]` of R100, if there is a row with a value other than 0. -/
theorem referenceLarge_maxLength {k q : Nat} (hq : 1 ≤ q) :
    ((referenceLarge (k + 1) q).map (·.word.length)).foldl max 0 = k + 1 := by
  have hne : 2 * q ≠ 0 := by omega
  rw [referenceLarge_lengths, List.foldl_cons, List.foldl_max, List.max?_replicate, if_neg hne]
  simp

/-- W1: the numbers from 2 to `2^(k+1) - 1` in `k + 1` bits differ, and none begins with `k` zeros. -/
theorem referenceLarge_w1 {k q : Nat} (hk : 1 ≤ k) (hq : q + 1 = 2 ^ k) : W1 (referenceLarge (k + 1) q) := by
  have hrange : ∀ v ∈ List.range' 2 (2 * q), 2 ≤ v ∧ v < 2 ^ (k + 1) := by
    intro v hv
    rw [List.mem_range'_1] at hv
    omega
  rw [w1_iff_words, referenceLarge_words, List.forall_mem_cons, List.forall_mem_map, List.pairwise_cons,
    List.forall_mem_map, List.pairwise_map]
  refine ⟨⟨List.ne_nil_of_length_pos (by rwa [bitsOf_length]), fun v _ => List.ne_nil_of_length_pos (by simp)⟩,
    fun v hv => ⟨fun hp => ?_, fun hp => ?_⟩, ?_⟩
  · have hzero := eq_of_bitsOf_prefix (d := 1) hp (Nat.two_pow_pos k) (hrange v hv).2
    have := (hrange v hv).1
    omega
  · simpa using hp.length_le
  · exact (List.pairwise_lt_range' 1).imp_of_mem fun _ hv huv => not_bitsOf_prefix huv (hrange _ hv).2

/-- W2: one word of `k` bits weighs 2, the other `2q` weigh 1 each. -/
theorem referenceLarge_w2 {k q : Nat} (hq : q + 1 = 2 ^ k) : W2 (referenceLarge (k + 1) q) (k + 1) := by
  have hweights : (referenceLarge (k + 1) q).map (fun x => 2 ^ (k + 1 - x.word.length)) =
      2 :: List.replicate (2 * q) 1 := by
    have h := congrArg (List.map fun n => 2 ^ (k + 1 - n)) (referenceLarge_lengths k q)
    simpa [Function.comp_def] using h
  rw [W2, hweights, List.sum_cons, List.sum_replicate, smul_eq_mul]
  omega

/-- W3: there are as many rows as integers in `-q .. q`, and each integer has a row. -/
theorem referenceLarge_w3 (k q : Nat) : W3 (referenceLarge (k + 1) q) q := by
  have hlength : (referenceLarge (k + 1) q).length = (interval q).length := by
    have h := congrArg List.length (referenceLarge_lengths k q)
    simpa [interval] using h
  have hsub : interval q ⊆ (referenceLarge (k + 1) q).map (·.value) := by
    intro v hv
    rw [mem_interval] at hv
    simp only [referenceLarge, signedRows, row, List.map_cons, List.map_flatMap, List.map_nil, List.mem_cons,
      List.mem_flatMap, List.mem_range, List.not_mem_nil, or_false]
    by_cases h0 : v = 0
    · exact .inl h0
    · exact .inr ⟨v.natAbs - 1, by omega, by omega⟩
  exact (((interval_nodup q).subperm hsub).perm_of_length_le (by rw [List.length_map, hlength])).symm

theorem referenceLarge_w5 {k : Nat} (hk : k < 32) (q : Nat) : W5 (referenceLarge (k + 1) q) := by
  have h : ∀ n ∈ (referenceLarge (k + 1) q).map (·.word.length), n ≤ 32 := by
    rw [referenceLarge_lengths, List.forall_mem_cons]
    exact ⟨hk.le, fun n hn => (List.eq_of_mem_replicate hn).trans_le hk⟩
  exact List.forall_mem_map.1 h

/-! ### The reference code by resolution -/

/-- Range and rows for r = 8 to 15: the range is `2^(r-4) - 1`. -/
theorem rows_reference_large {r : Nat} (h8 : 8 ≤ r) (h16 : r < 16) : ∃ k q, r = k + 4 ∧ q + 1 = 2 ^ k ∧
    Tables.qRange r = q ∧ rows .reference r = referenceLarge (k + 1) q := by
  obtain ⟨k, rfl⟩ := Nat.exists_eq_add_of_le' (show 4 ≤ r by omega)
  refine ⟨k, Tables.qRange (k + 4), rfl, ?_, rfl, ?_⟩
  · have hlevels : Tables.levels (k + 4) = 2 ^ (k + 1) - 1 := if_neg (by omega)
    have := Nat.two_pow_pos k
    rw [Tables.qRange, hlevels]
    omega
  · have hlarge : reference (k + 4) = referenceLarge (k + 4 - 3) (Tables.qRange (k + 4)) := by
      rw [reference, if_neg (by omega), if_pos h16]
    exact hlarge

theorem maxBits_reference_large {r : Nat} (h8 : 8 ≤ r) (h16 : r < 16) : maxBits .reference r = r - 3 := by
  obtain ⟨k, q, rfl, hq, -, hrows⟩ := rows_reference_large h8 h16
  have hpos : 2 ≤ 2 ^ k := Nat.le_self_pow (by omega) 2
  rw [maxBits, hrows, referenceLarge_maxLength (by omega)]
  omega

/-- The reference code of R100 is well-formed. -/
theorem wfTable_reference_large {r : Nat} (h8 : 8 ≤ r) (h16 : r < 16) : WfTable .reference r := by
  have hmax := maxBits_reference_large h8 h16
  obtain ⟨k, q, rfl, hq, hrange, hrows⟩ := rows_reference_large h8 h16
  rw [WfTable, hmax, hrange, hrows]
  exact ⟨referenceLarge_w1 (by omega) hq, referenceLarge_w2 hq, referenceLarge_w3 k q,
    referenceLarge_w5 (by omega) q⟩

/-- The seven written-out tables of R99 are well-formed. -/
theorem wfTable_reference_small : ∀ r ∈ List.range' 1 7, WfTable .reference r := by decide +kernel

theorem maxBits_reference_small : (List.range 8).map (maxBits .reference) = [0, 2, 3, 3, 4, 4, 4, 4] := by decide

/-- Settles O51: the written-out tables of R99 by evaluation, those of R100 by their construction. -/
theorem referenceCodeIsWellFormed : Obligations.ReferenceCodeIsWellFormed := by
  refine ⟨fun r hr => ?_, ?_⟩
  · rw [List.mem_range'_1] at hr
    by_cases h8 : r < 8
    · exact wfTable_reference_small r (List.mem_range'_1.2 ⟨hr.1, h8⟩)
    · exact wfTable_reference_large (Nat.not_lt.1 h8) hr.2
  · have hlarge : (List.range' 8 8).map (maxBits .reference) = (List.range' 8 8).map (· - 3) :=
      List.map_congr_left fun r hr => by
        rw [List.mem_range'_1] at hr
        exact maxBits_reference_large hr.1 hr.2
    rw [show List.range 16 = List.range 8 ++ List.range' 8 8 from rfl, List.map_append, maxBits_reference_small, hlarge]
    rfl

end Sys2Proof.Code
end

section
/-! PROOFS. The statements of spec/40_system.md: `NOP`, `START`, `STOP` and `ABORT`, their checks and their effects. -/

namespace Sys2Proof.Machine

variable {s : State}

/-! ### A command behind its checks -/

/-- With good tables and no check raising, a command completes its effect (R120). -/
theorem State.command_ok {checks : List (Option Resp)} {body : State → State} (ht : s.cfg.tablesOk = true)
    (hc : firstFault checks = none) : s.command checks body = .next (body s).complete := by
  rw [State.command, s.guarded_ok ht hc]

/-- With good tables, a command raises the first fault of its checks (R120, R183). -/
theorem State.command_raises {checks : List (Option Resp)} {body : State → State} {r : Resp}
    (ht : s.cfg.tablesOk = true) (hc : firstFault checks = some r) : Raises s r (s.command checks body) := by
  rw [State.command, s.guarded_fault ht hc]
  rfl

/-- The check of `STOP` and `ABORT` raises with no session open (R123, R124). -/
theorem firstFault_needRun_closed (hrun : s.run = false) : firstFault [s.needRun] = some (sequenceError 1) := by
  rw [s.needRun_some hrun, firstFault_some]

theorem firstFault_needRun_open (hrun : s.run = true) : firstFault [s.needRun] = none := by
  rw [s.needRun_none.2 hrun, firstFault_none, firstFault_nil]

/-! ### The checks of START -/

/-- `pairingOk` computes the consistency that (I-c) asks of a channel (R57, R122). -/
theorem State.pairingOk_iff_paired (c : ChanIx) : s.pairingOk c = true ↔ (s.chan c).role = 0 ∨ s.Paired c :=
  s.pairingOk_iff c

/-- The pairing check reports the lowest channel of the session whose pairing is wrong (R122). -/
theorem State.pairingFault_lowest {c : ChanIx} (hc : c.toNat < s.cfgNch.toNat) (hbad : ¬ s.pairingOk c = true)
    (hlow : ∀ d : ChanIx, d.toNat < c.toNat → s.pairingOk d = true) :
    s.pairingFault = some ⟨.invalidConfiguration, BitVec.ofNat 16 (3 + 256 * c.toNat)⟩ := by
  have hfirst : firstIndex s.cfgNch.toNat (fun n => !s.pairingOk (BitVec.ofNat 4 n)) = some c.toNat := by
    refine (firstIndex_eq_some _ _ _).2 ⟨hc, by simpa using hbad, fun n hn => ?_⟩
    have hn4 : (BitVec.ofNat 4 n).toNat = n := Nat.mod_eq_of_lt (hn.trans c.isLt)
    rw [hlow (BitVec.ofNat 4 n) (by rwa [hn4]), Bool.not_true]
  rw [State.pairingFault, hfirst, Option.map_some]

/-- With no session open and consistent parameters, no check of `START` raises (the converse of
`startChecks_consistent`). -/
theorem State.Consistent.startChecks (h : s.Consistent) (hrun : s.run = false) : firstFault s.startChecks = none := by
  obtain ⟨h1, h16, hb, hB⟩ := h.counts
  refine s.startChecks_none.2 ⟨hrun, ⟨h1, h16⟩, ⟨hb, hB⟩, s.pairingFault_none.2 fun n hn => ?_⟩
  have hn4 : (BitVec.ofNat 4 n).toNat = n := Nat.mod_eq_of_lt (hn.trans_le h16)
  exact (State.pairingOk_iff_paired _).2 (h.pairing _ (by rwa [hn4]))

theorem State.startChecks_open (hrun : s.run = true) : firstFault s.startChecks = some (sequenceError 1) := by
  simp [State.startChecks, hrun]

theorem State.startChecks_badChannelCount (hrun : s.run = false) (hn : s.cfgNch.toNat < 1 ∨ 16 < s.cfgNch.toNat) :
    firstFault s.startChecks = some ⟨.invalidConfiguration, 1⟩ := by
  have hbad : ¬ (1 ≤ s.cfgNch.toNat ∧ s.cfgNch.toNat ≤ 16) := by omega
  simp [State.startChecks, hrun, decide_eq_false hbad]

theorem State.startChecks_badBandCount (hrun : s.run = false) (hn : 1 ≤ s.cfgNch.toNat ∧ s.cfgNch.toNat ≤ 16)
    (hb : s.bands < 1 ∨ s.blockSize < s.bands) :
    firstFault s.startChecks = some ⟨.invalidConfiguration, 2⟩ := by
  have hbad : ¬ (1 ≤ s.bands ∧ s.bands ≤ s.blockSize) := by omega
  simp [State.startChecks, hrun, decide_eq_true hn, decide_eq_false hbad]

/-- With legal counts, the pairing check decides (R122). -/
theorem State.startChecks_pairing (hrun : s.run = false) (hn : 1 ≤ s.cfgNch.toNat ∧ s.cfgNch.toNat ≤ 16)
    (hb : 1 ≤ s.bands ∧ s.bands ≤ s.blockSize) {r : Resp} (hp : s.pairingFault = some r) :
    firstFault s.startChecks = some r := by
  simp [State.startChecks, hrun, decide_eq_true hn, decide_eq_true hb, hp]

/-! ### Opening, closing and abandoning -/

/-- The frame of `START`, `STOP` and `ABORT` (R122 to R124): `f` is what becomes of every slot, `RUN` may change, all
else is as before, and `RESP` is 0. -/
structure SlotsFrame (f : Chan → Chan) (s t : State) : Prop where
  chans   : ∀ c, t.chan c = f (s.chan c)
  control : SameControl s { t with run := s.run }
  bytes   : SameFrameBytes s t
  bcPos   : t.bcPos = s.bcPos
  status  : t.status = s.status
  resp    : t.resp = ⟨.success, 0⟩

theorem slotsFrame_mapChans (s : State) (f : Chan → Chan) : SlotsFrame f s (s.mapChans f).complete where
  chans := by simp
  control := by constructor <;> simp
  bytes _ := by simp
  bcPos := by simp
  status := by simp
  resp := by simp

theorem SlotsFrame.setRun {t : State} {f : Chan → Chan} (h : SlotsFrame f s t) (b : Bool) :
    SlotsFrame f s (t.setRun b) :=
  { h with }

theorem SlotsFrame.sameControl {t : State} {f : Chan → Chan} (h : SlotsFrame f s t) (hrun : t.run = s.run) :
    SameControl s t :=
  { h.control with run := hrun }

/-- Settles O19: the checks of `START` in their order, the lowest wrong pairing last. -/
theorem startRejectsBadConfigurations : Obligations.StartRejectsBadConfigurations := by
  intro s ht
  refine ⟨fun hrun => State.command_raises ht (State.startChecks_open hrun), fun hrun =>
    ⟨fun hn => State.command_raises ht (State.startChecks_badChannelCount hrun hn), fun h1 h16 =>
      ⟨fun hb => State.command_raises ht (State.startChecks_badBandCount hrun ⟨h1, h16⟩ hb), ?_⟩⟩⟩
  intro hb hB c hc hbad hlow
  have hfault := State.pairingFault_lowest hc (fun hok => hbad ((State.pairingOk_iff_paired c).1 hok))
    fun d hd => (State.pairingOk_iff_paired d).2 (hlow d hd)
  exact State.command_raises ht (State.startChecks_pairing hrun ⟨h1, h16⟩ ⟨hb, hB⟩ hfault)

/-- Settles O17: `NOP` has no check but that of the tables. -/
theorem nopOnlyClearsResp : Obligations.NopOnlyClearsResp :=
  ⟨rfl, fun _ => ⟨fun ht => State.command_ok ht firstFault_nil, exec_badTables .nop⟩⟩

/-- Settles O18: the hypotheses are (I-c), so the checks pass, and the effect reaches every slot. -/
theorem startOpensTheSession : Obligations.StartOpensTheSession := by
  intro s ht hrun h1 h16 hb hB hp
  have hs : s.Consistent := ⟨⟨h1, h16, hb, hB⟩, hp⟩
  have h := (slotsFrame_mapChans s (Chan.opened s.blockSize)).setRun true
  exact ⟨_, State.command_ok ht (hs.startChecks hrun), rfl, h.resp, h.chans, h.control, h.bytes, h.bcPos, h.status⟩

/-- Settles O20: the check of `RUN`, then the effect on every slot, which touches no buffer. -/
theorem stopClosesTheSession : Obligations.StopClosesTheSession := by
  refine ⟨rfl, fun s ht => ⟨fun hrun => State.command_raises ht (firstFault_needRun_closed hrun), fun hrun => ?_⟩⟩
  have h := (slotsFrame_mapChans s Chan.toIdle).setRun false
  exact ⟨_, State.command_ok ht (firstFault_needRun_open hrun), rfl, h.resp, h.chans, h.control, h.bytes, h.bcPos,
    h.status⟩

/-- Settles O21: as `STOP`, but `RUN` stays what it was. -/
theorem abortDropsTheFrame : Obligations.AbortDropsTheFrame := by
  refine ⟨rfl, fun s ht => ⟨fun hrun => State.command_raises ht (firstFault_needRun_closed hrun), fun hrun => ?_⟩⟩
  have h := slotsFrame_mapChans s Chan.toIdle
  have hcontrol := h.sameControl (by simp)
  exact ⟨_, State.command_ok ht (firstFault_needRun_open hrun), h.resp, h.chans, hcontrol, h.bytes, h.bcPos, h.status⟩

end Sys2Proof.Machine
end

section
/-! PROOFS. The bit-level quantizer commands of spec/41_quantizer.md: `UNPACK`, which reads one row of a code table per
band, and `PACK`, which writes one. -/

namespace Sys2Proof.Machine

variable {s t : State} {k : Chan}

/-! ### One band -/

/-- What band `b` has in the frame: the empty word of value 0 when it is silent, else a row of its resolution's code
table (R97, R131). -/
structure State.BandRow (s : State) (k : Chan) (b : Nat) (x : CodeRow) : Prop where
  silent : k.reff b = 0 → x = ⟨[], 0⟩
  coded  : k.reff b ≠ 0 → x ∈ s.codeRows (k.reff b)

theorem Chan.reff_lt (k : Chan) (b : Nat) : k.reff b < 16 := by
  unfold Chan.reff
  split
  · decide
  · exact (k.resAt b).isLt

/-- Every integer in the range of a resolution fits 16 bits (R22, R35). -/
theorem toInt_ofInt_of_qRange {r : Nat} {q : Int} (hr : r < 16) (hq : q.natAbs ≤ Tables.qRange r) :
    (BitVec.ofInt 16 q).toInt = q := by
  have hmax : ∀ r < 16, Tables.qRange r ≤ 2047 := by decide
  have := hmax r hr
  exact BitVec.toInt_ofInt_eq_self (by decide) (by omega) (by omega)

/-- A band's value lies in its range (W3 of R98); a silent band's range is 0. -/
theorem State.BandRow.value_natAbs_le {b : Nat} {x : CodeRow} (h : s.BandRow k b x)
    (h3 : k.reff b ≠ 0 → Code.W3 (s.codeRows (k.reff b)) (Tables.qRange (k.reff b))) :
    x.value.natAbs ≤ Tables.qRange (k.reff b) := by
  by_cases hr : k.reff b = 0
  · rw [h.silent hr]; exact Nat.zero_le _
  · exact Code.exactValues_range (h3 hr) (h.coded hr)

/-- `PACK` writes for a band the word of the row with its integer (R137, R138). -/
theorem State.BandRow.bandWord_eq {b : Nat} {x : CodeRow} (h : s.BandRow k b x)
    (h3 : k.reff b ≠ 0 → Code.W3 (s.codeRows (k.reff b)) (Tables.qRange (k.reff b)))
    (hq : k.reff b ≠ 0 → x.value = k.qAt b) : s.bandWord k b = x.word := by
  rw [State.bandWord]
  split
  · next hr => rw [h.silent hr]
  · next hr => rw [← hq hr, Code.vlcEncode_eq (h3 hr) (h.coded hr)]

/-- The bands below `m` are those below `n`, then `n`, then others. -/
theorem exists_range_eq_append_cons {n m : Nat} (h : n < m) : ∃ rest, List.range m = List.range n ++ n :: rest := by
  obtain ⟨d, rfl⟩ := Nat.exists_eq_add_of_le (Nat.succ_le_of_lt h)
  rw [List.range_add, List.range_succ, List.append_assoc]
  exact ⟨_, rfl⟩

/-! ### Bits at a place -/

theorem State.bitsAt_iff (p : Nat) (w : List Bool) : s.BitsAt p w ↔ Code.bitsFrom s.frameBit p w.length = w :=
  (Code.bitsFrom_eq_iff _ _ _).symm

theorem State.bitsAt_nil (p : Nat) : s.BitsAt p [] := nofun

theorem State.bitsAt_append (p : Nat) (w w' : List Bool) :
    s.BitsAt p (w ++ w') ↔ s.BitsAt p w ∧ s.BitsAt (p + w.length) w' := by
  constructor
  · refine fun h => ⟨fun i hi => ?_, fun i hi => ?_⟩
    · rw [h i (by simp; omega), List.getD_append _ _ _ _ hi]
    · rw [Nat.add_assoc, h (w.length + i) (by simpa using hi), List.getD_append_right _ _ _ _ (Nat.le_add_right _ _),
        Nat.add_sub_cancel_left]
  · rintro ⟨h, h'⟩ i hi
    rw [List.length_append] at hi
    by_cases hw : i < w.length
    · rw [h i hw, List.getD_append _ _ _ _ hw]
    · have := h' (i - w.length) (by omega)
      rw [show p + w.length + (i - w.length) = p + i by omega] at this
      rw [this, List.getD_append_right _ _ _ _ (by omega)]

/-- The bits `w` stand in the frame from bit `p` on and, if there are any, end by the limit: what a command can read
there (R71, R131). -/
structure State.Readable (s : State) (p : Nat) (w : List Bool) : Prop where
  bits : s.BitsAt p w
  ends : w = [] ∨ p + w.length ≤ s.bitLimit

theorem State.readable_nil (p : Nat) : s.Readable p [] := ⟨State.bitsAt_nil p, .inl rfl⟩

theorem State.readable_append (p : Nat) (w w' : List Bool) :
    s.Readable p (w ++ w') ↔ s.Readable p w ∧ s.Readable (p + w.length) w' := by
  have hends : (w ++ w' = [] ∨ p + (w ++ w').length ≤ s.bitLimit) ↔
      (w = [] ∨ p + w.length ≤ s.bitLimit) ∧ (w' = [] ∨ p + w.length + w'.length ≤ s.bitLimit) := by
    simp only [← List.length_eq_zero_iff, List.length_append]
    omega
  constructor
  · rintro ⟨hb, he⟩
    obtain ⟨hw, hw'⟩ := (State.bitsAt_append p w w').1 hb
    exact ⟨⟨hw, (hends.1 he).1⟩, ⟨hw', (hends.1 he).2⟩⟩
  · rintro ⟨⟨hw, he⟩, ⟨hw', he'⟩⟩
    exact ⟨(State.bitsAt_append p w w').2 ⟨hw, hw'⟩, hends.2 ⟨he, he'⟩⟩

/-- Words that end by the limit end at a position that `BC_POS` can hold (R47). -/
theorem State.wordsEnd_lt {w : List Bool} (h : w = [] ∨ s.bcPos.toNat + w.length ≤ s.bitLimit) :
    s.bcPos.toNat + w.length < 2 ^ 24 := by
  have hpos := s.bcPos.isLt
  have hlim : s.bitLimit < 2 ^ 24 := (Nat.min_le_left _ _).trans_lt s.bcLimit.isLt
  rcases h with rfl | h
  · exact hpos
  · omega

/-! ### The band loop of UNPACK -/

theorem State.unpackBands_silent {b : Nat} (hr : k.reff b = 0) (rest : List Nat) (p : Nat) :
    s.unpackBands k (b :: rest) p = (s.unpackBands k rest p).map fun r => (0 :: r.1, r.2) := by
  rw [State.unpackBands, if_pos hr]
  cases s.unpackBands k rest p <;> rfl

theorem State.unpackBands_found {b p len : Nat} {v : Int} (hr : k.reff b ≠ 0)
    (hv : Code.vlcDecode (s.codeRows (k.reff b)) s.frameBit p s.bitLimit = .found v len) (rest : List Nat) :
    s.unpackBands k (b :: rest) p = (s.unpackBands k rest (p + len)).map fun r => (v :: r.1, r.2) := by
  simp only [State.unpackBands, if_neg hr, hv]
  cases s.unpackBands k rest (p + len) <;> rfl

theorem State.unpackBands_overrun {b p : Nat} (hr : k.reff b ≠ 0)
    (hv : Code.vlcDecode (s.codeRows (k.reff b)) s.frameBit p s.bitLimit = .overrun) (rest : List Nat) :
    s.unpackBands k (b :: rest) p = .error b := by
  simp only [State.unpackBands, if_neg hr, hv]

/-- A code word that is read lies wholly below the limit. -/
theorem State.Readable.length_le {p : Nat} {w : List Bool} (h : s.Readable p w) : w.length ≤ s.bitLimit - p := by
  rcases h.ends with rfl | h
  · exact Nat.zero_le _
  · omega

/-- As no word begins another one (W1), the band's row whose word can be read is the one read (R131). -/
theorem State.unpackBands_row {b p : Nat} {x : CodeRow} (hx : s.BandRow k b x)
    (h1 : k.reff b ≠ 0 → Code.W1 (s.codeRows (k.reff b))) (hw : s.Readable p x.word) (rest : List Nat) :
    s.unpackBands k (b :: rest) p =
      (s.unpackBands k rest (p + x.word.length)).map fun r => (x.value :: r.1, r.2) := by
  by_cases hr : k.reff b = 0
  · obtain rfl := hx.silent hr
    exact State.unpackBands_silent hr rest p
  · exact State.unpackBands_found hr
      (Code.vlcDecode_eq_found (h1 hr) (hx.coded hr) hw.length_le ((State.bitsAt_iff _ _).1 hw.bits)) rest

/-- A band either has a row whose word can be read, and the loop goes on after it, or is the band of the overrun. -/
theorem State.unpackBands_cases (s : State) (k : Chan) (b p : Nat) (rest : List Nat) :
    (∃ x, s.BandRow k b x ∧ s.Readable p x.word ∧ s.unpackBands k (b :: rest) p =
      (s.unpackBands k rest (p + x.word.length)).map fun r => (x.value :: r.1, r.2)) ∨
    s.unpackBands k (b :: rest) p = .error b := by
  by_cases hr : k.reff b = 0
  · exact .inl ⟨⟨[], 0⟩, ⟨fun _ => rfl, fun h => absurd hr h⟩, State.readable_nil p, State.unpackBands_silent hr rest p⟩
  · rcases Code.vlcDecode_cases (s.codeRows (k.reff b)) s.frameBit p s.bitLimit with ⟨x, hx, hl, hb, hv⟩ | ⟨-, hv⟩
    · have hends : x.word = [] ∨ p + x.word.length ≤ s.bitLimit := by
        rw [← List.length_eq_zero_iff]; omega
      exact .inl ⟨x, ⟨fun h => absurd h hr, fun _ => hx⟩, ⟨(State.bitsAt_iff _ _).2 hb, hends⟩,
        State.unpackBands_found hr hv rest⟩
    · exact .inr (State.unpackBands_overrun hr hv rest)

/-- Bands whose words can be read one after another are read, and the loop goes on after them. -/
theorem State.unpackBands_append {w : Nat → List Bool} {v : Nat → Int} {bands : List Nat} {p : Nat}
    (hrow : ∀ b ∈ bands, s.BandRow k b ⟨w b, v b⟩)
    (h1 : ∀ b ∈ bands, k.reff b ≠ 0 → Code.W1 (s.codeRows (k.reff b))) (hw : s.Readable p (bands.flatMap w))
    (rest : List Nat) :
    s.unpackBands k (bands ++ rest) p =
      (s.unpackBands k rest (p + (bands.flatMap w).length)).map fun r => (bands.map v ++ r.1, r.2) := by
  induction bands generalizing p with
  | nil =>
    change s.unpackBands k rest p = (s.unpackBands k rest p).map id
    cases s.unpackBands k rest p <;> rfl
  | cons b bands ih =>
    rw [List.forall_mem_cons] at hrow h1
    rw [List.flatMap_cons, State.readable_append] at hw
    rw [List.cons_append, State.unpackBands_row hrow.1 h1.1 hw.1, ih hrow.2 h1.2 hw.2, List.flatMap_cons,
      List.length_append, ← Nat.add_assoc]
    cases s.unpackBands k rest (p + (w b).length + (bands.flatMap w).length) <;> rfl

/-- What the band loop has read, when it ends without an overrun: a row for each band, the words one after another. -/
theorem State.unpackBands_ok {bands : List Nat} {p p' : Nat} {q : List Int} (hnd : bands.Nodup)
    (h : s.unpackBands k bands p = .ok (q, p')) :
    ∃ (w : Nat → List Bool) (v : Nat → Int), (∀ b ∈ bands, s.BandRow k b ⟨w b, v b⟩) ∧
      s.Readable p (bands.flatMap w) ∧ q = bands.map v ∧ p' = p + (bands.flatMap w).length := by
  induction bands generalizing p q with
  | nil =>
    cases h
    exact ⟨fun _ => [], fun _ => 0, nofun, State.readable_nil _, rfl, rfl⟩
  | cons b rest ih =>
    obtain ⟨hb, hnd⟩ := List.nodup_cons.1 hnd
    rcases s.unpackBands_cases k b p rest with ⟨x, hx, hxw, he⟩ | he <;> rw [he] at h
    · cases hrest : s.unpackBands k rest (p + x.word.length) with
      | error e => rw [hrest] at h; cases h
      | ok r =>
        obtain ⟨q', p''⟩ := r
        rw [hrest] at h
        cases h
        obtain ⟨w, v, hrow, hread, rfl, rfl⟩ := ih hnd hrest
        -- the functions of the bands after `b`, with the row of `b` put in
        have hne : ∀ b' ∈ rest, b' ≠ b := fun b' hb' h => hb (h ▸ hb')
        have hw : rest.flatMap (Function.update w b x.word) = rest.flatMap w :=
          List.flatMap_congr fun b' hb' => Function.update_of_ne (hne b' hb') _ _
        have hv : rest.map (Function.update v b x.value) = rest.map v :=
          List.map_congr_left fun b' hb' => Function.update_of_ne (hne b' hb') _ _
        refine ⟨Function.update w b x.word, Function.update v b x.value,
          List.forall_mem_cons.2 ⟨?_, fun b' hb' => ?_⟩, ?_, ?_, ?_⟩
        · rwa [Function.update_self, Function.update_self]
        · rw [Function.update_of_ne (hne b' hb'), Function.update_of_ne (hne b' hb')]
          exact hrow b' hb'
        · rw [List.flatMap_cons, Function.update_self, hw]
          exact (State.readable_append _ _ _).2 ⟨hxw, hread⟩
        · rw [List.map_cons, Function.update_self, hv]
        · rw [List.flatMap_cons, Function.update_self, hw, List.length_append, Nat.add_assoc]
    · cases h

/-- A band none of whose words ends by the limit is the band of the overrun (R131). -/
theorem State.unpackBands_error {b p : Nat} (hr : k.reff b ≠ 0) (h1 : Code.W1 (s.codeRows (k.reff b)))
    (h : ∀ x ∈ s.codeRows (k.reff b), ¬ (p + x.word.length ≤ s.bitLimit ∧ s.BitsAt p x.word)) (rest : List Nat) :
    s.unpackBands k (b :: rest) p = .error b := by
  rcases s.unpackBands_cases k b p rest with ⟨x, hx, hw, -⟩ | he
  · have hmem := hx.coded hr
    exact absurd ⟨hw.ends.resolve_left (h1.1 x hmem), hw.bits⟩ (h x hmem)
  · exact he

/-! ### UNPACK -/

theorem State.CodeWords.bandRow {n : Nat} {w : Nat → List Bool} {v : Nat → Int} (h : s.CodeWords k n w v) :
    ∀ b ∈ List.range n, s.BandRow k b ⟨w b, v b⟩ := by
  intro b hb
  obtain ⟨hsilent, hcoded⟩ := h b (List.mem_range.1 hb)
  refine ⟨fun hr => ?_, fun hr => ?_⟩
  · obtain ⟨hw, hv⟩ := hsilent hr
    rw [hw, hv]
  · obtain ⟨x, hx, hw, hv⟩ := hcoded hr
    rwa [← hw, ← hv]

/-- The row `Q[c]` after `UNPACK`: the integers read, 0 at and above `CFG_BANDS`. -/
theorem qRow_getD {B b : Nat} (n : Nat) (v : Nat → Int) (hb : b < B) :
    (qRow B ((List.range n).map v)).getD b 0 = BitVec.ofInt 16 (if b < n then v b else 0) := by
  by_cases hn : b < n <;> simp [qRow, List.getD_eq_getElem?_getD, hb, hn]

/-- The state after an `UNPACK c` that finds every word, or that overruns, the checks being passed (R132). -/
theorem exec_unpack {c : ChanIx} (hr : s.Ready c) (hdir : s.cfgDir = 0) (hrole : (s.chan c).role ≠ 2)
    (hfsm : (s.chan c).fsm = .idle) : exec (.unpack c) s = .next (s.unpackBody c) :=
  congrArg _ (s.guarded_ok hr.tables ((s.unpackChecks_none c).2 ⟨hr.run, hdir, hr.inRange, hrole, hfsm⟩))

/-- Settles O22: the band loop reads the given rows, and `BC_POS` does not wrap since the words end by the limit. -/
theorem unpackReadsTheCodeWords : Obligations.UnpackReadsTheCodeWords := by
  intro s c w v hr hdir hrole hfsm hprefix hwords hbits hends
  have hread : s.Readable s.bcPos.toNat (wordsOf w s.bands) := ⟨hbits, hends⟩
  have hloop := State.unpackBands_append hwords.bandRow
    (fun b hb => hprefix b (List.mem_range.1 hb)) hread []
  rw [List.append_nil] at hloop
  have hbody : s.unpackBody c =
      s.unpackSuccess c ((List.range s.bands).map v) (s.bcPos.toNat + (wordsOf w s.bands).length) := by
    rw [State.unpackBody, hloop, State.unpackBands]
    simp only [Except.map, List.append_nil]
    rfl
  refine ⟨_, (exec_unpack hr hdir hrole hfsm).trans (congrArg _ hbody), ?_, fun b hb => ?_, ?_, ?_, rfl, rfl,
    ⟨rfl, rfl, rfl, rfl, rfl, rfl, rfl, rfl, rfl, rfl⟩, fun d hd => s.setChan_chan_other _ hd, fun _ => rfl⟩
  · simp [State.unpackSuccess, qRow]
  · simp only [State.unpackSuccess, State.complete_chan, State.setBcPos_chan, State.setChan_chan_same]
    exact qRow_getD s.bands v hb
  · simp [State.unpackSuccess]
  · exact Nat.mod_eq_of_lt (State.wordsEnd_lt hends)

/-- Settles O23: the loop reads the bands below `n` and stops there. -/
theorem unpackStopsAtTheLimit : Obligations.UnpackStopsAtTheLimit := by
  intro s c n w v hr hdir hrole hfsm hn hprefix hwords hbits hends hcoded hnone
  obtain ⟨rest, hrange⟩ := exists_range_eq_append_cons hn
  have hloop : s.unpackBands (s.chan c) (List.range s.bands) s.bcPos.toNat = .error n := by
    rw [hrange, State.unpackBands_append hwords.bandRow
      (fun b hb => hprefix b ((List.mem_range.1 hb).trans n.lt_succ_self)) ⟨hbits, hends⟩]
    exact congrArg _ (State.unpackBands_error hcoded (hprefix n n.lt_succ_self hcoded) hnone _)
  have hbody : s.unpackBody c = s.unpackOverrun c n := by rw [State.unpackBody, hloop]
  refine ⟨_, (exec_unpack hr hdir hrole hfsm).trans (congrArg _ hbody), rfl, rfl, rfl, ?_,
    ⟨rfl, rfl, rfl, rfl, rfl, rfl, rfl, rfl, rfl, rfl⟩, fun d hd => s.setChan_chan_other _ hd, fun _ => rfl⟩
  simp [State.unpackOverrun]

/-- What a successful `UNPACK c` has read: a row for each band, the words one after another from `BC_POS` on; their
values are in `Q[c]` (R132). -/
theorem exec_unpack_success {c : ChanIx} (he : exec (.unpack c) s = .next t) (ht : t.resp.cause = .success) :
    ∃ (w : Nat → List Bool) (v : Nat → Int), (∀ b ∈ List.range s.bands, s.BandRow (s.chan c) b ⟨w b, v b⟩) ∧
      s.Readable s.bcPos.toNat (wordsOf w s.bands) ∧
      t = s.unpackSuccess c ((List.range s.bands).map v) (s.bcPos.toNat + (wordsOf w s.bands).length) := by
  rcases exec_cases (.unpack c) s with ⟨r, hr, h⟩ | ⟨c', b, -, -, -, h⟩ | ⟨-, -, t', ⟨q, p, hloop, ht'⟩, h⟩ <;>
    obtain rfl := Host.Outcome.next.inj (he.symm.trans h)
  · exact absurd ht hr
  · cases ht
  · obtain ⟨w, v, hrow, hread, rfl, rfl⟩ := State.unpackBands_ok List.nodup_range hloop
    exact ⟨w, v, hrow, hread, ht'⟩

/-- The integer of a band that `UNPACK` has read is the value of its row: it fits 16 bits (R35, W3 of R98). -/
theorem unpackSuccess_qAt {c : ChanIx} {n p b : Nat} {v : Nat → Int} (hb : b < n) (hn : n ≤ s.blockSize)
    (hv : (v b).natAbs ≤ Tables.qRange ((s.chan c).reff b)) :
    ((s.unpackSuccess c ((List.range n).map v) p).chan c).qAt b = v b := by
  simp only [State.unpackSuccess, State.complete_chan, State.setBcPos_chan, State.setChan_chan_same, Chan.qAt]
  rw [qRow_getD n v (hb.trans_le hn), if_pos hb]
  exact toInt_ofInt_of_qRange ((s.chan c).reff_lt b) hv

/-- Settles O24: each integer is the value of a row, and those lie in the range (W3). -/
theorem unpackStaysInRange : Obligations.UnpackStaysInRange := by
  intro s t c hbands h3 he ht b hb
  obtain ⟨w, v, hrow, -, rfl⟩ := exec_unpack_success he ht
  have hv := (hrow b (List.mem_range.2 hb)).value_natAbs_le (h3 b hb)
  rwa [unpackSuccess_qAt hb hbands hv]

/-! ### The dry run of PACK -/

theorem wordsOf_succ (w : Nat → List Bool) (n : Nat) : wordsOf w (n + 1) = wordsOf w n ++ w n := by
  simp [wordsOf, List.range_succ]

theorem wordsOf_congr {w w' : Nat → List Bool} {n : Nat} (h : ∀ b, b < n → w b = w' b) : wordsOf w n = wordsOf w' n :=
  List.flatMap_congr fun b hb => h b (List.mem_range.1 hb)

theorem wordsOf_length_mono (w : Nat → List Bool) : Monotone fun n => (wordsOf w n).length :=
  monotone_nat_of_le_succ fun n => by simp [wordsOf_succ]

theorem Chan.outOfRange_eq_false {b : Nat} :
    k.outOfRange b = false ↔ (k.reff b ≠ 0 → (k.qAt b).natAbs ≤ Tables.qRange (k.reff b)) := by
  rw [Chan.outOfRange, Bool.and_eq_false_imp, decide_eq_true_eq, decide_eq_false_iff_not, Nat.not_lt]

theorem Chan.outOfRange_eq_true {b : Nat} (hr : k.reff b ≠ 0) (hq : Tables.qRange (k.reff b) < (k.qAt b).natAbs) :
    k.outOfRange b = true := by
  simp [Chan.outOfRange, hr, hq]

/-- At a silent band, and at one that is in range and whose word ends by the limit, the dry run goes on (R138). -/
theorem State.packFault_pass {b p : Nat} (hq : k.outOfRange b = false)
    (hl : k.reff b ≠ 0 → p + (s.bandWord k b).length ≤ s.bitLimit) (rest : List Nat) :
    s.packFault k (b :: rest) p = s.packFault k rest (p + (s.bandWord k b).length) := by
  rw [State.packFault]
  by_cases hr : k.reff b = 0
  · rw [if_pos hr, State.bandWord, if_pos hr]; rfl
  · rw [if_neg hr, if_neg (by simp [hq]), if_neg (Nat.not_lt.2 (hl hr))]

/-- The dry run passes the bands below `n` when they are in range and their words end by the limit (R138). -/
theorem State.packFault_append {n p : Nat} (hq : ∀ b, b < n → k.outOfRange b = false)
    (hl : ∀ b, b < n → k.reff b ≠ 0 → p + (wordsOf (s.bandWord k) (b + 1)).length ≤ s.bitLimit) (rest : List Nat) :
    s.packFault k (List.range n ++ rest) p = s.packFault k rest (p + (wordsOf (s.bandWord k) n).length) := by
  induction n generalizing rest with
  | zero => rfl
  | succ n ih =>
    have hlast := hl n n.lt_succ_self
    rw [wordsOf_succ, List.length_append, ← Nat.add_assoc] at hlast ⊢
    rw [List.range_succ, List.append_assoc, List.singleton_append,
      ih (fun b hb => hq b (by omega)) (fun b hb => hl b (by omega)), State.packFault_pass (hq n n.lt_succ_self) hlast]

theorem State.packFault_outOfRange {b : Nat} (hr : k.reff b ≠ 0) (hq : Tables.qRange (k.reff b) < (k.qAt b).natAbs)
    (rest : List Nat) (p : Nat) : s.packFault k (b :: rest) p = some ⟨.rangeError, BitVec.ofNat 16 b⟩ := by
  rw [State.packFault, if_neg hr, if_pos (Chan.outOfRange_eq_true hr hq)]

theorem State.packFault_overrun {b p : Nat} (hr : k.reff b ≠ 0) (hq : k.outOfRange b = false)
    (hl : s.bitLimit < p + (s.bandWord k b).length) (rest : List Nat) :
    s.packFault k (b :: rest) p = some ⟨.bitstreamOverrun, BitVec.ofNat 16 b⟩ := by
  rw [State.packFault, if_neg hr, if_neg (by simp [hq]), if_pos hl]

/-- The dry run is the last check of `PACK` (R138). -/
theorem State.packChecks_dryRun {c : ChanIx} (hr : s.Ready c) (hdir : s.cfgDir = 1) (hrole : (s.chan c).role ≠ 2)
    (hfsm : (s.chan c).fsm = .transformed) (hq : (s.chan c).qvalid = true) :
    firstFault (s.packChecks c) = s.packFault (s.chan c) (List.range s.bands) s.bcPos.toNat := by
  rw [State.packChecks, s.needRun_none.2 hr.run, (s.needDir_none 1).2 hdir, (s.needChan_none c).2 hr.inRange,
    (s.needNotSecondary_none c).2 hrole, hfsm, hq]
  cases s.packFault (s.chan c) (List.range s.bands) s.bcPos.toNat <;> rfl

/-! ### The write loop of PACK -/

theorem State.writeBits_append (s : State) (p : Nat) (w w' : List Bool) :
    s.writeBits p (w ++ w') = (s.writeBits p w).writeBits (p + w.length) w' := by
  induction w generalizing s p with
  | nil => rfl
  | cons b rest ih =>
    rw [List.cons_append, State.writeBits, ih, State.writeBits, List.length_cons, Nat.add_assoc, Nat.add_comm 1]

/-- The write loop stores the words as one bit string (R138). -/
theorem State.packWords_eq (s : State) (p : Nat) (words : List (List Bool)) :
    s.packWords p words = (s.writeBits p words.flatten, p + words.flatten.length) := by
  induction words generalizing s p with
  | nil => rfl
  | cons w rest ih =>
    rw [State.packWords, ih, State.bitWrite, Code.bitsOf_natOf, List.flatten_cons, State.writeBits_append,
      List.length_append, Nat.add_assoc]

theorem State.writeBits_chan (s : State) (p : Nat) (w : List Bool) (d : ChanIx) :
    (s.writeBits p w).chan d = s.chan d := by
  rw [State.writeBits_fb]; rfl

theorem State.writeBits_status (s : State) (p : Nat) (w : List Bool) : (s.writeBits p w).status = s.status := by
  rw [State.writeBits_fb]

theorem State.writeBits_sameControl (s : State) (p : Nat) (w : List Bool) : SameControl s (s.writeBits p w) := by
  rw [State.writeBits_fb]
  exact ⟨rfl, rfl, rfl, rfl, rfl, rfl, rfl, rfl, rfl, rfl⟩

/-- Stored bits that stood there already leave every frame bit as it was. -/
theorem State.writeBits_frameBit_of_bitsAt {p : Nat} {w : List Bool} (h : s.BitsAt p w) (j : Nat) :
    (s.writeBits p w).frameBit j = s.frameBit j := by
  rw [State.writeBits_frameBit]
  split
  · next hj =>
    rw [← h (j - p) (by omega), Nat.add_sub_cancel' hj.1]
  · rfl

/-- The effect of `PACK c` with the code words `w` (R138): the bits stored from `BC_POS` on, the cursor after them, and
`QVALID[c]` 0. -/
theorem State.packBody_eq {c : ChanIx} {w : Nat → List Bool}
    (h : ∀ b, b < s.bands → s.bandWord (s.chan c) b = w b) :
    s.packBody c = ((s.writeBits s.bcPos.toNat (wordsOf w s.bands)).setChan c
      { s.chan c with qvalid := false }).setBcPos (s.bcPos.toNat + (wordsOf w s.bands).length) := by
  have hw : ((List.range s.bands).map (s.bandWord (s.chan c))).flatten = wordsOf w s.bands := wordsOf_congr h
  simp only [State.packBody, State.packWords_eq, hw]

/-- The state after a `PACK c` whose dry run finds no fault (R138). -/
theorem exec_pack {c : ChanIx} {w : Nat → List Bool} (ht : s.cfg.tablesOk = true)
    (hdry : firstFault (s.packChecks c) = none) (hw : ∀ b, b < s.bands → s.bandWord (s.chan c) b = w b) :
    exec (.pack c) s = .next (((s.writeBits s.bcPos.toNat (wordsOf w s.bands)).setChan c
      { s.chan c with qvalid := false }).setBcPos (s.bcPos.toNat + (wordsOf w s.bands).length)).complete := by
  rw [← State.packBody_eq hw]
  exact State.command_ok ht hdry

/-- Settles O30: the dry run passes every band, and the write loop stores the words as one bit string. -/
theorem packStoresTheCodeWords : Obligations.PackStoresTheCodeWords := by
  intro s c w v hr hdir hrole hfsm hqv h3 hwords hval hlim
  have hrow := fun b hb => hwords.bandRow b (List.mem_range.2 hb)
  have hword : ∀ b, b < s.bands → s.bandWord (s.chan c) b = w b := fun b hb =>
    (hrow b hb).bandWord_eq (h3 b hb) (hval b hb)
  have hrange : ∀ b, b < s.bands → (s.chan c).outOfRange b = false := fun b hb =>
    Chan.outOfRange_eq_false.2 fun hne => hval b hb hne ▸ (hrow b hb).value_natAbs_le (h3 b hb)
  have hends : ∀ b, b < s.bands → (s.chan c).reff b ≠ 0 →
      s.bcPos.toNat + (wordsOf (s.bandWord (s.chan c)) (b + 1)).length ≤ s.bitLimit := by
    intro b hb hne
    have hle := wordsOf_length_mono w (Nat.succ_le_of_lt hb)
    rw [wordsOf_congr fun b' hb' => hword b' (by omega)]
    exact (Nat.add_le_add_left hle _).trans (hlim.resolve_left fun h => hne (h b hb))
  have hdry : firstFault (s.packChecks c) = none := by
    rw [State.packChecks_dryRun hr hdir hrole hfsm hqv, ← List.append_nil (List.range s.bands),
      State.packFault_append hrange hends, State.packFault]
  have hsilent : (∀ b, b < s.bands → (s.chan c).reff b = 0) → wordsOf w s.bands = [] := fun h =>
    List.flatMap_eq_nil_iff.2 fun b hb => ((hwords b (List.mem_range.1 hb)).1 (h b (List.mem_range.1 hb))).1
  refine ⟨_, exec_pack hr.tables hdry hword, fun j => s.writeBits_frameBit _ j _, fun i => s.writeBits_fbByte _ i _,
    Nat.mod_eq_of_lt (State.wordsEnd_lt (hlim.imp_left hsilent)), State.setChan_chan_same _ _ _, rfl,
    s.writeBits_status _ _, { s.writeBits_sameControl _ _ with }, fun d hd => ?_⟩
  exact (State.setChan_chan_other _ _ hd).trans (s.writeBits_chan _ _ d)

/-- Settles O31: the dry run passes the bands below `n` and ends at it. -/
theorem packRefusesToExceedTheBudget : Obligations.PackRefusesToExceedTheBudget := by
  intro s c n hr hdir hrole hfsm hqv hn hcoded hrange hends hover
  have hq : ∀ b, b ≤ n → (s.chan c).outOfRange b = false := fun b hb => Chan.outOfRange_eq_false.2 (hrange b hb)
  obtain ⟨rest, hsplit⟩ := exists_range_eq_append_cons hn
  rw [wordsOf_succ, List.length_append, ← Nat.add_assoc] at hover
  refine State.command_raises hr.tables ?_
  rw [State.packChecks_dryRun hr hdir hrole hfsm hqv, hsplit, State.packFault_append (fun b hb => hq b hb.le) hends,
    State.packFault_overrun hcoded (hq n le_rfl) hover]

/-- After `UNPACK c` the band's integer has the code word that was read (R137). -/
theorem unpackSuccess_bandWord {c : ChanIx} {p b : Nat} {w : Nat → List Bool} {v : Nat → Int} (hb : b < s.bands)
    (hbands : s.bands ≤ s.blockSize) (hx : s.BandRow (s.chan c) b ⟨w b, v b⟩) (h3 : s.ExactValues (s.chan c) s.bands)
    (ht : t = s.unpackSuccess c ((List.range s.bands).map v) p) : t.bandWord (t.chan c) b = w b := by
  have hq : (t.chan c).qAt b = v b := ht ▸ unpackSuccess_qAt hb hbands (hx.value_natAbs_le (h3 b hb))
  have hk : t.chan c = { s.chan c with q := (t.chan c).q, qvalid := true } := by simp [ht, State.unpackSuccess]
  have hreff : (t.chan c).reff b = (s.chan c).reff b := by rw [hk]; rfl
  have hrows : t.codeRows = s.codeRows := by rw [ht]; rfl
  have hx' : t.BandRow (t.chan c) b ⟨w b, v b⟩ := ⟨hreff ▸ hx.silent, by rw [hreff, hrows]; exact hx.coded⟩
  refine hx'.bandWord_eq ?_ fun _ => hq.symm
  rw [hreff, hrows]
  exact h3 b hb

/-- Settles O32: the bits the write loop stores are those that `UNPACK` has read there. -/
theorem repackingReproducesTheFrame : Obligations.RepackingReproducesTheFrame := by
  intro s t c hbands h3 he ht
  obtain ⟨w, v, hrow, hread, ht'⟩ := exec_unpack_success he ht
  have hsame : t.bands = s.bands := by rw [ht']; rfl
  have hwords : ((List.range t.bands).map (t.bandWord (t.chan c))).flatten = wordsOf w s.bands := by
    rw [hsame]
    exact wordsOf_congr fun b hb => unpackSuccess_bandWord hb hbands (hrow b (List.mem_range.2 hb)) h3 ht'
  rw [State.packWords_eq, hwords, ht']
  exact ⟨(Nat.mod_eq_of_lt (State.wordsEnd_lt hread.ends)).symm, State.writeBits_frameBit_of_bitsAt hread.bits⟩

end Sys2Proof.Machine
end

section
/-! PROOFS. The arithmetic quantizer commands of spec/41_quantizer.md: `Deq` and `Quant` (R133, R135, R139), then `DEQ`
and `QUANT`, and the range check that `DEQ` and `PACK` share. -/

namespace Sys2Proof.F64

/-! ### Zeros and negated numbers -/

theorem ofSignMag_not (b : Bool) (m : Nat) : ofSignMag (!b) m = neg (ofSignMag b m) :=
  ext_sign_magBits (by simp) (by simp [magBits_ofSignMag])

theorem ieeeMul_neg (a b : F64) : ieeeMul (neg a) b = (ieeeMul a b).map neg := by
  simp only [ieeeMul, finite_neg, isNaN_neg, isZero_neg, sign_neg, scaledMag_neg, Bool.not_bne, ofSignMag_not]
  split
  · rfl
  · split <;> rfl

theorem refMul_neg (a b : F64) : refMul (neg a) b = (refMul a b).map neg := by
  simp only [refMul, finite_neg, scaledMag_neg, ieeeMul_neg]
  split <;> rfl

theorem ofInt_zero : ofInt 0 = 0 := by
  rw [ofInt, ofRat, Int.natAbs_zero, Nat.zero_mul, roundBits_zero 1 one_pos]
  rfl

theorem ofInt_neg {q : Int} (hq : q ≠ 0) : ofInt (-q) = neg (ofInt q) := by
  have hsign : decide (-q < 0) = !decide (q < 0) := by
    rw [← decide_not, decide_eq_decide]; omega
  rw [ofInt, ofRat, hsign, Int.natAbs_neg, ofSignMag_not]
  rfl

end Sys2Proof.F64

namespace Sys2Proof.Arith

open F64 Machine

/-! ### Products of zeros, and of negated numbers, in every numerics record -/

/-- A zero times a positive number is a zero, its sign turned or not in all of a numerics record (R133, log 10). -/
theorem mul_zero_positive (num : Numerics) : ∃ flip : Bool, ∀ z b, isZero z = true → PositiveFinite b →
    mul num z b = some (zeroOf (sign z != flip)) := by
  cases num with
  | reference =>
    refine ⟨false, fun z b hz hb => ?_⟩
    obtain ⟨hfin, hsign, -⟩ := hb
    rw [mul, refMul_of_zero (finite_of_isZero hz) hfin (.inl hz), hsign]
  | other id =>
    refine ⟨Config.otherZeroFlip id, fun z b hz hb => ?_⟩
    obtain ⟨hfin, hsign, hne⟩ := hb
    have hle : scaledMag z * scaledMag b ≤ maxScaled * 2 ^ 1074 := by
      rw [scaledMag_of_isZero hz, Nat.zero_mul]; exact Nat.zero_le _
    simp only [mul, zeroProductNeg, finite_of_isZero hz, hz, hfin, hsign, hne, decide_eq_true hle]
    rfl

/-- The sign part of N4, for every numerics record: -a times b is -(a times b). -/
theorem mul_neg_first (num : Numerics) (a b : F64) : mul num (neg a) b = (mul num a b).map neg := by
  cases num with
  | reference => exact refMul_neg a b
  | other id =>
    have hzero : zeroProductNeg id (neg a) b = zeroProductNeg id a b := by simp [zeroProductNeg]
    simp only [mul, finite_neg, scaledMag_neg, isZero_neg, sign_neg, hzero, abs_neg]
    split
    · split
      · simp [neg_zeroOf]
      · cases sign a <;> simp
    · rfl

end Sys2Proof.Arith

namespace Sys2Proof.Machine

open F64 Arith

variable {s t : State} {k : Chan}

/-! ### Deq -/

theorem deqScale_positive : ∀ sf, PositiveFinite (Tables.deqScale sf) := by unfold PositiveFinite; decide

/-- The sign that a positive factor turns is turned back by the second one (R133). -/
theorem deqValue_zero {cfg : Cfg} {r : Nat} (hn : PositiveFinite (cfg.deqNorm.getD r 0)) (sf : BitVec 6) :
    deqValue cfg 0 sf r = some 0 := by
  obtain ⟨flip, hmul⟩ := mul_zero_positive cfg.numerics
  rw [deqValue, ofInt_zero, hmul 0 _ rfl (deqScale_positive sf), Option.bind_some, hmul _ _ (isZero_zeroOf _) hn,
    sign_zeroOf]
  cases flip <;> rfl

theorem deqValue_neg (cfg : Cfg) {q : Int} (hq : q ≠ 0) (sf : BitVec 6) (r : Nat) :
    deqValue cfg (-q) sf r = (deqValue cfg q sf r).map neg := by
  rw [deqValue, deqValue, ofInt_neg hq, mul_neg_first]
  cases mul cfg.numerics (ofInt q) (Tables.deqScale sf) with
  | none => rfl
  | some y => exact mul_neg_first _ y _

/-- Settles O26, by how a product treats a zero and a negated factor. -/
theorem deqRespectsZeroAndSign : Obligations.DeqRespectsZeroAndSign :=
  fun cfg sf r hn => ⟨deqValue_zero hn sf, fun _ hq _ => deqValue_neg cfg hq sf r⟩

/-! ### Quant -/

/-- The search answers one of its candidates, a nearest one, of the nearest ones one of largest magnitude (R135). -/
theorem quantSearch_nearest {level : Int → Option Int} {f : Int → Int} (x : Int) (cands : List Int) (best : Int)
    (hf : ∀ p ∈ cands, level p = some (f p)) :
    ∃ q ∈ best :: cands, quantSearch level x cands best (x - f best).natAbs = some q ∧
      ∀ p ∈ best :: cands, (x - f q).natAbs ≤ (x - f p).natAbs ∧
        ((x - f q).natAbs = (x - f p).natAbs → p.natAbs ≤ q.natAbs) := by
  induction cands generalizing best with
  | nil => exact ⟨best, by simp, rfl, by simp⟩
  | cons c rest ih =>
    rw [List.forall_mem_cons] at hf
    simp only [quantSearch, hf.1]
    split
    · next hcloser =>
      obtain ⟨q, hq, hs, hnear⟩ := ih c hf.2
      refine ⟨q, List.mem_cons_of_mem _ hq, hs, List.forall_mem_cons.2 ⟨?_, hnear⟩⟩
      have := hnear c List.mem_cons_self
      omega
    · next hfarther =>
      obtain ⟨q, hq, hs, hnear⟩ := ih best hf.2
      rw [List.forall_mem_cons] at hnear
      refine ⟨q, ?_, hs, ?_⟩
      · rcases List.mem_cons.1 hq with h | h <;> simp [h]
      · refine List.forall_mem_cons.2 ⟨hnear.1, List.forall_mem_cons.2 ⟨?_, hnear.2⟩⟩
        have := hnear.1
        omega

/-- `Quant` answers a nearest level, of the nearest ones one of largest magnitude (R135). -/
theorem quantValue_nearest {cfg : Cfg} {sf : BitVec 6} {r : Nat} (h : LevelsSpecified cfg sf r) (x : F64) :
    ∃ q, quantValue cfg x sf r = some q ∧ NearestLevel cfg sf r (F64.scaled x) q := by
  have hlevel : ∀ p ∈ Code.interval (Tables.qRange r), levelOf cfg sf r p = some ((levelOf cfg sf r p).getD 0) := by
    intro p hp
    obtain ⟨y, hy⟩ := Option.isSome_iff_exists.1 (h p ((Code.mem_interval _ _).1 hp))
    rw [hy]; rfl
  have hzero : (0 : Int) ∈ Code.interval (Tables.qRange r) := (Code.mem_interval _ _).2 (Nat.zero_le _)
  cases hi : Code.interval (Tables.qRange r) with
  | nil => rw [hi] at hzero; cases hzero
  | cons q₀ rest =>
    rw [hi, List.forall_mem_cons] at hlevel
    obtain ⟨q, hq, hs, hnear⟩ := quantSearch_nearest (F64.scaled x) rest q₀ hlevel.2
    rw [← hi] at hq hnear
    refine ⟨q, ?_, (Code.mem_interval _ _).1 hq, fun p hp y z hy hz => ?_⟩
    · rw [quantValue, hi]
      simp only
      rw [hlevel.1]
      exact hs
    · have := hnear p ((Code.mem_interval _ _).2 hp)
      rwa [hy, hz] at this

/-- A reconstruction value that is a level is that level. -/
theorem levelOf_eq_scaled {cfg : Cfg} {sf : BitVec 6} {r : Nat} {q : Int} {x : F64} (hx : deqValue cfg q sf r = some x)
    (hs : (levelOf cfg sf r q).isSome = true) : levelOf cfg sf r q = some (F64.scaled x) := by
  rw [levelOf, hx] at hs ⊢
  simp only at hs ⊢
  split at hs
  · next hf => rw [if_pos hf]
  · cases hs

/-- Settles O29: the level of `q` is at distance 0, so the chosen level is at distance 0 too, and it is of one integer
only. -/
theorem quantInvertsDeq : Obligations.QuantInvertsDeq := by
  intro cfg sf r q x hq hspec hmono hx
  obtain ⟨q', hs, hq', hnear⟩ := quantValue_nearest hspec x
  have hlevel := levelOf_eq_scaled hx (hspec q hq)
  obtain ⟨y, hy⟩ := Option.isSome_iff_exists.1 (hspec q' hq')
  have hdist := (hnear q hq y (F64.scaled x) hy hlevel).1
  rcases lt_trichotomy q' q with h | rfl | h
  · have := hmono q' q hq' hq h y _ hy hlevel
    omega
  · exact hs
  · have := hmono q q' hq hq' h _ y hlevel hy
    omega

/-! ### DEQ and QUANT -/

/-- The frame of a command that replaces slot `c` and may have drawn free values. -/
theorem channelFrame_setChan (s : State) (c : ChanIx) (k : Chan) : ChannelFrame c s (s.setChan c k).drawn.complete where
  control := ⟨rfl, rfl, rfl, rfl, rfl, rfl, rfl, rfl, rfl, rfl⟩
  others _ hd := s.setChan_chan_other k hd
  bytes _ := rfl
  bcPos := rfl
  status := rfl
  resp := rfl

/-- The state after a `DEQ c` whose checks pass (R134). -/
theorem exec_deq {c : ChanIx} (hr : s.Ready c) (hdir : s.cfgDir = 0) (hfsm : (s.chan c).fsm = .idle)
    (hqv : (s.chan c).qvalid = true) (hq : ∀ b, b < s.bands → (s.chan c).outOfRange b = false) :
    exec (.deq c) s = .next (s.deqBody c).complete :=
  State.command_ok hr.tables ((s.deqChecks_none c).2 ⟨hr.run, hdir, hr.inRange, ⟨hfsm, hqv⟩, hq⟩)

/-- The state after a `QUANT c` whose checks pass (R136). -/
theorem exec_quant {c : ChanIx} (hr : s.Ready c) (hdir : s.cfgDir = 1) (hrole : (s.chan c).role ≠ 2)
    (hfsm : (s.chan c).fsm = .transformed) (hx : ∀ b, b < s.bands → F64.finite ((s.chan c).xAt b) = true) :
    exec (.quant c) s = .next (s.quantBody c).complete :=
  State.command_ok hr.tables ((s.quantChecks_none c).2 ⟨hr.run, hdir, hr.inRange, hrole, hfsm, hx⟩)

theorem State.deqElement_coded {c : ChanIx} {b : Nat} {y : F64} (hb : b < s.bands) (hr : (s.chan c).reff b ≠ 0)
    (hy : deqValue s.cfg ((s.chan c).qAt b) ((s.chan c).sfAt b) ((s.chan c).reff b) = some y) :
    s.deqElement c b = y := by
  rw [State.deqElement, if_pos ⟨hb, hr⟩, hy]
  rfl

theorem State.deqElement_silent {c : ChanIx} {b : Nat} (h : s.bands ≤ b ∨ (s.chan c).reff b = 0) :
    s.deqElement c b = 0 := by
  rw [State.deqElement, if_neg]
  rintro ⟨hb, hr⟩
  omega

/-- Settles O25: the checks pass, and each line is `Deq` of the band's integer, where it is specified, or +0. -/
theorem deqWritesTheSpectrum : Obligations.DeqWritesTheSpectrum := by
  intro s c hr hdir hfsm hqv hrange
  have hline : ∀ b, b < s.blockSize → ((s.deqBody c).complete.chan c).xAt b = s.deqElement c b := fun b hb => by
    simp [State.deqBody, Chan.xAt, hb]
  refine ⟨_, exec_deq hr hdir hfsm hqv fun b hb => Chan.outOfRange_eq_false.2 (hrange b hb),
    channelFrame_setChan s c _, ?_, ?_,
    fun b hb => ⟨fun hn hne y y' hy hy' => ?_, fun hn hne h0 hpos => ?_, fun h => ?_⟩⟩
  · simp [State.deqBody]
  · simp [State.deqBody]
  · exact (hline b hb).trans (State.deqElement_coded hn hne (by rw [deqValue, hy, Option.bind_some, hy']))
  · exact (hline b hb).trans (State.deqElement_coded hn hne (h0 ▸ deqValue_zero hpos _))
  · exact (hline b hb).trans (State.deqElement_silent h)

/-- Settles O28: the checks pass, and each integer is a nearest level, which fits 16 bits, or 0. -/
theorem quantChoosesTheNearestLevel : Obligations.QuantChoosesTheNearestLevel := by
  intro s c hr hdir hrole hfsm hx
  have hq : ∀ b, b < s.blockSize → ((s.quantBody c).complete.chan c).qAt b = (s.quantElement c b).toInt :=
    fun b hb => by simp [State.quantBody, Chan.qAt, hb]
  refine ⟨_, exec_quant hr hdir hrole hfsm hx, channelFrame_setChan s c _, ?_, ?_,
    fun b hb => ⟨fun hn hne hspec => ?_, fun h => ?_⟩⟩
  · simp [State.quantBody]
  · simp [State.quantBody]
  · obtain ⟨q, hs, hnear⟩ := quantValue_nearest hspec ((s.chan c).xAt b)
    rw [hq b hb, State.quantElement, if_pos ⟨hn, hne⟩, hs]
    simp only
    rwa [toInt_ofInt_of_qRange ((s.chan c).reff_lt b) hnear.1]
  · rw [hq b hb, State.quantElement, if_neg (by omega)]
    rfl

/-! ### The range check -/

theorem State.deqChecks_outOfRange {c : ChanIx} {n : Nat} (hr : s.Ready c) (hdir : s.cfgDir = 0)
    (hfsm : (s.chan c).fsm = .idle) (hqv : (s.chan c).qvalid = true) (hn : n < s.bands)
    (hbad : (s.chan c).outOfRange n = true) (hlow : ∀ b, b < n → (s.chan c).outOfRange b = false) :
    firstFault (s.deqChecks c) = some ⟨.rangeError, BitVec.ofNat 16 n⟩ := by
  rw [State.deqChecks, s.needRun_none.2 hr.run, (s.needDir_none 0).2 hdir, (s.needChan_none c).2 hr.inRange, hfsm, hqv,
    scan_eq_of_lowest 0 .rangeError hn hbad hlow, Nat.zero_add]
  rfl

/-- Settles O27: the scan of `DEQ` and the dry run of `PACK` both reach band `n` first. -/
theorem rangeErrorNamesTheLowestBand : Obligations.RangeErrorNamesTheLowestBand := by
  intro s c n hr hqv hn hcoded hbad hlow
  have hlow' : ∀ b, b < n → (s.chan c).outOfRange b = false := fun b hb => Chan.outOfRange_eq_false.2 (hlow b hb)
  refine ⟨fun hdir hfsm => State.command_raises hr.tables ?_, fun hdir hfsm hrole hends =>
    State.command_raises hr.tables ?_⟩
  · exact State.deqChecks_outOfRange hr hdir hfsm hqv hn (Chan.outOfRange_eq_true hcoded hbad) hlow'
  · obtain ⟨rest, hsplit⟩ := exists_range_eq_append_cons hn
    rw [State.packChecks_dryRun hr hdir hrole hfsm hqv, hsplit, State.packFault_append hlow' hends,
      State.packFault_outOfRange hcoded hbad]

end Sys2Proof.Machine
end

section
/-! PROOFS. The intensity-stereo commands of spec/42_stereo.md: `ISDEC` and `ISENC`, their checks and their effects,
then the reference choice of an index (R152) and the ratio of 1 (R151). -/

namespace Sys2Proof.Machine

variable {s : State} {c : ChanIx}

/-! ### ISDEC and ISENC -/

/-- The state after an `ISDEC c` whose checks pass (R151). -/
theorem exec_isdec (hr : s.Ready c) (hdir : s.cfgDir = 0) (hrole : (s.chan c).role = 2)
    (hfsm : (s.chan (s.chan c).partner).fsm = .loaded ∧ (s.chan c).fsm = .idle) (hmode : s.cplMode = 0)
    (hx : ∀ k, k < s.blockSize → F64.finite ((s.chan (s.chan c).partner).xAt k) = true) :
    exec (.isdec c) s = .next (s.isdecBody c).complete :=
  State.command_ok hr.tables ((s.isdecChecks_none c).2 ⟨hr.run, hdir, hr.inRange, hrole, hfsm, hmode, hx⟩)

/-- The state after an `ISENC c` whose checks pass (R153). -/
theorem exec_isenc (hr : s.Ready c) (hdir : s.cfgDir = 1) (hrole : (s.chan c).role = 2)
    (hfsm : (s.chan (s.chan c).partner).fsm = .transformed ∧ (s.chan c).fsm = .transformed) (hmode : s.cplMode = 0)
    (hx : ∀ k, k < s.blockSize →
      F64.finite ((s.chan (s.chan c).partner).xAt k) = true ∧ F64.finite ((s.chan c).xAt k) = true) :
    exec (.isenc c) s = .next (s.isencBody c).complete :=
  State.command_ok hr.tables ((s.isencChecks_none c).2 ⟨hr.run, hdir, hr.inRange, hrole, hfsm, hmode, hx⟩)

theorem State.isdecElement_specified {k : Nat} {y : F64}
    (hy : Arith.mul s.cfg.numerics ((s.chan (s.chan c).partner).xAt k) (Tables.iRatio (s.chan c).intens) = some y) :
    s.isdecElement c k = y := by
  rw [State.isdecElement, hy, Option.getD_some]

/-- Settles O33: the checks pass, and the effect replaces the secondary's slot, each line by the product where it is
specified. -/
theorem isdecScalesThePrimary : Obligations.IsdecScalesThePrimary := by
  intro s c hr hdir hrole hprimary hidle hmode hx
  have hline : ∀ k, k < s.blockSize → ((s.isdecBody c).complete.chan c).xAt k = s.isdecElement c k := fun k hk => by
    simp [State.isdecBody, Chan.xAt, hk]
  refine ⟨_, exec_isdec hr hdir hrole ⟨hprimary, hidle⟩ hmode hx, channelFrame_setChan s c _, ?_, ?_,
    fun k hk y hy => (hline k hk).trans (State.isdecElement_specified hy)⟩
  · simp [State.isdecBody]
  · simp [State.isdecBody]

/-- Settles O35: the checks pass, and the effect replaces the secondary's slot. -/
theorem isencChoosesAnIndex : Obligations.IsencChoosesAnIndex := by
  intro s c hr hdir hrole hprimary hsecondary hmode hx
  refine ⟨_, exec_isenc hr hdir hrole ⟨hprimary, hsecondary⟩ hmode hx, channelFrame_setChan s c _, ?_⟩
  simp [State.isencBody, State.spectrum]

/-! ### The faults of the coupling mode and of the data -/

/-- With direction, role and states right, `ISDEC` comes down to the mode, then the data (R150, R151). -/
theorem State.isdecChecks_modeThenData (hr : s.Ready c) (hdir : s.cfgDir = 0) (hrole : (s.chan c).role = 2)
    (hprimary : (s.chan (s.chan c).partner).fsm = .loaded) (hidle : (s.chan c).fsm = .idle) :
    firstFault (s.isdecChecks c) = firstFault [s.needMode,
      scan s.blockSize (fun k => !F64.finite ((s.chan (s.chan c).partner).xAt k)) .nonFinite 0] := by
  rw [State.isdecChecks, s.needRun_none.2 hr.run, (s.needDir_none 0).2 hdir, (s.needChan_none c).2 hr.inRange,
    (s.needSecondary_none c).2 hrole, hprimary, hidle]
  rfl

/-- As `isdecChecks_modeThenData`, for `ISENC`, which scans both spectra (R150, R153). -/
theorem State.isencChecks_modeThenData (hr : s.Ready c) (hdir : s.cfgDir = 1) (hrole : (s.chan c).role = 2)
    (hprimary : (s.chan (s.chan c).partner).fsm = .transformed) (hsecondary : (s.chan c).fsm = .transformed) :
    firstFault (s.isencChecks c) = firstFault [s.needMode,
      scan s.blockSize (fun k => !F64.finite ((s.chan (s.chan c).partner).xAt k) || !F64.finite ((s.chan c).xAt k))
        .nonFinite 0] := by
  rw [State.isencChecks, s.needRun_none.2 hr.run, (s.needDir_none 1).2 hdir, (s.needChan_none c).2 hr.inRange,
    (s.needSecondary_none c).2 hrole, hprimary, hsecondary]
  rfl

/-- A command whose checks come down to the mode and the data names the mode, else the lowest bad line (R150, R182). -/
theorem State.command_modeThenData {checks : List (Option Resp)} {body : State → State} {bad : Nat → Bool}
    (ht : s.cfg.tablesOk = true)
    (hc : firstFault checks = firstFault [s.needMode, scan s.blockSize bad .nonFinite 0]) :
    (s.cplMode ≠ 0 → Raises s ⟨.unsupportedMode, s.cplMode.setWidth 16⟩ (s.command checks body)) ∧
    (s.cplMode = 0 → ∀ n, n < s.blockSize → bad n = true → (∀ k, k < n → bad k = false) →
      Raises s ⟨.nonFinite, BitVec.ofNat 16 n⟩ (s.command checks body)) := by
  refine ⟨fun hmode => State.command_raises ht ?_, fun hmode n hn hbad hlow => State.command_raises ht ?_⟩
  · rw [hc, s.needMode_some hmode, firstFault_some]
  · rw [hc, s.needMode_none.2 hmode, firstFault_none, scan_eq_of_lowest 0 .nonFinite hn hbad hlow, firstFault_some,
      Nat.zero_add]

/-- Settles O34: both commands come down to the mode, then a scan of the lines in ascending order. -/
theorem stereoFaultsNameModeThenLine : Obligations.StereoFaultsNameModeThenLine := by
  refine fun s c hr hrole => ⟨fun hdir hprimary hidle => ?_, fun hdir hprimary hsecondary => ?_⟩
  · obtain ⟨hmode, hline⟩ := State.command_modeThenData (body := State.isdecBody c) hr.tables
      (State.isdecChecks_modeThenData hr hdir hrole hprimary hidle)
    refine ⟨hmode, fun h0 n hn hbad hlow => hline h0 n hn ?_ fun k hk => ?_⟩
    · rw [hbad, Bool.not_false]
    · rw [hlow k hk, Bool.not_true]
  · obtain ⟨hmode, hline⟩ := State.command_modeThenData (body := State.isencBody c) hr.tables
      (State.isencChecks_modeThenData hr hdir hrole hprimary hsecondary)
    refine ⟨hmode, fun h0 n hn hbad hlow => hline h0 n hn ?_ fun k hk => ?_⟩
    · rcases hbad with h | h <;> simp [h]
    · obtain ⟨hp, hs⟩ := hlow k hk
      rw [hp, hs, Bool.not_true, Bool.or_false]

end Sys2Proof.Machine

namespace Sys2Proof.Arith

open F64

/-! ### The smallest minimiser -/

/-- The search through an ascending list answers a member with the least `d`, and of those the smallest. -/
theorem foldl_min_ascending (d : Nat → Nat) (cands : List Nat) (best : Nat)
    (hasc : (best :: cands).Pairwise (· ≤ ·)) :
    let r := cands.foldl (fun best i => if d i < d best then i else best) best
    r ∈ best :: cands ∧ ∀ i ∈ best :: cands, d r ≤ d i ∧ (d r = d i → r ≤ i) := by
  induction cands generalizing best with
  | nil => simp
  | cons i rest ih =>
    obtain ⟨hbest, hrest⟩ := List.pairwise_cons.1 hasc
    rw [List.forall_mem_cons] at hbest
    obtain ⟨hi, hbest⟩ := hbest
    simp only [List.foldl_cons]
    split
    · next hless =>
      obtain ⟨hmem, hmin⟩ := ih i hrest
      refine ⟨List.mem_cons_of_mem _ hmem, List.forall_mem_cons.2 ⟨?_, hmin⟩⟩
      have := (hmin i List.mem_cons_self).1
      omega
    · next hnotless =>
      obtain ⟨hmem, hmin⟩ := ih best (List.pairwise_cons.2 ⟨hbest, (List.pairwise_cons.1 hrest).2⟩)
      rw [List.forall_mem_cons] at hmin
      obtain ⟨hbestmin, hrestmin⟩ := hmin
      refine ⟨?_, List.forall_mem_cons.2 ⟨hbestmin, List.forall_mem_cons.2 ⟨by omega, hrestmin⟩⟩⟩
      rcases List.mem_cons.1 hmem with h | h <;> simp [h]

/-- `argMin` is the smallest index of 0..15 that minimises `d` (R152). -/
theorem argMin_spec (d : Nat → Nat) :
    argMin d < 16 ∧ ∀ i, i < 16 → d (argMin d) ≤ d i ∧ (d (argMin d) = d i → argMin d ≤ i) := by
  have hasc : (0 :: List.range 16).Pairwise (· ≤ ·) :=
    List.pairwise_cons.2 ⟨fun i _ => Nat.zero_le i, List.pairwise_le_range⟩
  obtain ⟨hmem, hmin⟩ := foldl_min_ascending d (List.range 16) 0 hasc
  refine ⟨?_, fun i hi => hmin i (List.mem_cons_of_mem _ (List.mem_range.2 hi))⟩
  rcases List.mem_cons.1 hmem with h | h
  · exact h.trans_lt (by decide)
  · exact List.mem_range.1 h

/-! ### Distances over the real numbers -/

theorem abs_val (x : F64) : |val x| = scaledMag x / 2 ^ 1074 := by
  rw [val, abs_div, abs_of_pos (show (0 : ℝ) < 2 ^ 1074 by positivity), ← Int.cast_abs, Int.abs_eq_natAbs,
    scaled_natAbs, Int.cast_natCast]

theorem val_of_positive {x : F64} (h : sign x = false) : val x = scaledMag x / 2 ^ 1074 := by
  rw [val, scaled, h, if_neg Bool.false_ne_true, Int.cast_natCast]

theorem sign_iRatio (i : BitVec 4) : sign (Tables.iRatio i) = false := by
  unfold Tables.iRatio
  split
  · exact sign_ofSignMag _ _
  · exact sign_zeroOf _

/-- One summand of `isencDistance` is that of d[i] in units of 2^-4296. -/
theorem isencDistance_term (x y : F64) (i : BitVec 4) :
    ((((scaledMag y * 2 ^ 1074 : Int) - (scaledMag (Tables.iRatio i) * scaledMag x : Int)).natAbs ^ 2 : Nat) : ℝ) =
      (|val y| - val (Tables.iRatio i) * |val x|) ^ 2 * (2 ^ 1074) ^ 4 := by
  have hunit : (2 : ℝ) ^ 1074 ≠ 0 := by positivity
  rw [abs_val, abs_val, val_of_positive (sign_iRatio i), Nat.cast_pow, Nat.cast_natAbs, Int.cast_abs, sq_abs]
  simp only [Int.cast_sub, Int.cast_mul, Int.cast_pow, Int.cast_natCast, Int.cast_ofNat]
  generalize (2 : ℝ) ^ 1074 = u at *
  field_simp

/-- `isencDistance` is d[i] in units of 2^-4296 (R152). -/
theorem isencDistance_eq (p s : Nat → F64) (b i : Nat) :
    (isencDistance ((List.range b).map p) ((List.range b).map s) i : ℝ) =
      (∑ k ∈ Finset.range b, (|val (s k)| - val (Tables.iRatio (BitVec.ofNat 4 i)) * |val (p k)|) ^ 2) *
        (2 ^ 1074) ^ 4 := by
  rw [isencDistance, List.zip_map', List.map_map, ← List.sum_toFinset _ List.nodup_range,
    List.toFinset_range, Nat.cast_sum, Finset.sum_mul]
  exact Finset.sum_congr rfl fun k _ => isencDistance_term (p k) (s k) _

/-- Settles O36: the choice is the smallest minimiser of `isencDistance`, which is d in a unit of its own. -/
theorem isencReferenceIsLeastSquares : Obligations.IsencReferenceIsLeastSquares := by
  intro b p s i hi d best
  have hunit : (0 : ℝ) < (2 ^ 1074) ^ 4 := by positivity
  obtain ⟨hlt, hmin⟩ := argMin_spec (isencDistance ((List.range b).map p) ((List.range b).map s))
  have hbest : best = argMin (isencDistance ((List.range b).map p) ((List.range b).map s)) := Nat.mod_eq_of_lt hlt
  have hd : ∀ j, (isencDistance ((List.range b).map p) ((List.range b).map s) j : ℝ) = d j * (2 ^ 1074) ^ 4 :=
    isencDistance_eq p s b
  obtain ⟨hle, htie⟩ := hmin i hi
  rw [← hbest] at hlt hle htie
  refine ⟨hlt, le_of_mul_le_mul_right ?_ hunit, fun h => htie ?_⟩
  · rw [← hd, ← hd]
    exact Nat.cast_le.2 hle
  · rw [← Nat.cast_inj (R := ℝ), hd, hd, h]

/-! ### The ratio of 1 -/

/-- Index 7 is the ratio 1 (R26). -/
theorem iRatio_seven : Tables.iRatio 7 = 0x3FF0000000000000 := by decide +kernel

theorem scaledMag_one : scaledMag 0x3FF0000000000000 = 2 ^ 1074 := by decide +kernel

/-- The reference product of a finite number with 1 is exact, so rounding gives the number back (R163). -/
theorem refMul_one {x : F64} (hx : finite x = true) : refMul x 0x3FF0000000000000 = some x := by
  have hle : scaledMag x * scaledMag 0x3FF0000000000000 ≤ maxScaled * 2 ^ 1074 := by
    rw [scaledMag_one]
    exact Nat.mul_le_mul_right _ (scaledMag_le hx)
  rw [refMul_of_le hle, ieeeMul_of_le hx (by decide) hle, scaledMag_one, scaledMag_eq,
    roundBits_magVal _ _ (by positivity), show sign 0x3FF0000000000000 = false by decide, Bool.bne_false,
    ofSignMag_sign_magBits]

/-- Settles O37: the ratio of index 7 is 1. -/
theorem ratioOneCopiesTheLine : Obligations.RatioOneCopiesTheLine := by
  intro x hx
  rw [iRatio_seven]
  exact refMul_one hx

end Sys2Proof.Arith
end

section
/-! PROOFS. The per-channel machine of R160, the commands `LOAD` and `REL` of spec/43_transform.md, and the scans of
`IMDCT`, `MDCT` and `QUANT` for non-finite data. -/

namespace Sys2Proof.Machine

variable {s t : State} {c : ChanIx}

/-! ### The machine of a channel (R160) -/

/-- A replaced slot `c` moves the machine of channel `c` only. -/
theorem setChan_fsm {k : Chan} {f g : Fsm} (hf : (s.chan c).fsm = f) (hg : k.fsm = g) (d : ChanIx) :
    (d = c ∧ (s.chan d).fsm = f ∧ ((s.setChan c k).chan d).fsm = g) ∨
      (((s.setChan c k).chan d).fsm = (s.chan d).fsm ∧ ∀ f' g' : Fsm, ¬ (d = c ∧ f' = f ∧ g' = g)) := by
  by_cases hd : d = c
  · subst hd
    exact .inl ⟨rfl, hf, by rw [s.setChan_chan_same, hg]⟩
  · exact .inr ⟨by rw [s.setChan_chan_other k hd], fun _ _ h => hd h.1⟩

/-- A command that has its effect moves the machine of channel `d` along the command's edge, or the table has no edge of
the command for `d` and the machine stays (R160). -/
theorem effect_fsm {i : Instr} (hc : firstFault (checksOf s i) = none) (he : Effect s t i) (d : ChanIx) :
    FsmMove i d (s.chan d).fsm (t.chan d).fsm ∨
      ((t.chan d).fsm = (s.chan d).fsm ∧ ∀ f g, ¬ FsmMove i d f g) := by
  cases i with
  | nop => exact .inr ⟨he ▸ rfl, fun _ _ => id⟩
  | start | stop | abort => exact .inl (by rw [he]; simp [FsmMove, State.startBody, State.stopBody])
  | unpack c =>
    obtain ⟨q, p, -, rfl⟩ := he
    refine .inr ⟨?_, fun _ _ => id⟩
    rw [State.unpackSuccess, State.complete_chan, State.setBcPos_chan]
    exact State.setChan_apply Chan.fsm (by rfl) d
  | quant c =>
    refine .inr ⟨?_, fun _ _ => id⟩
    rw [he, State.complete_chan, State.quantBody, State.drawn_chan]
    exact State.setChan_apply Chan.fsm (by rfl) d
  | pack c =>
    refine .inr ⟨?_, fun _ _ => id⟩
    rw [he, packBody_eq_afterSlot]
    exact (State.setChan_apply Chan.fsm (by rfl) d : ((s.setChan c { s.chan c with qvalid := false }).chan d).fsm = _)
  | deq c =>
    obtain ⟨-, -, -, ⟨hf, -⟩, -⟩ := (s.deqChecks_none c).1 hc
    exact he ▸ setChan_fsm hf rfl d
  | isdec c =>
    obtain ⟨-, -, -, -, ⟨-, hf⟩, -⟩ := (s.isdecChecks_none c).1 hc
    exact he ▸ setChan_fsm hf rfl d
  | isenc c =>
    obtain ⟨-, -, -, -, ⟨-, hf⟩, -⟩ := (s.isencChecks_none c).1 hc
    exact he ▸ setChan_fsm hf rfl d
  | load c =>
    obtain ⟨-, -, hf⟩ := (s.loadChecks_none c).1 hc
    exact he ▸ setChan_fsm hf rfl d
  | imdct c =>
    obtain ⟨-, -, -, hf, -⟩ := (s.imdctChecks_none c).1 hc
    exact he ▸ setChan_fsm hf rfl d
  | mdct c =>
    obtain ⟨-, -, -, hf, -⟩ := (s.mdctChecks_none c).1 hc
    exact he ▸ setChan_fsm hf rfl d
  | rel c =>
    obtain ⟨-, -, hf⟩ := (s.relChecks_none c).1 hc
    exact he ▸ setChan_fsm hf rfl d

theorem effect_success {i : Instr} (he : Effect s t i) : t.resp.cause = .success := by
  cases i with
  | unpack c =>
    obtain ⟨q, p, -, rfl⟩ := he
    rfl
  | _ => rw [he]; rfl

/-- A command that reports success has passed its checks and has its effect (R120). -/
theorem effect_of_exec_success {i : Instr} (h : exec i s = .next t) (hs : t.resp.cause = .success) :
    firstFault (checksOf s i) = none ∧ Effect s t i := by
  rcases exec_cases i s with ⟨r, hr, he⟩ | ⟨c, b, -, -, -, he⟩ | ⟨-, hc, t', ht', he⟩ <;>
    obtain rfl := Host.Outcome.next.inj (he.symm.trans h)
  · exact absurd hs hr
  · cases hs
  · exact ⟨hc, ht'⟩

/-- A command that moves the machine of a channel succeeds and moves it along its edge (R160). -/
theorem exec_fsm {i : Instr} (h : exec i s = .next t) (hne : (t.chan c).fsm ≠ (s.chan c).fsm) :
    t.resp.cause = .success ∧ FsmMove i c (s.chan c).fsm (t.chan c).fsm := by
  rcases exec_cases i s with ⟨r, -, he⟩ | ⟨c', b, -, -, -, he⟩ | ⟨-, hc, t', ht', he⟩ <;>
    obtain rfl := Host.Outcome.next.inj (he.symm.trans h)
  · exact absurd rfl hne
  · refine absurd ?_ hne
    rw [State.unpackOverrun, State.raise_chan, State.drawn_chan]
    exact State.setChan_apply Chan.fsm (by rfl) c
  · exact ⟨effect_success ht', (effect_fsm hc ht' c).resolve_right fun hsame => hne hsame.1⟩

/-- A command whose checks pass is in a session of its direction, which is one of the checks (R181 item 2). -/
theorem cfgDir_of_checks {i : Instr} (hc : firstFault (checksOf s i) = none) {dir : BitVec 1}
    (hd : direction i = some dir) : s.cfgDir = dir := by
  have hmem : s.needDir dir ∈ checksOf s i := by
    cases i with
    | nop | start | stop | abort | load | rel => cases hd
    | _ =>
      cases hd
      simp [checksOf, State.unpackChecks, State.deqChecks, State.quantChecks, State.packChecks, State.isdecChecks,
        State.isencChecks, State.imdctChecks, State.mdctChecks]
  exact (s.needDir_none dir).1 ((firstFault_eq_none _).1 hc _ hmem)

/-- Each command of the table has an edge for its channel (R160). -/
theorem exists_fsmMove {i : Instr} (h : i = .start ∨ i = .stop ∨ i = .abort ∨ i = .deq c ∨ i = .isdec c ∨ i = .load c ∨
    i = .imdct c ∨ i = .mdct c ∨ i = .rel c ∨ i = .isenc c) : ∃ f g, FsmMove i c f g := by
  rcases h with rfl | rfl | rfl | rfl | rfl | rfl | rfl | rfl | rfl | rfl
  · exact ⟨.idle, _, rfl⟩
  · exact ⟨.idle, _, rfl⟩
  · exact ⟨.idle, _, rfl⟩
  all_goals exact ⟨_, _, rfl, rfl, rfl⟩

/-- Settles O12: a step moves a machine in a command only, and a successful command has its effect (`effect_fsm`). -/
theorem fsmMovesOnlyAlongItsTable : Obligations.FsmMovesOnlyAlongItsTable := by
  refine ⟨fun s t c ht hne => ?_, fun i s t c ht hs htable => ?_⟩
  · cases step_stepped ht with
    | rests _ | refuses _ _ | faults _ _ => exact absurd rfl hne
    | resets hp => exact .inl ⟨_, hp⟩
    | reads _ => exact absurd (congrArg Chan.fsm ((s.setPending _).hostRead_chan _ c)) hne
    | writes _ _ hw => exact absurd (hw.sameSequencing.slot c).1 hne
    | commands hp hi _ =>
      have hexec := (stepRunsTheDecodedCommand s _ _ _ hp hi).symm.trans ht
      obtain ⟨hs, hmove⟩ := exec_fsm (c := c) hexec hne
      exact .inr ⟨_, _, _, hp, hi, hs, hmove⟩
  · obtain ⟨hc, he⟩ := effect_of_exec_success ht hs
    obtain ⟨f, g, hedge⟩ := exists_fsmMove htable
    exact ⟨(effect_fsm hc he c).resolve_right fun hstays => hstays.2 f g hedge, fun _ => cfgDir_of_checks hc,
      ((exec_commanded ht).ov c).imp_right And.right⟩

/-! ### LOAD and REL -/

/-- The frame of a command that replaces slot `c` and draws nothing. -/
theorem channelFrame_setChan_complete (s : State) (c : ChanIx) (k : Chan) :
    ChannelFrame c s (s.setChan c k).complete :=
  let h := channelFrame_setChan s c k
  { h with control := { h.control with } }

/-- A command that checks `RUN`, the channel and that its machine is in state `f`, in this order, and moves it to `g`
(R164, R167). -/
theorem exec_channelState {i : Instr} {f g : Fsm} (ht : s.cfg.tablesOk = true)
    (hi : exec i s = s.command [s.needRun, s.needChan c, require ((s.chan c).fsm == f) (sequenceError 5)]
      fun s => s.setChan c { s.chan c with fsm := g, qvalid := false }) :
    (s.run = false → Raises s ⟨.sequenceError, 1⟩ (exec i s)) ∧
    (s.run = true → s.cfgNch.toNat ≤ c.toNat → Raises s ⟨.sequenceError, 3⟩ (exec i s)) ∧
    (s.run = true → c.toNat < s.cfgNch.toNat → (s.chan c).fsm ≠ f → Raises s ⟨.sequenceError, 5⟩ (exec i s)) ∧
    (s.run = true → c.toNat < s.cfgNch.toNat → (s.chan c).fsm = f →
      ∃ t, exec i s = .next t ∧ ChannelFrame c s t ∧ t.chan c = { s.chan c with fsm := g, qvalid := false }) := by
  rw [hi]
  refine ⟨fun hrun => State.command_raises ht ?_, fun hrun hch => State.command_raises ht ?_,
    fun hrun hch hf => State.command_raises ht ?_, fun hrun hch hf =>
      ⟨_, State.command_ok ht ?_, channelFrame_setChan_complete s c _, s.setChan_chan_same c _⟩⟩
  · rw [s.needRun_some hrun]; rfl
  · rw [s.needRun_none.2 hrun, s.needChan_some c hch]; rfl
  · rw [s.needRun_none.2 hrun, (s.needChan_none c).2 hch, beq_eq_false_iff_ne.2 hf]; rfl
  · rw [s.needRun_none.2 hrun, (s.needChan_none c).2 hch, beq_iff_eq.2 hf]; rfl

/-- Settles O38: the checks in their order, whatever else holds, then the move from Idle to Loaded. -/
theorem loadMakesTheChannelLoaded : Obligations.LoadMakesTheChannelLoaded :=
  ⟨by decide, fun _ _ ht => exec_channelState ht rfl⟩

/-- Settles O42, as `LOAD`, from Transformed to Idle. -/
theorem relEndsTheFrame : Obligations.RelEndsTheFrame :=
  ⟨by decide, fun _ _ ht => exec_channelState ht rfl⟩

/-! ### Non-finite inputs -/

/-- A scan names the lowest element that is not finite (R182 item 10). -/
theorem scan_nonFinite {x : Nat → F64} {b n : Nat} (offset : Nat) (hn : n < b) (hbad : F64.finite (x n) = false)
    (hlow : ∀ k, k < n → F64.finite (x k) = true) :
    scan b (fun k => !F64.finite (x k)) .nonFinite offset = some ⟨.nonFinite, BitVec.ofNat 16 (offset + n)⟩ :=
  scan_eq_of_lowest offset .nonFinite hn (by simp [hbad]) fun k hk => by simp [hlow k hk]

/-- A command that comes down to the scans of two buffers names the lowest bad element of the first, or behind a finite
first one that of the second, counted on from B (R165, R166). -/
theorem State.command_scans {checks : List (Option Resp)} {body : State → State} {x y : Nat → F64} {n : Nat}
    (ht : s.cfg.tablesOk = true) (hc : firstFault checks = firstFault
      [scan s.blockSize (fun k => !F64.finite (x k)) .nonFinite 0,
        scan s.blockSize (fun k => !F64.finite (y k)) .nonFinite s.blockSize]) (hn : n < s.blockSize) :
    (F64.finite (x n) = false → (∀ k, k < n → F64.finite (x k) = true) →
      Raises s ⟨.nonFinite, BitVec.ofNat 16 n⟩ (s.command checks body)) ∧
    ((∀ k, k < s.blockSize → F64.finite (x k) = true) → F64.finite (y n) = false →
      (∀ k, k < n → F64.finite (y k) = true) →
      Raises s ⟨.nonFinite, BitVec.ofNat 16 (s.blockSize + n)⟩ (s.command checks body)) := by
  refine ⟨fun hbad hlow => State.command_raises ht ?_, fun hx hbad hlow => State.command_raises ht ?_⟩
  · rw [hc, scan_nonFinite 0 hn hbad hlow, firstFault_some, Nat.zero_add]
  · rw [hc, (scan_eq_none s.blockSize 0 _ _).2 fun k hk => by simp [hx k hk], firstFault_none,
      scan_nonFinite s.blockSize hn hbad hlow, firstFault_some]

/-- In a decode session and in state Loaded, `IMDCT` comes down to its scans (R165). -/
theorem State.imdctChecks_scans (hr : s.Ready c) (hdir : s.cfgDir = 0) (hfsm : (s.chan c).fsm = .loaded) :
    firstFault (s.imdctChecks c) = firstFault [scan s.blockSize (fun k => !F64.finite ((s.chan c).xAt k)) .nonFinite 0,
      scan s.blockSize (fun n => !F64.finite ((s.chan c).ovAt n)) .nonFinite s.blockSize] := by
  rw [State.imdctChecks, s.needRun_none.2 hr.run, (s.needDir_none 0).2 hdir, (s.needChan_none c).2 hr.inRange, hfsm]
  rfl

/-- In an encode session and in state Loaded, `MDCT` comes down to its scans (R166). -/
theorem State.mdctChecks_scans (hr : s.Ready c) (hdir : s.cfgDir = 1) (hfsm : (s.chan c).fsm = .loaded) :
    firstFault (s.mdctChecks c) = firstFault [scan s.blockSize (fun n => !F64.finite ((s.chan c).ovAt n)) .nonFinite 0,
      scan s.blockSize (fun n => !F64.finite ((s.chan c).tAt n)) .nonFinite s.blockSize] := by
  rw [State.mdctChecks, s.needRun_none.2 hr.run, (s.needDir_none 1).2 hdir, (s.needChan_none c).2 hr.inRange, hfsm]
  rfl

/-- With direction, role and state right, `QUANT` comes down to its scan (R136). -/
theorem State.quantChecks_scan (hr : s.Ready c) (hdir : s.cfgDir = 1) (hrole : (s.chan c).role ≠ 2)
    (hfsm : (s.chan c).fsm = .transformed) :
    firstFault (s.quantChecks c) =
      firstFault [scan s.bands (fun b => !F64.finite ((s.chan c).xAt b)) .nonFinite 0] := by
  rw [State.quantChecks, s.needRun_none.2 hr.run, (s.needDir_none 1).2 hdir, (s.needChan_none c).2 hr.inRange,
    (s.needNotSecondary_none c).2 hrole, hfsm]
  rfl

/-- Settles O41: each command comes down to its scans, which name the lowest bad element. -/
theorem nonFiniteInputIsReported : Obligations.NonFiniteInputIsReported := by
  refine fun s c n hr => ⟨fun hdir hfsm hn => ?_, fun hdir hfsm hn => ?_, fun hdir hfsm hrole hn hbad hlow => ?_⟩
  · exact State.command_scans hr.tables (State.imdctChecks_scans hr hdir hfsm) hn
  · exact State.command_scans hr.tables (State.mdctChecks_scans hr hdir hfsm) hn
  · refine State.command_raises hr.tables ((State.quantChecks_scan hr hdir hrole hfsm).trans ?_)
    rw [scan_nonFinite 0 hn hbad hlow, firstFault_some, Nat.zero_add]

end Sys2Proof.Machine
end

section
/-! PROOFS. The reference arithmetic of R163 (nearest results, the kernels as ascending sums), and N2 and the sign part
of N4 in every instance. -/

namespace Sys2Proof.F64

/-! ### Nearest products and sums -/

/-- The exact product is the product of the magnitudes, with the product of the signs. -/
theorem scaled_mul_scaled (a b : F64) : scaled a * scaled b =
    if (sign a != sign b) = true then -((scaledMag a * scaledMag b : Nat) : Int)
    else ((scaledMag a * scaledMag b : Nat) : Int) := by
  unfold scaled
  cases sign a <;> cases sign b <;> simp

/-- Settles O45: within the range the product is rounded once, with the sign of the exact one. -/
theorem referenceProductIsNearest : Obligations.ReferenceProductIsNearest := by
  intro a b ha hb t
  have habs : t.natAbs = scaledMag a * scaledMag b := by
    rw [Int.natAbs_mul, scaled_natAbs, scaled_natAbs]
  rw [habs]
  refine ⟨fun hle => ?_, refMul_of_lt ha hb⟩
  have hround := round_nearest (sign a != sign b) (by positivity) hle t (scaled_mul_scaled a b)
  simp only [Nat.cast_pow, Nat.cast_ofNat] at hround
  exact ⟨_, (refMul_of_le hle).trans (ieeeMul_of_le ha hb hle), (hround a).1, sign_ofSignMag _ _,
    fun y _ => (hround y).2⟩

/-- Two negative patterns with the sum 0 are zeros. -/
theorem isZero_of_negative_sum {a b : F64} (ha : sign a = true) (hb : sign b = true) (h : scaled a + scaled b = 0) :
    isZero a = true := by
  rw [isZero_iff]
  simp only [scaled, ha, hb, if_true] at h
  omega

/-- Settles O46: within the range the sum is rounded once; its sign is the exact sum's, or IEEE 754's for a zero. -/
theorem referenceSumIsNearest : Obligations.ReferenceSumIsNearest := by
  intro a b ha hb t
  refine ⟨fun hle => ?_, refAdd_of_lt ha hb⟩
  have hsigned : t = if (if t = 0 then sign a && sign b else decide (t < 0)) = true then -(t.natAbs : Int)
      else t.natAbs := by
    by_cases h0 : t = 0
    · simp [h0]
    · simp only [h0, if_false, decide_eq_true_eq]
      split <;> omega
  have hround := round_nearest _ one_pos (by rwa [Nat.mul_one]) t hsigned
  refine ⟨_, (refAdd_of_le hle).trans (ieeeAdd_of_le ha hb hle), (hround a).1, (sign_ofSignMag _ _).trans ?_,
    fun y _ => by simpa using (hround y).2⟩
  by_cases h0 : t = 0
  · rw [if_pos h0, if_pos h0]
    by_cases hs : sign a = true ∧ sign b = true
    · rw [isZero_of_negative_sum hs.1 hs.2 h0, Bool.true_and]
    · rw [← Bool.and_eq_true, Bool.not_eq_true] at hs
      rw [Bool.and_assoc, hs, Bool.and_false]
  · rw [if_neg h0, if_neg h0]

theorem ieeeMul_of_refMul {a b r : F64} (h : refMul a b = some r) : ieeeMul a b = some r := by
  unfold refMul at h
  split at h
  · cases h
  · exact h

theorem ieeeAdd_of_refAdd {a b r : F64} (h : refAdd a b = some r) : ieeeAdd a b = some r := by
  unfold refAdd at h
  split at h
  · cases h
  · exact h

end Sys2Proof.F64

namespace Sys2Proof.Arith

open F64

/-! ### The reference kernels -/

theorem getD_map_range {α : Type} (f : Nat → α) {n i : Nat} (h : i < n) (d : α) :
    ((List.range n).map f).getD i d = f i := by
  simp [List.getD_eq_getElem?_getD, h]

/-- The sequential sum over the first `n` indices, by its partial sums (R163). -/
theorem dotAcc_map_range (x c acc : Nat → F64) (n : Nat)
    (h : ∀ k, k < n → ∃ p, refMul (x k) (c k) = some p ∧ refAdd (acc k) p = some (acc (k + 1))) :
    dotAcc ((List.range n).map x) ((List.range n).map c) (acc 0) = some (acc n) := by
  induction n generalizing x c acc with
  | zero => rfl
  | succ n ih =>
    obtain ⟨p, hp, ha⟩ := h 0 n.succ_pos
    rw [List.range_succ_eq_map, List.map_cons, List.map_cons, dotAcc, ieeeMul_of_refMul hp, Option.bind_some,
      ieeeAdd_of_refAdd ha, Option.bind_some, List.map_map, List.map_map]
    exact ih (x ∘ Nat.succ) (c ∘ Nat.succ) (acc ∘ Nat.succ) fun k hk => h (k + 1) (Nat.succ_lt_succ hk)

theorem absSum_map_range (x : Nat → F64) (n : Nat) :
    absSum ((List.range n).map x) = ∑ k ∈ Finset.range n, scaledMag (x k) := by
  rw [absSum, List.map_map, ← List.sum_toFinset _ List.nodup_range, List.toFinset_range]
  rfl

/-- An element of a reference kernel: the scale times the last partial sum (R163). -/
theorem element_ascending {b : Nat} {scale : F64} {x c acc : Nat → F64} {y : F64} {n : Nat} (angles : List Nat)
    (h0 : acc 0 = 0) (hx : ∀ k, k < n → finite (x k) = true)
    (hle : scaledMag scale * ∑ k ∈ Finset.range n, scaledMag (x k) ≤ maxScaled * 2 ^ 1074)
    (hacc : ∀ k, k < n → ∃ p, refMul (x k) (c k) = some p ∧ refAdd (acc k) p = some (acc (k + 1)))
    (hy : refMul scale (acc n) = some y) :
    element b scale ((List.range n).map x) angles
      (refElement scale ((List.range n).map x) ((List.range n).map c)) = some y := by
  have hfin : ∀ v ∈ (List.range n).map x, finite v = true :=
    List.forall_mem_map.2 fun k hk => hx k (List.mem_range.1 hk)
  rw [element_of_le angles _ hfin (by rwa [absSum_map_range]), refElement, ← h0, dotAcc_map_range x c acc n hacc,
    Option.bind_some, ieeeMul_of_refMul hy]

/-- Settles O47: an element of either kernel, over the row or the column of `COS`. -/
theorem referenceKernelsSumAscending : Obligations.ReferenceKernelsSumAscending := by
  intro cfg x acc y hnum h0
  refine ⟨fun n hn hx hle hacc hy => ?_, fun k hk hx hle hacc hy => ?_⟩
  · rw [imdct, getD_map_range _ hn, hnum]
    exact element_ascending _ h0 hx hle hacc hy
  · rw [mdct, getD_map_range _ hk, hnum]
    exact element_ascending _ h0 hx hle hacc hy

/-! ### N2 and the sign part of N4 -/

variable {a b : F64}

theorem scaledMag_mul_of_zero (h : isZero a = true ∨ isZero b = true) : scaledMag a * scaledMag b = 0 := by
  rcases h with h | h <;> simp [scaledMag_of_isZero h]

theorem mul_of_zero (num : Numerics) (ha : finite a = true) (hb : finite b = true)
    (h : isZero a = true ∨ isZero b = true) : ∃ r, mul num a b = some r ∧ isZero r = true := by
  cases num with
  | reference => exact ⟨_, refMul_of_zero ha hb h, isZero_zeroOf _⟩
  | other id =>
    refine ⟨_, ?_, isZero_zeroOf (sign a != zeroProductNeg id a b)⟩
    rw [mul, ha, hb, scaledMag_mul_of_zero h, decide_eq_true (Nat.zero_le _), if_pos (by rfl),
      if_pos (by simpa using h)]

/-- Adding a zero changes no other finite value. -/
theorem add_of_zero (num : Numerics) (ha : isZero a = true) (hb : finite b = true) (hb0 : isZero b = false) :
    add num a b = some b ∧ add num b a = some b := by
  have hle : (scaled b).natAbs ≤ maxScaled := by rw [scaled_natAbs]; exact scaledMag_le hb
  cases num with
  | reference => exact refAdd_of_zero ha hb hb0
  | other id => simp [add, finite_of_isZero ha, ha, hb, hb0, scaled_of_isZero ha, hle]

theorem add_zeros (num : Numerics) (ha : isZero a = true) (hb : isZero b = true) :
    ∃ r, add num a b = some r ∧ isZero r = true ∧ (sign a = false ∨ sign b = false → r = 0) := by
  cases num with
  | reference =>
    refine ⟨_, refAdd_zeros ha hb, isZero_zeroOf _, ?_⟩
    rintro (h | h) <;> simp [h, zeroOf_false]
  | other id =>
    refine ⟨zeroOf (sign a && sign b && Config.otherZeroNeg id a b), ?_, isZero_zeroOf _, ?_⟩
    · simp [add, finite_of_isZero, ha, hb, scaled_of_isZero]
    · rintro (h | h) <;> simp [h, zeroOf_false]

theorem cosines_finite {m : Nat} (b : Nat) (n k : Nat → Nat) :
    ∀ c ∈ (List.range m).map fun i => cosEntry b (n i) (k i), finite c = true :=
  List.forall_mem_map.2 fun i _ => cosEntry_finite b (n i) (k i)

/-- An element of a kernel on zeros: a zero, +0 if the scale is positive. -/
theorem element_of_zeros {scale : F64} {xs cosines : List F64} {value : Option F64} (b : Nat) (angles : List Nat)
    (hs : finite scale = true) (hx : ∀ x ∈ xs, isZero x = true) (hc : ∀ c ∈ cosines, finite c = true)
    (hv : value = refElement scale xs cosines ∨ ∃ v, value = otherElement xs v) :
    ∃ r, element b scale xs angles value = some r ∧ isZero r = true ∧ (sign scale = false → r = 0) := by
  rw [element_zeros b scale angles value hx]
  rcases hv with rfl | ⟨v, rfl⟩
  · refine ⟨_, refElement_zeros hs hx hc, isZero_zeroOf _, fun h => ?_⟩
    rw [h, zeroOf_false]
  · exact ⟨0, otherElement_zeros v hx, by decide, fun _ => rfl⟩

/-- N2 holds in every instance whose scales are finite. -/
theorem n2_of_scalesOk {cfg : Cfg} (h : cfg.ScalesOk) : N2 cfg where
  mul _ _ := mul_of_zero cfg.numerics
  addLeft _ _ ha hb hb0 := (add_of_zero cfg.numerics ha hb hb0).1
  addRight _ _ hb ha ha0 := (add_of_zero cfg.numerics hb ha ha0).2
  addZeros _ _ := add_zeros cfg.numerics
  imdct xs hx n hn := by
    rw [imdct, getD_map_range _ hn]
    refine element_of_zeros _ _ h.1 hx (cosines_finite (m := cfg.blockSize) cfg.blockSize (fun _ => n) fun k => k) ?_
    cases cfg.numerics with
    | reference => exact .inl rfl
    | other id => exact .inr ⟨_, rfl⟩
  mdct zw hx k hk := by
    rw [mdct, getD_map_range _ hk]
    refine element_of_zeros _ _ h.2.2.1 hx
      (cosines_finite (m := 2 * cfg.blockSize) cfg.blockSize (fun n => n) fun _ => k) ?_
    cases cfg.numerics with
    | reference => exact .inl rfl
    | other id => exact .inr ⟨_, rfl⟩

/-- Settles O49: N2 needs the scales to be finite; the sign part of N4 holds of every record. -/
theorem numericsRespectZerosAndSigns : Obligations.NumericsRespectZerosAndSigns :=
  fun cfg h => ⟨n2_of_scalesOk h, fun a b _ _ => mul_neg_first cfg.numerics a b⟩

end Sys2Proof.Arith
end

section
/-! PROOFS. The transform commands of spec/43_transform.md: what `IMDCT` and `MDCT` write where the arithmetic is
specified (R165, R166), and what they do with silence (R168). -/

namespace Sys2Proof.Machine

open F64 Arith

variable {s : State} {c : ChanIx}

/-! ### The effects -/

/-- The state after an `IMDCT c` whose checks pass (R165). -/
theorem exec_imdct (hr : s.Ready c) (hdir : s.cfgDir = 0) (hfsm : (s.chan c).fsm = .loaded)
    (hx : ∀ k, k < s.blockSize → finite ((s.chan c).xAt k) = true)
    (hov : ∀ n, n < s.blockSize → finite ((s.chan c).ovAt n) = true) :
    exec (.imdct c) s = .next (s.imdctBody c).complete :=
  State.command_ok hr.tables ((s.imdctChecks_none c).2 ⟨hr.run, hdir, hr.inRange, hfsm, hx, hov⟩)

/-- The state after an `MDCT c` whose checks pass (R166). -/
theorem exec_mdct (hr : s.Ready c) (hdir : s.cfgDir = 1) (hfsm : (s.chan c).fsm = .loaded)
    (hov : ∀ n, n < s.blockSize → finite ((s.chan c).ovAt n) = true)
    (ht : ∀ n, n < s.blockSize → finite ((s.chan c).tAt n) = true) :
    exec (.mdct c) s = .next (s.mdctBody c).complete :=
  State.command_ok hr.tables ((s.mdctChecks_none c).2 ⟨hr.run, hdir, hr.inRange, hfsm, hov, ht⟩)

theorem imdctBody_tAt {n : Nat} (hn : n < s.blockSize) :
    ((s.imdctBody c).complete.chan c).tAt n = s.imdctSample c (s.imdctWindowed c) n := by
  simp [State.imdctBody, Chan.tAt, hn]

theorem imdctBody_ovAt {n : Nat} (hn : n < s.blockSize) :
    ((s.imdctBody c).complete.chan c).ovAt n = s.imdctTail c (s.imdctWindowed c) n := by
  simp [State.imdctBody, Chan.ovAt, hn]

theorem mdctBody_xAt {k : Nat} (hk : k < s.blockSize) :
    ((s.mdctBody c).complete.chan c).xAt k = s.mdctLine c (s.mdctElements c) k := by
  simp [State.mdctBody, Chan.xAt, hk]

theorem mdctBody_ovAt {n : Nat} (hn : n < s.blockSize) :
    ((s.mdctBody c).complete.chan c).ovAt n = (s.chan c).tAt n := by
  simp [State.mdctBody, Chan.ovAt, hn]

/-! ### Specified elements -/

/-- A windowed sample of the inverse transform is the product with the window's entry (R165). -/
theorem imdctWindowed_specified {n : Nat} (hn : n < 2 * s.blockSize) {a b : F64}
    (ha : (imdct s.cfg ((List.range s.blockSize).map (s.chan c).xAt)).getD n none = some a)
    (hb : mul s.cfg.numerics a (s.windowAt n) = some b) : (s.imdctWindowed c).getD n none = some b := by
  rw [State.imdctWindowed, getD_map_range _ hn, ha]
  exact hb

theorem imdctSample_specified {yw : List (Option F64)} {n : Nat} {b d : F64} (hb : yw.getD n none = some b)
    (hd : add s.cfg.numerics b ((s.chan c).ovAt n) = some d) : s.imdctSample c yw n = d := by
  rw [State.imdctSample, hb, Option.bind_some, hd, Option.getD_some]

theorem imdctTail_specified {yw : List (Option F64)} {n : Nat} {b : F64}
    (hb : yw.getD (n + s.blockSize) none = some b) : s.imdctTail c yw n = b := by
  rw [State.imdctTail, hb, Option.getD_some]

theorem allSome_map {α : Type} {f : α → Option F64} {g : α → F64} (l : List α) (h : ∀ a ∈ l, f a = some (g a)) :
    allSome (l.map f) = some (l.map g) := by
  induction l with
  | nil => rfl
  | cons a rest ih =>
    rw [List.forall_mem_cons] at h
    rw [List.map_cons, h.1, allSome, ih h.2]
    rfl

/-- The input of `MDCT` is the previous block, then the current one (R166). -/
theorem mdctInput_forall (P : Nat → F64 → Prop) (hov : ∀ n, n < s.blockSize → P n ((s.chan c).ovAt n))
    (ht : ∀ n, n < s.blockSize → P (n + s.blockSize) ((s.chan c).tAt n)) {n : Nat} (hn : n < 2 * s.blockSize) :
    P n (s.mdctInput c n) := by
  unfold State.mdctInput
  split
  · next h => exact hov n h
  · next h =>
    have := ht (n - s.blockSize) (by omega)
    rwa [Nat.sub_add_cancel (Nat.not_lt.1 h)] at this

/-- With every windowed sample specified, the elements are those of the forward transform (R166). -/
theorem mdctElements_specified {zw : Nat → F64}
    (h : ∀ n, n < 2 * s.blockSize → mul s.cfg.numerics (s.mdctInput c n) (s.windowAt n) = some (zw n)) :
    s.mdctElements c = mdct s.cfg ((List.range (2 * s.blockSize)).map zw) := by
  have hw : s.mdctWindowed c = some ((List.range (2 * s.blockSize)).map zw) :=
    allSome_map _ fun n hn => h n (List.mem_range.1 hn)
  rw [State.mdctElements, hw]

theorem mdctLine_specified {xs : List (Option F64)} {k : Nat} {y : F64} (h : xs.getD k none = some y) :
    s.mdctLine c xs k = y := by
  rw [State.mdctLine, h, Option.getD_some]

/-- Settles O39: the checks pass, and each half is made of windowed samples, where they are specified. -/
theorem imdctOverlapAdds : Obligations.ImdctOverlapAdds := by
  intro s c hr hdir hfsm hfin
  refine ⟨_, exec_imdct hr hdir hfsm (fun k hk => (hfin k hk).1) fun n hn => (hfin n hn).2, channelFrame_setChan s c _,
    ?_, ?_, ?_, fun n hn => ⟨fun a b d ha hb hd => ?_, fun a b ha hb => ?_⟩⟩
  · simp [State.imdctBody]
  · simp [State.imdctBody]
  · simp [State.imdctBody]
  · rw [imdctBody_tAt hn]
    exact imdctSample_specified (imdctWindowed_specified (by omega) ha hb) hd
  · rw [imdctBody_ovAt hn]
    exact imdctTail_specified (imdctWindowed_specified (by omega) ha hb)

/-- Settles O40: the checks pass, the windowed samples are those of the two blocks, and `OV` is a copy of `T`. -/
theorem mdctTransformsTheConcatenation : Obligations.MdctTransformsTheConcatenation := by
  intro s c hr hdir hfsm hfin
  refine ⟨_, exec_mdct hr hdir hfsm (fun n hn => (hfin n hn).1) fun n hn => (hfin n hn).2, channelFrame_setChan s c _,
    ?_, ?_, ?_, fun n hn => mdctBody_ovAt hn, fun zw hfirst hsecond k hk y hy => ?_⟩
  · simp [State.mdctBody]
  · simp [State.mdctBody]
  · simp [State.mdctBody]
  · have hzw : ∀ n, n < 2 * s.blockSize → mul s.cfg.numerics (s.mdctInput c n) (s.windowAt n) = some (zw n) :=
      fun n => mdctInput_forall (fun n z => mul s.cfg.numerics z (s.windowAt n) = some (zw n)) hfirst hsecond
    rw [mdctBody_xAt hk, mdctElements_specified hzw]
    exact mdctLine_specified hy

/-! ### Silence (R168) -/

/-- A zero spectrum has zeros as windowed samples (N2). -/
theorem imdctWindowed_zeros (h2 : N2 s.cfg) (hw : ∀ n, n < 2 * s.blockSize → finite (s.windowAt n) = true)
    (hx : ∀ k, k < s.blockSize → isZero ((s.chan c).xAt k) = true) {n : Nat} (hn : n < 2 * s.blockSize) :
    ∃ z, (s.imdctWindowed c).getD n none = some z ∧ isZero z = true := by
  have hxs : ∀ x ∈ (List.range s.blockSize).map (s.chan c).xAt, isZero x = true :=
    List.forall_mem_map.2 fun k hk => hx k (List.mem_range.1 hk)
  obtain ⟨y, hy, hy0, -⟩ := h2.imdct _ hxs n hn
  obtain ⟨z, hz, hz0⟩ := h2.mul y (s.windowAt n) (finite_of_isZero hy0) (hw n hn) (.inl hy0)
  exact ⟨z, imdctWindowed_specified hn hy hz, hz0⟩

/-- Adding a zero keeps the value of a finite number (N2). -/
theorem add_zero_scaled {cfg : Cfg} (h2 : N2 cfg) {z x : F64} (hz : isZero z = true) (hx : finite x = true) :
    ∃ r, add cfg.numerics z x = some r ∧ scaled r = scaled x := by
  cases hx0 : isZero x with
  | false => exact ⟨x, h2.addLeft z x hz hx hx0, rfl⟩
  | true =>
    obtain ⟨r, hr, hr0, -⟩ := h2.addZeros z x hz hx0
    exact ⟨r, hr, by rw [scaled_of_isZero hr0, scaled_of_isZero hx0]⟩

/-- Settles O44: the windowed samples are zeros, so the first half is the old tail and the second half is zero. -/
theorem zeroSpectrumFlushesTheTail : Obligations.ZeroSpectrumFlushesTheTail := by
  intro s c hr hdir hfsm hscales hw hov hx
  have h2 := n2_of_scalesOk hscales
  refine ⟨_, exec_imdct hr hdir hfsm (fun k hk => finite_of_isZero (hx k hk)) hov, rfl, fun n hn => ⟨?_, ?_⟩⟩
  · obtain ⟨z, hz, hz0⟩ := imdctWindowed_zeros (c := c) h2 hw hx (show n < 2 * s.blockSize by omega)
    obtain ⟨r, hadd, hval⟩ := add_zero_scaled h2 hz0 (hov n hn)
    rw [imdctBody_tAt hn, imdctSample_specified hz hadd, hval]
  · obtain ⟨z, hz, hz0⟩ := imdctWindowed_zeros (c := c) h2 hw hx (show n + s.blockSize < 2 * s.blockSize by omega)
    rw [imdctBody_ovAt hn, imdctTail_specified hz, hz0]

/-- Two silent blocks have a silent spectrum (N2). -/
theorem mdctElements_zeros (h2 : N2 s.cfg) (hw : ∀ n, n < 2 * s.blockSize → finite (s.windowAt n) = true)
    (hz : ∀ n, n < 2 * s.blockSize → isZero (s.mdctInput c n) = true) {k : Nat} (hk : k < s.blockSize) :
    ∃ y, (s.mdctElements c).getD k none = some y ∧ isZero y = true := by
  have hprod : ∀ n, ∃ r, n < 2 * s.blockSize →
      mul s.cfg.numerics (s.mdctInput c n) (s.windowAt n) = some r ∧ isZero r = true := fun n => by
    by_cases hn : n < 2 * s.blockSize
    · obtain ⟨r, h⟩ := h2.mul _ _ (finite_of_isZero (hz n hn)) (hw n hn) (.inl (hz n hn))
      exact ⟨r, fun _ => h⟩
    · exact ⟨0, fun h => absurd h hn⟩
  choose zw hzw using hprod
  obtain ⟨y, hy, hy0, -⟩ := h2.mdct ((List.range (2 * s.blockSize)).map zw)
    (List.forall_mem_map.2 fun n hn => (hzw n (List.mem_range.1 hn)).2) k hk
  exact ⟨y, by rw [mdctElements_specified fun n hn => (hzw n hn).1, hy], hy0⟩

/-- Settles O43: decoding is O44 with a silent tail; encoding has two silent blocks. -/
theorem silenceInSilenceOut : Obligations.SilenceInSilenceOut := by
  intro s c hr hfsm hscales hw hov
  refine ⟨fun hdir hx => ?_, fun hdir ht => ?_⟩
  · obtain ⟨t, he, hresp, hflush⟩ := zeroSpectrumFlushesTheTail s c hr hdir hfsm hscales hw
      (fun n hn => finite_of_isZero (hov n hn)) hx
    refine ⟨t, he, hresp, fun n hn => ⟨?_, (hflush n hn).2⟩⟩
    rw [isZero_iff_scaled, (hflush n hn).1, scaled_of_isZero (hov n hn)]
  · refine ⟨_, exec_mdct hr hdir hfsm (fun n hn => finite_of_isZero (hov n hn)) fun n hn => finite_of_isZero (ht n hn),
      rfl, fun n hn => ⟨?_, ?_⟩⟩
    · obtain ⟨y, hy, hy0⟩ := mdctElements_zeros (c := c) (n2_of_scalesOk hscales) hw
        (fun _ => mdctInput_forall (fun _ z => isZero z = true) hov ht) hn
      rw [mdctBody_xAt hn, mdctLine_specified hy, hy0]
    · rw [mdctBody_ovAt hn, ht n hn]

end Sys2Proof.Machine
end

section
/-! PROOFS. The cosines of the reference kernels (R163, log 12): the angle is reduced to the first quadrant, the series
is summed in fixed point, and the sum is rounded once. -/

namespace Sys2Proof.F64

open Arith

/-! ### Rounding a number of at most 1 -/

/-- A nearest multiple of `unit` lies within half a unit. -/
theorem abs_nearest_sub_le {m num unit : Nat} (hpos : 0 < unit) (h : (m = num / unit ∧ 2 * (num % unit) ≤ unit) ∨
    (m = num / unit + 1 ∧ unit ≤ 2 * (num % unit))) : |(m * unit : ℝ) - num| ≤ unit / 2 := by
  have hdiv : (unit * (num / unit : Nat) + (num % unit : Nat) : ℝ) = num := by exact_mod_cast Nat.div_add_mod num unit
  have hlt : ((num % unit : Nat) : ℝ) ≤ unit := by exact_mod_cast (Nat.mod_lt num hpos).le
  rcases h with ⟨rfl, hle⟩ | ⟨rfl, hle⟩
  · have hle : 2 * ((num % unit : Nat) : ℝ) ≤ unit := by exact_mod_cast hle
    rw [← hdiv, abs_le]
    constructor <;> linarith [Nat.cast_nonneg (α := ℝ) (num % unit)]
  · have hle : (unit : ℝ) ≤ 2 * (num % unit : Nat) := by exact_mod_cast hle
    rw [← hdiv, abs_le]
    push_cast
    constructor <;> linarith

/-- A number of at most `2^(e + 53)` is rounded by at most half of `2^e`. -/
theorem abs_roundBits_sub_le {num den e : Nat} (hd : 0 < den) (h : num ≤ den * 2 ^ (e + 53)) :
    |(magVal (roundBits num den) * den : ℝ) - num| ≤ (den * 2 ^ e : Nat) / 2 := by
  obtain ⟨hb, hge, -, hr⟩ := roundSig_spec num den hd
  rw [roundBits]
  generalize roundSig 53 num den = rs at *
  obtain ⟨m, sh⟩ := rs
  simp only at *
  have hpos : 0 < den * 2 ^ sh := by positivity
  have hunit : ((m * 2 ^ sh : Nat) * den : ℝ) = m * (den * 2 ^ sh : Nat) := by push_cast; ring
  rw [magVal_pack sh m hb, hunit]
  by_cases hsh : sh ≤ e
  · have hle : den * 2 ^ sh ≤ den * 2 ^ e := Nat.mul_le_mul_left _ (Nat.pow_le_pow_right two_pos hsh)
    have herr := abs_nearest_sub_le hpos (hr.imp (fun h => ⟨h.1, h.2.1⟩) fun h => ⟨h.1, h.2.1⟩)
    exact herr.trans (div_le_div_of_nonneg_right (Nat.cast_le.2 hle) two_pos.le)
  · have hone : den * 2 ^ (e + 53) ≤ den * 2 ^ sh * 2 ^ 52 := by
      rw [Nat.mul_assoc, ← pow_add]
      exact Nat.mul_le_mul_left _ (Nat.pow_le_pow_right two_pos (by omega))
    have hexact : num = den * 2 ^ sh * 2 ^ 52 := le_antisymm (h.trans hone)
      ((Nat.mul_le_mul_left _ (hge.resolve_left (by omega))).trans (Nat.mul_div_le num _))
    have hm : m = 2 ^ 52 := by
      rw [hexact, Nat.mul_div_cancel_left _ hpos, Nat.mul_mod_right] at hr
      omega
    have hzero : (m * (den * 2 ^ sh : Nat) : ℝ) - num = 0 := by
      rw [hm, hexact]
      push_cast
      ring
    rw [hzero, abs_zero]
    positivity

/-- `ofRat` of a number of at most 1 lies within 2^-54 of it. -/
theorem abs_val_ofRat_sub_le (isNeg : Bool) {num den : Nat} (hd : 0 < den) (h : num ≤ den) :
    |val (ofRat isNeg num den) - (if isNeg then -1 else 1) * ((num : ℝ) / den)| ≤ 1 / 2 ^ 54 := by
  have hle : num * 2 ^ 1074 ≤ den * 2 ^ 1074 := Nat.mul_le_mul_right _ h
  have hfin : num * 2 ^ 1074 ≤ maxScaled * den := by
    rw [Nat.mul_comm maxScaled]
    exact hle.trans (Nat.mul_le_mul_left _ (scaledMag_one ▸ scaledMag_le (by decide)))
  have hval : val (ofRat isNeg num den) =
      (if isNeg then -1 else 1) * ((magVal (roundBits (num * 2 ^ 1074) den) : ℝ) / 2 ^ 1074) := by
    rw [val, scaled, ofRat, sign_ofSignMag, scaledMag_eq, magBits_roundBits hd hfin]
    cases isNeg
    · rw [if_neg Bool.false_ne_true, if_neg Bool.false_ne_true, Int.cast_natCast, one_mul]
    · rw [if_pos rfl, if_pos rfl, Int.cast_neg, Int.cast_natCast, neg_div, neg_one_mul]
  obtain ⟨e, he⟩ : ∃ e, e + 53 = 1074 := ⟨1021, rfl⟩
  have herr := abs_roundBits_sub_le (e := e) hd (hle.trans_eq (by rw [he]))
  have hpos : (0 : ℝ) < den := Nat.cast_pos.2 hd
  have hsplit : (2 : ℝ) ^ 1074 = 2 ^ e * 2 ^ 53 := by rw [← pow_add, he]
  have hunit : (0 : ℝ) < 2 ^ e := by positivity
  rw [hval, ← mul_sub, abs_mul, show |(if isNeg then (-1 : ℝ) else 1)| = 1 by cases isNeg <;> simp, one_mul]
  rw [Nat.cast_mul num, Nat.cast_mul den, Nat.cast_pow, Nat.cast_pow, Nat.cast_ofNat] at herr
  rw [hsplit] at herr ⊢
  generalize (2 : ℝ) ^ e = unit at *
  rw [div_sub_div _ _ (by positivity) hpos.ne', abs_div, abs_of_pos (show 0 < unit * 2 ^ 53 * den by positivity),
    div_le_iff₀ (by positivity), mul_comm (unit * 2 ^ 53)]
  calc _ ≤ den * unit / 2 := herr
    _ = _ := by ring

/-! ### The reduction to the first quadrant -/

theorem cos_reduceAngle (m : Nat) {d : Nat} (hd : 0 < d) : 2 * (reduceAngle m d).1 ≤ d ∧
    Real.cos (Real.pi * (m / d)) =
      (if (reduceAngle m d).2 then -1 else 1) * Real.cos (Real.pi * ((reduceAngle m d).1 / d)) := by
  have hd' : (d : ℝ) ≠ 0 := Nat.cast_ne_zero.2 hd.ne'
  have hturn : Real.cos (Real.pi * (m / d)) = Real.cos (Real.pi * ((m % (2 * d) : Nat) / d)) := by
    have hm : (m : ℝ) = 2 * d * (m / (2 * d) : Nat) + (m % (2 * d) : Nat) := by
      exact_mod_cast (Nat.div_add_mod m (2 * d)).symm
    rw [← Real.cos_add_nat_mul_two_pi (Real.pi * ((m % (2 * d) : Nat) / d)) (m / (2 * d))]
    congr 1
    conv_lhs => rw [hm]
    field_simp
    ring
  have hlt := Nat.mod_lt m (show 0 < 2 * d by omega)
  obtain ⟨b, hb⟩ : ∃ b, b = if d < m % (2 * d) then 2 * d - m % (2 * d) else m % (2 * d) := ⟨_, rfl⟩
  have hr : reduceAngle m d = if d < 2 * b then (d - b, true) else (b, false) := by rw [hb]; rfl
  have hle : b ≤ d := by rw [hb]; split <;> omega
  have hfold : Real.cos (Real.pi * ((m % (2 * d) : Nat) / d)) = Real.cos (Real.pi * (b / d)) := by
    rw [hb]
    split
    · rw [← Real.cos_two_pi_sub, Nat.cast_sub hlt.le]
      congr 1
      push_cast
      field_simp
    · rfl
  rw [hturn, hfold, hr]
  split
  · refine ⟨by dsimp only; omega, ?_⟩
    have hsupplement : Real.pi * ((d - b : Nat) / d) = Real.pi - Real.pi * (b / d) := by
      rw [Nat.cast_sub hle]
      field_simp
    simp [hsupplement]
  · exact ⟨by dsimp only; omega, by simp⟩

/-! ### The series -/

/-- The first `f` terms from term `j` on of the series of `cos`, in units of term `j`; `y` is the square of the
angle. -/
noncomputable def cosTail (y : ℝ) : ℕ → ℕ → ℝ
  | 0, _ => 0
  | f + 1, j => 1 - y / ((2 * j + 1) * (2 * j + 2)) * cosTail y f (j + 1)

theorem cosTail_bounds {y : ℝ} (h0 : 0 ≤ y) (h12 : y ≤ 12) (f j : ℕ) (hj : 1 ≤ j) :
    0 ≤ cosTail y f j ∧ cosTail y f j ≤ 1 := by
  induction f generalizing j with
  | zero => exact ⟨le_refl _, zero_le_one⟩
  | succ f ih =>
    obtain ⟨hlo, hhi⟩ := ih (j + 1) (by omega)
    have hj' : (1 : ℝ) ≤ j := by exact_mod_cast hj
    have hfactor : y / ((2 * j + 1) * (2 * j + 2)) ≤ 1 := by
      rw [div_le_one (by positivity)]
      nlinarith
    have hfactor0 : 0 ≤ y / ((2 * j + 1) * (2 * j + 2)) := by positivity
    rw [cosTail]
    constructor <;> nlinarith

/-- The terms written out: with `j` = 0, a Taylor polynomial of `cos` at the root of `y`. -/
theorem cosTail_eq_sum (y : ℝ) (f j : ℕ) :
    cosTail y f j = ∑ i ∈ Finset.range f, (-y) ^ i * (2 * j).factorial / (2 * (j + i)).factorial := by
  induction f generalizing j with
  | zero => rfl
  | succ f ih =>
    rw [cosTail, ih, Finset.sum_range_succ', Finset.mul_sum, sub_eq_neg_add, ← Finset.sum_neg_distrib]
    congr 1
    · refine Finset.sum_congr rfl fun i _ => ?_
      have hfact : ((2 * (j + 1)).factorial : ℝ) = (2 * j + 2) * (2 * j + 1) * (2 * j).factorial := by
        rw [show 2 * (j + 1) = 2 * j + 1 + 1 by ring, Nat.factorial_succ, Nat.factorial_succ]
        push_cast
        ring
      rw [hfact, show j + 1 + i = j + (i + 1) by ring]
      field_simp
      ring
    · simp [Nat.factorial_ne_zero]

/-- The real part of the series of `exp` at an imaginary number is the series of `cos`. -/
theorem re_exp_sum (x : ℝ) (f : ℕ) :
    (∑ m ∈ Finset.range (2 * f), (x * Complex.I) ^ m / m.factorial).re = cosTail (x ^ 2) f 0 := by
  rw [cosTail_eq_sum]
  induction f with
  | zero => rfl
  | succ f ih =>
    have hpow : (x * Complex.I) ^ (2 * f) = ((-x ^ 2) ^ f : ℝ) := by
      rw [pow_mul, mul_pow, Complex.I_sq, mul_neg_one]
      push_cast
      rfl
    have heven : ((x * Complex.I) ^ (2 * f) / (2 * f).factorial).re = (-x ^ 2) ^ f / (2 * f).factorial := by
      rw [hpow, ← Complex.ofReal_natCast, ← Complex.ofReal_div, Complex.ofReal_re]
    have hodd : ((x * Complex.I) ^ (2 * f + 1) / (2 * f + 1).factorial).re = 0 := by
      have himaginary : (x * Complex.I) ^ (2 * f + 1) / (2 * f + 1).factorial =
          ((-x ^ 2) ^ f * x / (2 * f + 1).factorial : ℝ) * Complex.I := by
        rw [pow_succ, hpow]
        push_cast
        ring
      rw [himaginary, Complex.re_ofReal_mul, Complex.I_re, mul_zero]
    rw [show 2 * (f + 1) = 2 * f + 1 + 1 by ring, Finset.sum_range_succ, Finset.sum_range_succ, Complex.add_re,
      Complex.add_re, ih, Finset.sum_range_succ, heven, hodd]
    simp

theorem two_pow_mul_self_le_factorial (n : ℕ) : (2 : ℝ) ^ n * 2 ^ n ≤ (3 + n).factorial := by
  have h4 : 4 ^ n ≤ (3 + n).factorial :=
    (Nat.le_mul_of_pos_left _ (Nat.factorial_pos 3)).trans Nat.factorial_mul_pow_le_factorial
  calc (2 : ℝ) ^ n * 2 ^ n = (4 ^ n : ℕ) := by rw [← mul_pow]; norm_num
    _ ≤ _ := Nat.cast_le.2 h4

/-- 161 terms, as the model takes them at 160 fraction bits, are near the cosine. -/
theorem abs_cos_sub_cosTail_le {x : ℝ} (hx : |x| ≤ 2) :
    |Real.cos x - cosTail (x ^ 2) 161 0| ≤ 1 / 2 ^ 60 := by
  have hnorm : ‖(x * Complex.I : ℂ)‖ = |x| := by simp
  have hexp := Complex.exp_bound' (x := x * Complex.I) (n := 2 * 161) (by rw [hnorm]; norm_num; linarith)
  have hre := (Complex.abs_re_le_norm _).trans hexp
  rw [Complex.sub_re, Complex.exp_ofReal_mul_I_re, re_exp_sum, hnorm] at hre
  have hfact : (2 : ℝ) ^ 319 * 2 ^ 319 ≤ (2 * 161).factorial := two_pow_mul_self_le_factorial 319
  have hpow : |x| ^ (2 * 161) ≤ 2 ^ 319 * 2 ^ 3 :=
    (pow_le_pow_left₀ (abs_nonneg x) hx _).trans_eq (by rw [← pow_add])
  have hlarge : (2 : ℝ) ^ 64 ≤ 2 ^ 319 := pow_le_pow_right₀ one_le_two (by norm_num)
  have hpos : (0 : ℝ) < 2 ^ 319 := by positivity
  generalize (2 : ℝ) ^ 319 = v at *
  calc _ ≤ |x| ^ (2 * 161) / (2 * 161).factorial * 2 := hre
    _ ≤ v * 2 ^ 3 / (v * v) * 2 := by gcongr
    _ = 2 ^ 4 / v := by field_simp
    _ ≤ 2 ^ 4 / 2 ^ 64 := by gcongr
    _ = 1 / 2 ^ 60 := by norm_num

theorem abs_div_sub_eq {u : ℝ} (hu : 0 < u) (y v : ℝ) : |y / u - v| = |y - u * v| / u := by
  rw [← abs_of_pos hu, ← abs_div, abs_of_pos hu, sub_div, mul_div_cancel_left₀ v hu.ne']

theorem abs_natDiv_sub_le (a b : ℕ) : |((a / b : ℕ) : ℝ) - a / b| ≤ 1 := by
  rw [← Nat.floor_div_eq_div (K := ℝ), abs_le]
  have hlo := Nat.lt_floor_add_one ((a : ℝ) / b)
  have hhi := Nat.floor_le (show 0 ≤ (a : ℝ) / b by positivity)
  constructor <;> linarith

/-- The fixed-point sum loses at most one unit a term. -/
theorem abs_cosSeries_sub_le {p x2 : ℕ} (h : x2 ≤ 12 * 2 ^ (2 * p)) (fuel t j : ℕ) (isNeg : Bool) (acc : ℤ) :
    |(cosSeries p fuel t x2 j isNeg acc : ℝ) -
      (acc + (if isNeg then -1 else 1) * (t * cosTail (x2 / 2 ^ (2 * p)) fuel j))| ≤ fuel := by
  induction fuel generalizing t j isNeg acc with
  | zero => simp [cosSeries, cosTail]
  | succ fuel ih =>
    rw [cosSeries]
    split
    · next ht => simp [ht]; positivity
    · set t' := t * x2 / (2 ^ (2 * p) * ((2 * j + 1) * (2 * j + 2)))
      have hy12 : (x2 : ℝ) / 2 ^ (2 * p) ≤ 12 := by
        rw [div_le_iff₀ (by positivity)]
        exact_mod_cast h
      obtain ⟨hlo, hhi⟩ := cosTail_bounds (by positivity) hy12 fuel (j + 1) (by omega)
      have hfloor : |(t' : ℝ) - t * (x2 / 2 ^ (2 * p) / ((2 * j + 1) * (2 * j + 2)))| ≤ 1 := by
        have := abs_natDiv_sub_le (t * x2) (2 ^ (2 * p) * ((2 * j + 1) * (2 * j + 2)))
        push_cast at this
        rwa [mul_div_assoc, ← div_div] at this
      have hnext := ih t' (j + 1) (!isNeg) (if isNeg = true then acc - t else acc + t)
      rw [cosTail]
      generalize cosTail (x2 / 2 ^ (2 * p)) fuel (j + 1) = tail at *
      generalize (x2 : ℝ) / 2 ^ (2 * p) / ((2 * j + 1) * (2 * j + 2)) = q at *
      have hloss : |((t' : ℝ) - t * q) * tail| ≤ 1 := by
        rw [abs_mul, abs_of_nonneg hlo]
        exact mul_le_one₀ hfloor hlo hhi
      rw [abs_le] at hnext hloss ⊢
      cases isNeg <;>
        simp only [Bool.not_false, Bool.not_true, Bool.false_eq_true, if_true, if_false, Int.cast_add, Int.cast_sub,
          Int.cast_natCast, Nat.cast_succ] at hnext ⊢ <;>
        constructor <;> linarith

/-- The fixed-point sum of the series at the angle `x / 2^p`. -/
theorem abs_cosSeries_start_sub_le {p x : ℕ} (hx : x ≤ 2 * 2 ^ p) (fuel : ℕ) :
    |(cosSeries p fuel (2 ^ p) (x * x) 0 false 0 : ℝ) / 2 ^ p - cosTail ((x / 2 ^ p) ^ 2) fuel 0| ≤ fuel / 2 ^ p := by
  have hsquare : x * x ≤ 12 * 2 ^ (2 * p) := by
    rw [two_mul p, pow_add]
    nlinarith [Nat.mul_le_mul hx hx]
  have hsum := abs_cosSeries_sub_le hsquare fuel (2 ^ p) 0 false 0
  have hangle : ((x * x : ℕ) : ℝ) / 2 ^ (2 * p) = (x / 2 ^ p) ^ 2 := by
    rw [Nat.cast_mul, div_pow, ← pow_mul, mul_comm p, sq]
  rw [hangle, Int.cast_zero, if_neg Bool.false_ne_true, zero_add, one_mul, Nat.cast_pow, Nat.cast_ofNat] at hsum
  rw [abs_div_sub_eq (by positivity)]
  gcongr

/-! ### The cosine of an angle of the first quadrant -/

theorem abs_clamp_sub_le {z : ℤ} {p : ℕ} {v : ℝ} (h0 : 0 ≤ v) (h1 : v ≤ 2 ^ p) :
    |((min z.toNat (2 ^ p) : ℕ) : ℝ) - v| ≤ |(z : ℝ) - v| := by
  rcases lt_or_ge z 0 with hz | hz
  · have hz' : (z : ℝ) < 0 := by exact_mod_cast hz
    rw [Int.toNat_of_nonpos hz.le, Nat.zero_min, Nat.cast_zero, abs_of_nonpos (by linarith),
      abs_of_nonpos (by linarith)]
    linarith
  · lift z to ℕ using hz
    rw [Int.toNat_natCast, Int.cast_natCast]
    rcases le_total z (2 ^ p) with hle | hle
    · rw [min_eq_left hle]
    · have hle' : (2 : ℝ) ^ p ≤ z := by exact_mod_cast hle
      rw [min_eq_right hle, Nat.cast_pow, Nat.cast_ofNat, abs_of_nonneg (by linarith), abs_of_nonneg (by linarith)]
      linarith

theorem abs_clamp_div_sub_le {z : ℤ} {p : ℕ} {v : ℝ} (h0 : 0 ≤ v) (h1 : v ≤ 1) :
    |((min z.toNat (2 ^ p) : ℕ) : ℝ) / 2 ^ p - v| ≤ |(z : ℝ) / 2 ^ p - v| := by
  have hpos : (0 : ℝ) < 2 ^ p := by positivity
  rw [abs_div_sub_eq hpos, abs_div_sub_eq hpos]
  exact div_le_div_of_nonneg_right
    (abs_clamp_sub_le (mul_nonneg hpos.le h0) (mul_le_of_le_one_right hpos.le h1)) hpos.le

/-- `piFix` is π to the 20 decimal digits that are known of π in the library. -/
theorem abs_piFix_sub_le : |(piFix : ℝ) / 2 ^ 160 - Real.pi| ≤ 1 / 2 ^ 60 := by
  have hlo : (3.14159265358979323846 : ℝ) ≤ piFix / 2 ^ 160 := by rw [piFix]; norm_num
  have hhi : (piFix : ℝ) / 2 ^ 160 ≤ 3.14159265358979323847 := by rw [piFix]; norm_num
  have hdigits : (3.14159265358979323847 : ℝ) - 3.14159265358979323846 ≤ 1 / 2 ^ 60 := by norm_num
  rw [abs_le]
  constructor <;> linarith [Real.pi_gt_d20, Real.pi_lt_d20]

theorem ratio_le_half {a d : ℕ} (hd : 0 < d) (ha : 2 * a ≤ d) : (a : ℝ) / d ≤ 1 / 2 := by
  have hle : (2 * a : ℝ) ≤ d := by exact_mod_cast ha
  rw [div_le_div_iff₀ (Nat.cast_pos.2 hd) two_pos]
  linarith

/-- The fixed-point angle is right to 2^-60. -/
theorem abs_fixedAngle_sub_le {a d : ℕ} (hd : 0 < d) (ha : 2 * a ≤ d) :
    |((piFix * a / d : ℕ) : ℝ) / 2 ^ 160 - Real.pi * (a / d)| ≤ 1 / 2 ^ 60 := by
  have hratio := ratio_le_half hd ha
  have hfloor := abs_natDiv_sub_le (piFix * a) d
  have hpi := abs_piFix_sub_le
  rw [Nat.cast_mul, mul_div_assoc] at hfloor
  have hratio0 : (0 : ℝ) ≤ a / d := by positivity
  generalize (a : ℝ) / d = q at *
  generalize ((piFix * a / d : ℕ) : ℝ) = x at *
  generalize (piFix : ℝ) = P at *
  have hscaled : |x / 2 ^ 160 - P / 2 ^ 160 * q| ≤ 1 / 2 ^ 160 := by
    rw [abs_div_sub_eq (by positivity), ← mul_assoc, mul_div_cancel₀ P (by positivity)]
    gcongr
  have hdigits : |P / 2 ^ 160 * q - Real.pi * q| ≤ 1 / 2 ^ 60 * (1 / 2) := by
    rw [← sub_mul, abs_mul, abs_of_nonneg hratio0]
    gcongr
  calc _ ≤ |x / 2 ^ 160 - P / 2 ^ 160 * q| + |P / 2 ^ 160 * q - Real.pi * q| := abs_sub_le _ _ _
    _ ≤ 1 / 2 ^ 160 + 1 / 2 ^ 60 * (1 / 2) := add_le_add hscaled hdigits
    _ ≤ 1 / 2 ^ 60 := by norm_num

/-- The fixed-point sum of the series is near the cosine of the fixed-point angle. -/
theorem abs_cosSeries_sub_cos_le {x : ℕ} (hx : x ≤ 2 * 2 ^ 160) :
    |(cosSeries 160 161 (2 ^ 160) (x * x) 0 false 0 : ℝ) / 2 ^ 160 - Real.cos (x / 2 ^ 160)| ≤ 1 / 2 ^ 59 := by
  have hxi : |(x : ℝ) / 2 ^ 160| ≤ 2 := by
    rw [abs_of_nonneg (by positivity), div_le_iff₀ (by positivity)]
    exact_mod_cast hx
  have hsum := abs_cosSeries_start_sub_le hx 161
  have hcos := abs_cos_sub_cosTail_le hxi
  rw [abs_sub_comm] at hcos
  calc _ ≤ _ := abs_sub_le _ _ _
    _ ≤ 161 / 2 ^ 160 + 1 / 2 ^ 60 := add_le_add hsum hcos
    _ ≤ 1 / 2 ^ 59 := by norm_num

/-- The fixed-point cosine of an angle of the first quadrant is right to 2^-58. -/
theorem abs_cosQuarter_sub_le {a d : ℕ} (hd : 0 < d) (ha : 2 * a ≤ d) :
    |(cosQuarter a d : ℝ) / 2 ^ 160 - Real.cos (Real.pi * (a / d))| ≤ 1 / 2 ^ 58 := by
  have hangle := abs_fixedAngle_sub_le hd ha
  have hratio := ratio_le_half hd ha
  have hratio0 : (0 : ℝ) ≤ a / d := by positivity
  generalize hx : piFix * a / d = x at *
  generalize htheta : Real.pi * ((a : ℝ) / d) = theta at *
  have htheta0 : 0 ≤ theta := htheta ▸ mul_nonneg Real.pi_pos.le hratio0
  have htheta1 : theta ≤ Real.pi / 2 := by rw [← htheta]; nlinarith [Real.pi_pos]
  have hx2 : x ≤ 2 * 2 ^ 160 := by
    have hle : (x : ℝ) / 2 ^ 160 ≤ 2 := by linarith [(abs_le.1 hangle).2, Real.pi_lt_d2]
    rw [div_le_iff₀ (by positivity)] at hle
    exact_mod_cast hle
  rw [cosQuarter, cosFixed, hx]
  calc _ ≤ _ := abs_clamp_div_sub_le (Real.cos_nonneg_of_neg_pi_div_two_le_of_le (by linarith [Real.pi_pos]) htheta1)
        (Real.cos_le_one theta)
    _ ≤ _ := abs_sub_le _ (Real.cos (x / 2 ^ 160)) _
    _ ≤ 1 / 2 ^ 59 + 1 / 2 ^ 60 :=
      add_le_add (abs_cosSeries_sub_cos_le hx2) ((Real.abs_cos_sub_cos_le _ _).trans hangle)
    _ ≤ 1 / 2 ^ 58 := by norm_num

/-- `cosPi` is right to 2^-53. -/
theorem abs_val_cosPi_sub_le (m : ℕ) {d : ℕ} (hd : 0 < d) :
    |val (cosPi m d) - Real.cos (Real.pi * (m / d))| ≤ 1 / 2 ^ 53 := by
  obtain ⟨hquarter, hcos⟩ := cos_reduceAngle m hd
  have hfix := abs_cosQuarter_sub_le hd hquarter
  have hround := abs_val_ofRat_sub_le (reduceAngle m d).2 (Nat.two_pow_pos fixBits)
    (cosQuarter_le (reduceAngle m d).1 d)
  rw [Nat.cast_pow, Nat.cast_ofNat] at hround
  have hsign : |(if (reduceAngle m d).2 then (-1 : ℝ) else 1)| = 1 := by cases (reduceAngle m d).2 <;> simp
  rw [hcos]
  calc _ ≤ _ := abs_sub_le _ ((if (reduceAngle m d).2 then (-1 : ℝ) else 1) *
        ((cosQuarter (reduceAngle m d).1 d : ℝ) / 2 ^ fixBits)) _
    _ ≤ 1 / 2 ^ 54 + 1 / 2 ^ 58 := by
      refine add_le_add hround ?_
      rw [← mul_sub, abs_mul, hsign, one_mul]
      exact hfix
    _ ≤ 1 / 2 ^ 53 := by norm_num

end Sys2Proof.F64

namespace Sys2Proof.Arith

/-- Settles O48: the model's angle is that of the kernels, and `cosPi` is right to 2^-53. -/
theorem referenceCosinesAreNear : Obligations.ReferenceCosinesAreNear := by
  intro b n k hb
  have h := F64.abs_val_cosPi_sub_le (kernelAngle b n k) (d := 4 * b) (by omega)
  have hangle : Real.pi * ((kernelAngle b n k : ℕ) / (4 * b : ℕ)) =
      Real.pi * (2 * n + 1 + b) * (2 * k + 1) / (4 * b) := by
    rw [kernelAngle]
    push_cast
    ring
  rw [hangle] at h
  exact h

end Sys2Proof.Arith
end

section
/-! PROOFS. The statements of spec/60_exceptions.md: a step always answers, bad tables, what a fault leaves as it was,
and the order of the sequence checks. -/

namespace Sys2Proof.Machine

variable {s t : State} {i : Instr}

/-! ### A command behind its guard -/

/-- Every command is its checks, behind that of the tables, and then some effect (R120). -/
theorem exec_eq_guarded (i : Instr) (s : State) : ∃ body, exec i s = .next (s.guarded (checksOf s i) body) := by
  cases i <;> exact ⟨_, rfl⟩

/-- With good tables every command raises the first fault of its checks (R182, R183). -/
theorem exec_raises {r : Resp} (ht : s.cfg.tablesOk = true) (hc : firstFault (checksOf s i) = some r) :
    Raises s r (exec i s) := by
  obtain ⟨body, he⟩ := exec_eq_guarded i s
  rw [he, s.guarded_fault ht hc]
  rfl

/-- `Exec` of every word answers a next state (R189). -/
theorem execWord_next (w : Word) (s : State) : ∃ t, execWord w s = .next t := by
  rcases execWord_cases w s with ⟨r, -, he⟩ | ⟨i, -, he⟩
  · exact ⟨_, he⟩
  · rw [he]; exact exec_next i s

/-- Without good tables every word raises `InitializationError` (R190). -/
theorem execWord_badTables (w : Word) (ht : s.cfg.tablesOk = false) :
    execWord w s = .next (s.raise ⟨.initializationError, 0⟩) := by
  rw [execWord, ht]; rfl

/-- Settles O5: an access other than a write to `CMD` answers at once, and `Exec` of a word answers too. -/
theorem everyStepAnswersANextState : Obligations.EveryStepAnswersANextState := by
  intro s
  rcases step_cases s with ⟨-, h⟩ | ⟨_, -, h⟩ | ⟨_, _, -, h⟩ | ⟨_, _, _, -, -, h⟩ | ⟨_, _, _, _, -, -, -, h⟩ |
    ⟨_, _, _, -, -, h⟩
  any_goals exact ⟨_, h⟩
  exact h ▸ execWord_next _ _

/-- Settles O15: the word is stored before the test of the tables, which stands first in `Exec` and in every command. -/
theorem badTablesFailEveryCommand : Obligations.BadTablesFailEveryCommand :=
  fun s ht => ⟨fun d => (s.hostWrite_cmd d).trans (execWord_badTables _ ht), fun i => exec_badTables i ht⟩

/-! ### What a fault leaves as it was (R184) -/

/-- A reported fault is that of one of the checks. -/
theorem mem_of_firstFault {checks : List (Option Resp)} {r : Resp} (h : firstFault checks = some r) :
    some r ∈ checks := by
  obtain ⟨before, after, rfl, -⟩ := (firstFault_eq_some _ _).1 h
  simp

/-- No check of `UNPACK`, nor that of the tables, reports an overrun. -/
theorem unpackChecks_not_overrun {c : ChanIx} {r : Resp}
    (h : firstFault (require s.cfg.tablesOk ⟨.initializationError, 0⟩ :: s.unpackChecks c) = some r) :
    r.cause ≠ .bitstreamOverrun := by
  have hm := mem_of_firstFault h
  simp only [State.unpackChecks, List.mem_cons, List.not_mem_nil, or_false] at hm
  rcases hm with hm | hm | hm | hm | hm | hm <;> rw [require_cause hm.symm] <;> nofun

/-- An `UNPACK` that does not succeed raises another fault than the overrun, or has run into the limit (R132). -/
theorem exec_unpack_fault {c : ChanIx} (h : exec (.unpack c) s = .next t) (hf : t.resp.cause ≠ .success) :
    (t = s.raise t.resp ∧ t.resp.cause ≠ .bitstreamOverrun) ∨ ∃ b, t = s.unpackOverrun c b := by
  obtain rfl : s.guarded (s.unpackChecks c) (State.unpackBody c) = t := Host.Outcome.next.inj h
  rcases s.guarded_cases (s.unpackChecks c) (State.unpackBody c) with ⟨r, hr, he⟩ | ⟨-, -, he⟩ <;> rw [he] at hf ⊢
  · exact .inl ⟨rfl, unpackChecks_not_overrun hr⟩
  · unfold State.unpackBody at hf ⊢
    split
    · next hbands => rw [hbands] at hf; exact absurd rfl hf
    · exact .inr ⟨_, rfl⟩

/-- A command that does not succeed raises and changes nothing else, or is an `UNPACK` that has run into the limit. -/
theorem exec_fault (h : exec i s = .next t) (hf : t.resp.cause ≠ .success) :
    (t = s.raise t.resp ∧ ∀ c, i = .unpack c → t.resp.cause ≠ .bitstreamOverrun) ∨
      ∃ c b, i = .unpack c ∧ t = s.unpackOverrun c b := by
  by_cases hu : ∃ c, i = .unpack c
  · obtain ⟨c, rfl⟩ := hu
    rcases exec_unpack_fault h hf with ⟨ht, hcause⟩ | ⟨b, ht⟩
    · exact .inl ⟨ht, fun _ _ => hcause⟩
    · exact .inr ⟨c, b, rfl, ht⟩
  · rcases exec_cases i s with ⟨r, -, he⟩ | ⟨c, b, hi, -⟩ | ⟨-, -, t', ht', he⟩
    · obtain rfl := Host.Outcome.next.inj (he.symm.trans h)
      exact .inl ⟨rfl, fun c hi => absurd ⟨c, hi⟩ hu⟩
    · exact absurd ⟨c, hi⟩ hu
    · obtain rfl := Host.Outcome.next.inj (he.symm.trans h)
      exact absurd (effect_success ht') hf

/-- Settles O14: a word of no command raises, and a command that does not succeed is as `exec_fault` says. -/
theorem faultChangesOnlyItsReport : Obligations.FaultChangesOnlyItsReport := by
  intro w s t h hf
  cases hw : decode w with
  | error e =>
    rcases execWord_cases w s with ⟨r, -, he⟩ | ⟨i, hi, -⟩
    · obtain rfl := Host.Outcome.next.inj (he.symm.trans h)
      exact .inl ⟨nofun, rfl⟩
    · exact absurd (hw.symm.trans hi) nofun
  | ok i =>
    rcases exec_fault ((execWord_decoded hw).symm.trans h) hf with ⟨ht, hcause⟩ | ⟨c, b, rfl, rfl⟩
    · exact .inl ⟨fun c hc => hcause c (Except.ok.inj hc), ht⟩
    · refine .inr ⟨c, rfl, rfl, rfl, ⟨rfl, rfl, rfl, rfl, rfl, rfl, rfl, rfl, rfl, rfl⟩,
        fun d hd => s.setChan_chan_other _ hd, fun _ => rfl, rfl, ?_⟩
      simp [State.unpackOverrun]

/-! ### The sequence checks in their order (R181, R182) -/

/-- The check of the role, where the command has one (R181 item 4). -/
def State.roleChecks (s : State) : Instr → List (Option Resp)
  | .unpack c | .quant c | .pack c => [s.needNotSecondary c]
  | .isdec c | .isenc c => [s.needSecondary c]
  | _ => []

/-- The required state of R181's second table, as the commands test it. -/
def State.meetsState (s : State) : Instr → Bool
  | .unpack c | .load c => (s.chan c).fsm == .idle
  | .deq c => (s.chan c).fsm == .idle && (s.chan c).qvalid
  | .quant c | .rel c => (s.chan c).fsm == .transformed
  | .pack c => (s.chan c).fsm == .transformed && (s.chan c).qvalid
  | .isdec c => (s.chan (s.chan c).partner).fsm == .loaded && (s.chan c).fsm == .idle
  | .isenc c => (s.chan (s.chan c).partner).fsm == .transformed && (s.chan c).fsm == .transformed
  | .imdct c | .mdct c => (s.chan c).fsm == .loaded
  | _ => true

/-- The checks of a command that needs a session: `RUN`, then the direction where it has one; and of a channel command
then the channel, the role where it is looked at, the state, and the checks of its own. -/
theorem checksOf_session (hnop : i ≠ .nop) (hstart : i ≠ .start) :
    ∃ rest, checksOf s i = s.needRun :: ((direction i).toList.map s.needDir ++ rest) ∧
      ∀ c, i.operand = some c → ∃ later,
        rest = s.needChan c :: (s.roleChecks i ++ require (s.meetsState i) (sequenceError 5) :: later) := by
  cases i with
  | nop => exact absurd rfl hnop
  | start => exact absurd rfl hstart
  | stop | abort => exact ⟨_, rfl, nofun⟩
  | _ =>
    refine ⟨_, rfl, fun c hc => ?_⟩
    cases hc
    exact ⟨_, rfl⟩

theorem State.roleChecks_pass (h : s.RoleOk i) : ∀ x ∈ s.roleChecks i, x = none := by
  cases i with
  | unpack c | quant c | pack c => exact List.forall_mem_singleton.2 ((s.needNotSecondary_none c).2 h)
  | isdec c | isenc c => exact List.forall_mem_singleton.2 ((s.needSecondary_none c).2 h)
  | _ => exact List.forall_mem_nil _

theorem State.roleChecks_fail (h : ¬ s.RoleOk i) : s.roleChecks i = [some (sequenceError 4)] := by
  cases i with
  | unpack c | quant c | pack c => exact congrArg (· :: []) (s.needNotSecondary_some c (not_not.1 h))
  | isdec c | isenc c => exact congrArg (· :: []) (s.needSecondary_some c h)
  | _ => exact absurd trivial h

theorem State.meetsState_iff : s.meetsState i = true ↔ s.StateOk i := by
  cases i <;> simp [State.meetsState, State.StateOk]

/-- Checks that pass are skipped. -/
theorem firstFault_append_of_none {before : List (Option Resp)} (h : ∀ x ∈ before, x = none)
    (rest : List (Option Resp)) : firstFault (before ++ rest) = firstFault rest := by
  induction before with
  | nil => rfl
  | cons x before ih =>
    obtain ⟨rfl, hb⟩ := List.forall_mem_cons.1 h
    exact ih hb

/-- Settles O16: by the order of the checks (`checksOf_session`), each clause's check being the first that raises. -/
theorem sequenceErrorsInOrder : Obligations.SequenceErrorsInOrder := by
  intro i s ht hnop hstart
  obtain ⟨rest, hchecks, hchannel⟩ := checksOf_session (s := s) hnop hstart
  refine ⟨fun hrun => exec_raises ht ?_, fun hrun dir hdir hne => exec_raises ht ?_, fun hrun hdir c hc => ?_⟩
  · rw [hchecks, s.needRun_some hrun]
    rfl
  · rw [hchecks, s.needRun_none.2 hrun, hdir, Option.toList_some, List.map_singleton, s.needDir_some hne]
    rfl
  obtain ⟨later, rfl⟩ := hchannel c hc
  have hfirst : firstFault (checksOf s i) = firstFault (s.needChan c ::
      (s.roleChecks i ++ require (s.meetsState i) (sequenceError 5) :: later)) := by
    rw [hchecks, s.needRun_none.2 hrun, firstFault_none, firstFault_append_of_none]
    simpa using hdir
  refine ⟨fun hch => exec_raises ht ?_, fun hch hrole => exec_raises ht ?_, fun hch hrole hstate => exec_raises ht ?_⟩
  · rw [hfirst, s.needChan_some c hch]
    rfl
  · rw [hfirst, (s.needChan_none c).2 hch, State.roleChecks_fail hrole]
    rfl
  · rw [hfirst, (s.needChan_none c).2 hch, firstFault_none,
      firstFault_append_of_none (State.roleChecks_pass hrole), Bool.eq_false_iff.2 (State.meetsState_iff.not.2 hstate)]
    rfl

end Sys2Proof.Machine
end
